-- ==== Sys2Proof/Word.lean ====
section
/-! DEFINITION. The word types of the SGU-1: register and PCM bytes (10_state.md R30, R46), the 32-bit command
word (30_encoding.md R121), and the channel and operator numbers (00_scope.md R8). -/

namespace Sys2Proof

/-- One byte of the register bank or of PCM memory. -/
abbrev Byte := BitVec 8

/-- One command word of the command port (30_encoding.md R121). -/
abbrev Command := BitVec 32

/-- A channel number, `NCH` = 9 (00_scope.md R8). -/
abbrev ChanId := Fin 9

/-- An operator number within a channel, `NOP` = 4 (00_scope.md R8). -/
abbrev OpId := Fin 4

end Sys2Proof
end

