-- ==== Sys2Proof/Machine/Arith.lean ====
section
/-! DEFINITION. The primitive functions of 00_scope.md R12, over unbounded integers (R11). `a div b` is `Nat`
division, `tdiv` is `Int.tdiv`, `v << n` of an integer is `shl`; `min` and `max` are Lean's. -/

namespace Sys2Proof.Machine

/-- `v[hi:lo]`: bits `hi` down to `lo` of `v` (R12). -/
def bits (v hi lo : Nat) : Nat := v / 2 ^ lo % 2 ^ (hi - lo + 1)

/-- `v[i]`, read as a truth value (R12). -/
def bit (v i : Nat) : Bool := decide (v / 2 ^ i % 2 = 1)

/-- `wrapN(v)`: `v mod 2^N`, never negative (R12). -/
def wrapTo (n : Nat) (v : Int) : Nat := (v % 2 ^ n).toNat

/-- `s8(v)`: the two's-complement value of an 8-bit pattern (R12). -/
def s8 (v : Nat) : Int := if bit v 7 then (v : Int) - 256 else v

/-- `asr(v, n)`: floor of `v / 2^n` (R12). -/
def asr (v : Int) (n : Nat) : Int := v / 2 ^ n

/-- `v << n` of an integer: `v × 2^n` (R12). -/
def shl (v : Int) (n : Nat) : Int := v * 2 ^ n

/-- `clamp(v, lo, hi)` (R12). -/
def clamp (v lo hi : Int) : Int := min hi (max lo v)

/-- `BASESTEP(f)`: the phase step of a frequency of `f` register units (41_phase.md R200), which the Reference
Configuration also reads the fixed-mode frequency by (R205). -/
def baseStep (f : Nat) : Nat := (f * 16000 + 1) / 3

end Sys2Proof.Machine
end

