-- ==== Sys2Proof/Syntax.lean ====
section
/-! DEFINITION. The host commands, one constructor per row of spec/opcode_table.json (30_encoding.md R122,
40_host_commands.md R160). Operands are the numbers of a command listing (R134); WellFormed.lean holds their ranges. -/

namespace Sys2Proof

/-- A host command. -/
inductive Instr where
  /-- `wr ADDR, DATA`: WRITE, store one register byte (40_host_commands.md R161). -/
  | wr (addr data : Nat)
  /-- `rd ADDR`: READ, return one register byte (R164). -/
  | rd (addr : Nat)
  /-- `adv`: ADVANCE, one sample of the whole block (R170). -/
  | adv
  /-- `rst`: RESET (R167). -/
  | rst
  /-- `mute CH, M`: SETMUTE, set one mute flag (R168). -/
  | mute (ch : Nat) (m : Bool)
  /-- `pcmw PADDR, DATA`: PCMWRITE, store one byte of PCM memory (R169). -/
  | pcmw (paddr data : Nat)
deriving DecidableEq, Repr

end Sys2Proof
end

