-- ==== Sys2Proof/WellFormed.lean ====
section
/-! DEFINITION. Which commands have an encoding: every operand within the range of 30_encoding.md R134 ("An operand
outside its range cannot be encoded, and the assembler rejects the line"). -/

namespace Sys2Proof

/-- The operand ranges of R134. -/
def Instr.wellFormed : Instr → Bool
  | .wr addr data => decide (addr ≤ 1023) && decide (data ≤ 255)
  | .rd addr => decide (addr ≤ 1023)
  | .adv => true
  | .rst => true
  | .mute ch _ => decide (ch ≤ 15)
  | .pcmw paddr data => decide (paddr ≤ 65535) && decide (data ≤ 255)

end Sys2Proof
end

