-- ==== Sys2Proof/Decode.lean ====
section
/-! DEFINITION. Decoding and encoding of command words (30_encoding.md R121 to R124), and `decodeTableWord`. A command
word is one 32-bit word; the port has no byte order of its own (R120, R133). -/

namespace Sys2Proof

open Machine (bits bit)

/-- Why a word spells no command (30_encoding.md R124): its opcode is reserved, or its opcode is valid and a
must-be-zero bit of R123 is set. Both are the one outcome `reserved_command` of 60_exceptions.md R442. -/
inductive DecodeError where
  /-- `OPC` 0x0 or 0x7 to 0xF. -/
  | reservedOpcode
  /-- A set must-be-zero bit beside a valid `OPC`. -/
  | mustBeZero
deriving DecidableEq, Repr

/-- `OPC`, bits 31:28 of the word (R121). -/
def opcField (w : Nat) : Nat := bits w 31 28

/-- `ADDR`, bits 25:16 (R123). -/
def addrField (w : Nat) : Nat := bits w 25 16

/-- `DATA`, bits 7:0 (R123). -/
def dataField (w : Nat) : Nat := bits w 7 0

/-- `CH`, bits 19:16 (R123). -/
def chField (w : Nat) : Nat := bits w 19 16

/-- `M`, bit 0 (R123). -/
def mField (w : Nat) : Bool := bit w 0

/-- `PADDR`, bits 23:8 (R123). -/
def paddrField (w : Nat) : Nat := bits w 23 8

/-- The must-be-zero bits of a valid opcode are all clear (R123). -/
def reservedClear (w : Nat) : Bool :=
  match opcField w with
  | 1 => decide (bits w 27 26 = 0) && decide (bits w 15 8 = 0)
  | 2 => decide (bits w 27 26 = 0) && decide (bits w 15 0 = 0)
  | 3 => decide (bits w 27 0 = 0)
  | 4 => decide (bits w 27 0 = 0)
  | 5 => decide (bits w 27 20 = 0) && decide (bits w 15 1 = 0)
  | 6 => decide (bits w 27 24 = 0)
  | _ => true

/-- The command of an opcode, its operands read from the word; none for a reserved opcode (R122, R123). -/
def opcodeCommand (w : Nat) : Option Instr :=
  match opcField w with
  | 1 => some (.wr (addrField w) (dataField w))
  | 2 => some (.rd (addrField w))
  | 3 => some .adv
  | 4 => some .rst
  | 5 => some (.mute (chField w) (mField w))
  | 6 => some (.pcmw (paddrField w) (dataField w))
  | _ => none

/-- The command a word spells, or why it spells none (R122 to R124). Total. -/
def decode (w : Command) : Except DecodeError Instr :=
  match opcodeCommand w.toNat with
  | none => .error .reservedOpcode
  | some i => if reservedClear w.toNat then .ok i else .error .mustBeZero

/-- The word of a command as a number: the opcode and each operand at its place, every other bit 0 (R123). -/
def encodeNat : Instr → Nat
  | .wr addr data => 1 * 2 ^ 28 + addr * 2 ^ 16 + data
  | .rd addr => 2 * 2 ^ 28 + addr * 2 ^ 16
  | .adv => 3 * 2 ^ 28
  | .rst => 4 * 2 ^ 28
  | .mute ch m => 5 * 2 ^ 28 + ch * 2 ^ 16 + m.toNat
  | .pcmw paddr data => 6 * 2 ^ 28 + paddr * 2 ^ 8 + data

/-- The command word of a well-formed command (R123). -/
def encode (i : Instr) : Command := BitVec.ofNat 32 (encodeNat i)

/-- A row of spec/opcode_table.json as match and mask (30_encoding.md R123). -/
structure OpcodeRow where
  mnemonic : String
  pattern : Command
  mask : Command
deriving DecidableEq, Repr

/-- The match and mask pairs of 30_encoding.md R123. -/
def opcodeTable : List OpcodeRow :=
  [⟨"wr", 0x10000000#32, 0xFC00FF00#32⟩,
   ⟨"rd", 0x20000000#32, 0xFC00FFFF#32⟩,
   ⟨"adv", 0x30000000#32, 0xFFFFFFFF#32⟩,
   ⟨"rst", 0x40000000#32, 0xFFFFFFFF#32⟩,
   ⟨"mute", 0x50000000#32, 0xFFF0FFFE#32⟩,
   ⟨"pcmw", 0x60000000#32, 0xFF000000#32⟩]

/-- The mnemonic of a command (R122). -/
def Instr.mnemonic : Instr → String
  | .wr _ _ => "wr"
  | .rd _ => "rd"
  | .adv => "adv"
  | .rst => "rst"
  | .mute _ _ => "mute"
  | .pcmw _ _ => "pcmw"

/-- A word fits a row: `word & mask == match` (R123). -/
def OpcodeRow.fits (r : OpcodeRow) (w : Command) : Bool := w &&& r.mask == r.pattern

/-- The command decoded from the low `nbits` bits of `w` as one command word, or none where the decoder refuses. Every
row has 32 bits, numbered as the command word's own (R121; log entry 14). -/
def decodeTableWord (nbits w : Nat) : Option Instr :=
  match decode (BitVec.ofNat 32 (w % 2 ^ nbits)) with
  | .ok i => some i
  | .error _ => none

end Sys2Proof
end

