-- ==== Sys2Proof/Machine/Reference.lean ====
section
/-! DEFINITION. The Reference Configuration (RC) of 92_eei_decisions.md section 2: the value the spec chose for each
OPEN parameter, "used only by test vectors" (00_scope.md R16). No meaning reads these: a meaning takes an instance's
parameters as an argument (Config.lean), and the RC serves to evaluate the spec's test vectors and to show that
admissible parameters exist. Each function has its constraints of section 2 proved beside it. -/

namespace Sys2Proof.Machine

/-! ## Sine (P8, 43_waveform.md R273) -/

/-- Quarter sine table, entries 0 to 127. -/
def sineRow0 : List Nat :=
  [0, 50, 101, 151, 201, 251, 301, 352, 402, 452, 502, 552, 603, 653, 703, 753,
   803, 853, 903, 953, 1003, 1053, 1102, 1152, 1202, 1252, 1301, 1351, 1400, 1450, 1499, 1549,
   1598, 1647, 1696, 1746, 1795, 1844, 1893, 1941, 1990, 2039, 2088, 2136, 2185, 2233, 2281, 2330,
   2378, 2426, 2474, 2522, 2569, 2617, 2665, 2712, 2759, 2807, 2854, 2901, 2948, 2995, 3041, 3088,
   3135, 3181, 3227, 3273, 3319, 3365, 3411, 3457, 3502, 3547, 3593, 3638, 3683, 3728, 3772, 3817,
   3861, 3905, 3950, 3994, 4037, 4081, 4124, 4168, 4211, 4254, 4297, 4340, 4382, 4425, 4467, 4509,
   4551, 4592, 4634, 4675, 4716, 4757, 4798, 4839, 4879, 4920, 4960, 5000, 5039, 5079, 5118, 5157,
   5196, 5235, 5274, 5312, 5350, 5388, 5426, 5463, 5501, 5538, 5575, 5612, 5648, 5684, 5720, 5756]

/-- Quarter sine table, entries 128 to 255. -/
def sineRow1 : List Nat :=
  [5792, 5827, 5863, 5898, 5932, 5967, 6001, 6035, 6069, 6103, 6136, 6169, 6202, 6235, 6267, 6300,
   6332, 6363, 6395, 6426, 6457, 6488, 6519, 6549, 6579, 6609, 6638, 6668, 6697, 6726, 6754, 6783,
   6811, 6838, 6866, 6893, 6920, 6947, 6973, 7000, 7026, 7051, 7077, 7102, 7127, 7152, 7176, 7200,
   7224, 7247, 7271, 7294, 7316, 7339, 7361, 7383, 7405, 7426, 7447, 7468, 7488, 7509, 7528, 7548,
   7567, 7587, 7605, 7624, 7642, 7660, 7678, 7695, 7712, 7729, 7745, 7762, 7778, 7793, 7809, 7824,
   7838, 7853, 7867, 7881, 7894, 7908, 7921, 7933, 7946, 7958, 7969, 7981, 7992, 8003, 8013, 8024,
   8034, 8043, 8053, 8062, 8070, 8079, 8087, 8095, 8102, 8110, 8116, 8123, 8129, 8135, 8141, 8146,
   8152, 8156, 8161, 8165, 8169, 8172, 8176, 8179, 8181, 8183, 8185, 8187, 8189, 8190, 8190, 8191]

/-- Quarter sine table, entries 256 to 256. -/
def sineRow2 : List Nat :=
  [8191]

/-- The quarter sine table `round(8191 × sin(2πi/1024))`, `i` = 0 to 256 (43_waveform.md R273). -/
def rcQuarterSine : List Nat := sineRow0 ++ sineRow1 ++ sineRow2

/-- RC `SINE`, the 1024 values unfolded from the quarter table by symmetry (90_conflicts.md C8). -/
def rcSine (i : Nat) : Int :=
  if i ≤ 256 then rcQuarterSine.getD i 0
  else if i ≤ 512 then rcQuarterSine.getD (512 - i) 0
  else if i ≤ 768 then - rcQuarterSine.getD (i - 512) 0
  else - rcQuarterSine.getD (1024 - i) 0

/-! ## Linear gain (P9, 43_waveform.md R288) -/

/-- Logarithmic-to-linear table, entries 0 to 127. -/
def linRow0 : List Nat :=
  [4096, 4068, 4041, 4014, 3987, 3960, 3933, 3907, 3881, 3854, 3829, 3803, 3777, 3752, 3727, 3701,
   3677, 3652, 3627, 3603, 3579, 3554, 3531, 3507, 3483, 3460, 3436, 3413, 3390, 3368, 3345, 3322,
   3300, 3278, 3256, 3234, 3212, 3190, 3169, 3148, 3126, 3105, 3085, 3064, 3043, 3023, 3002, 2982,
   2962, 2942, 2922, 2903, 2883, 2864, 2844, 2825, 2806, 2787, 2769, 2750, 2732, 2713, 2695, 2677,
   2659, 2641, 2623, 2605, 2588, 2570, 2553, 2536, 2519, 2502, 2485, 2468, 2452, 2435, 2419, 2403,
   2386, 2370, 2354, 2339, 2323, 2307, 2292, 2276, 2261, 2246, 2231, 2216, 2201, 2186, 2171, 2157,
   2142, 2128, 2113, 2099, 2085, 2071, 2057, 2043, 2029, 2016, 2002, 1989, 1975, 1962, 1949, 1936,
   1923, 1910, 1897, 1884, 1871, 1859, 1846, 1834, 1822, 1809, 1797, 1785, 1773, 1761, 1749, 1738]

/-- Logarithmic-to-linear table, entries 128 to 255. -/
def linRow1 : List Nat :=
  [1726, 1714, 1703, 1691, 1680, 1669, 1657, 1646, 1635, 1624, 1613, 1602, 1591, 1581, 1570, 1560,
   1549, 1539, 1528, 1518, 1508, 1498, 1488, 1478, 1468, 1458, 1448, 1438, 1429, 1419, 1409, 1400,
   1390, 1381, 1372, 1363, 1353, 1344, 1335, 1326, 1317, 1308, 1300, 1291, 1282, 1274, 1265, 1257,
   1248, 1240, 1231, 1223, 1215, 1207, 1198, 1190, 1182, 1174, 1167, 1159, 1151, 1143, 1135, 1128,
   1120, 1113, 1105, 1098, 1090, 1083, 1076, 1069, 1061, 1054, 1047, 1040, 1033, 1026, 1019, 1012,
   1006, 999, 992, 985, 979, 972, 966, 959, 953, 946, 940, 934, 927, 921, 915, 909,
   903, 896, 890, 884, 878, 873, 867, 861, 855, 849, 844, 838, 832, 827, 821, 816,
   810, 805, 799, 794, 789, 783, 778, 773, 768, 762, 757, 752, 747, 742, 737, 732]

/-- Logarithmic-to-linear table, entries 256 to 383. -/
def linRow2 : List Nat :=
  [727, 722, 717, 713, 708, 703, 698, 694, 689, 684, 680, 675, 671, 666, 662, 657,
   653, 648, 644, 640, 635, 631, 627, 623, 618, 614, 610, 606, 602, 598, 594, 590,
   586, 582, 578, 574, 570, 566, 563, 559, 555, 551, 548, 544, 540, 537, 533, 529,
   526, 522, 519, 515, 512, 508, 505, 502, 498, 495, 492, 488, 485, 482, 478, 475,
   472, 469, 466, 463, 459, 456, 453, 450, 447, 444, 441, 438, 435, 432, 429, 427,
   424, 421, 418, 415, 412, 410, 407, 404, 401, 399, 396, 393, 391, 388, 385, 383,
   380, 378, 375, 373, 370, 368, 365, 363, 360, 358, 355, 353, 351, 348, 346, 344,
   341, 339, 337, 334, 332, 330, 328, 326, 323, 321, 319, 317, 315, 313, 311, 308]

/-- Logarithmic-to-linear table, entries 384 to 511. -/
def linRow3 : List Nat :=
  [306, 304, 302, 300, 298, 296, 294, 292, 290, 288, 286, 284, 283, 281, 279, 277,
   275, 273, 271, 269, 268, 266, 264, 262, 261, 259, 257, 255, 254, 252, 250, 249,
   247, 245, 244, 242, 240, 239, 237, 235, 234, 232, 231, 229, 228, 226, 225, 223,
   222, 220, 219, 217, 216, 214, 213, 211, 210, 208, 207, 206, 204, 203, 202, 200,
   199, 198, 196, 195, 194, 192, 191, 190, 188, 187, 186, 185, 183, 182, 181, 180,
   179, 177, 176, 175, 174, 173, 171, 170, 169, 168, 167, 166, 165, 164, 162, 161,
   160, 159, 158, 157, 156, 155, 154, 153, 152, 151, 150, 149, 148, 147, 146, 145,
   144, 143, 142, 141, 140, 139, 138, 137, 136, 135, 134, 134, 133, 132, 131, 130]

/-- Logarithmic-to-linear table, entries 512 to 639. -/
def linRow4 : List Nat :=
  [129, 128, 127, 127, 126, 125, 124, 123, 122, 121, 121, 120, 119, 118, 117, 117,
   116, 115, 114, 114, 113, 112, 111, 111, 110, 109, 108, 108, 107, 106, 105, 105,
   104, 103, 103, 102, 101, 101, 100, 99, 99, 98, 97, 97, 96, 95, 95, 94,
   93, 93, 92, 91, 91, 90, 90, 89, 88, 88, 87, 87, 86, 86, 85, 84,
   84, 83, 83, 82, 82, 81, 80, 80, 79, 79, 78, 78, 77, 77, 76, 76,
   75, 75, 74, 74, 73, 73, 72, 72, 71, 71, 70, 70, 69, 69, 68, 68,
   68, 67, 67, 66, 66, 65, 65, 64, 64, 64, 63, 63, 62, 62, 61, 61,
   61, 60, 60, 59, 59, 59, 58, 58, 57, 57, 57, 56, 56, 56, 55, 55]

/-- Logarithmic-to-linear table, entries 640 to 767. -/
def linRow5 : List Nat :=
  [54, 54, 54, 53, 53, 53, 52, 52, 52, 51, 51, 50, 50, 50, 49, 49,
   49, 48, 48, 48, 48, 47, 47, 47, 46, 46, 46, 45, 45, 45, 44, 44,
   44, 44, 43, 43, 43, 42, 42, 42, 42, 41, 41, 41, 40, 40, 40, 40,
   39, 39, 39, 39, 38, 38, 38, 38, 37, 37, 37, 37, 36, 36, 36, 36,
   35, 35, 35, 35, 34, 34, 34, 34, 33, 33, 33, 33, 33, 32, 32, 32,
   32, 31, 31, 31, 31, 31, 30, 30, 30, 30, 30, 29, 29, 29, 29, 29,
   28, 28, 28, 28, 28, 28, 27, 27, 27, 27, 27, 26, 26, 26, 26, 26,
   26, 25, 25, 25, 25, 25, 25, 24, 24, 24, 24, 24, 24, 23, 23, 23]

/-- Logarithmic-to-linear table, entries 768 to 895. -/
def linRow6 : List Nat :=
  [23, 23, 23, 22, 22, 22, 22, 22, 22, 22, 21, 21, 21, 21, 21, 21,
   21, 20, 20, 20, 20, 20, 20, 20, 19, 19, 19, 19, 19, 19, 19, 19,
   18, 18, 18, 18, 18, 18, 18, 18, 17, 17, 17, 17, 17, 17, 17, 17,
   17, 16, 16, 16, 16, 16, 16, 16, 16, 16, 15, 15, 15, 15, 15, 15,
   15, 15, 15, 15, 14, 14, 14, 14, 14, 14, 14, 14, 14, 14, 14, 13,
   13, 13, 13, 13, 13, 13, 13, 13, 13, 13, 12, 12, 12, 12, 12, 12,
   12, 12, 12, 12, 12, 12, 12, 11, 11, 11, 11, 11, 11, 11, 11, 11,
   11, 11, 11, 11, 10, 10, 10, 10, 10, 10, 10, 10, 10, 10, 10, 10]

/-- Logarithmic-to-linear table, entries 896 to 1022. -/
def linRow7 : List Nat :=
  [10, 10, 10, 9, 9, 9, 9, 9, 9, 9, 9, 9, 9, 9, 9, 9,
   9, 9, 9, 8, 8, 8, 8, 8, 8, 8, 8, 8, 8, 8, 8, 8,
   8, 8, 8, 8, 8, 8, 7, 7, 7, 7, 7, 7, 7, 7, 7, 7,
   7, 7, 7, 7, 7, 7, 7, 7, 7, 7, 7, 6, 6, 6, 6, 6,
   6, 6, 6, 6, 6, 6, 6, 6, 6, 6, 6, 6, 6, 6, 6, 6,
   6, 6, 6, 6, 5, 5, 5, 5, 5, 5, 5, 5, 5, 5, 5, 5,
   5, 5, 5, 5, 5, 5, 5, 5, 5, 5, 5, 5, 5, 5, 5, 5,
   5, 5, 4, 4, 4, 4, 4, 4, 4, 4, 4, 4, 4, 4, 4]

/-- `round(4096 × 10^(−(60a/1023)/20))` for `a` = 0 to 1022 (43_waveform.md R288). -/
def rcLinTable : List Nat :=
  linRow0 ++ linRow1 ++ linRow2 ++ linRow3 ++ linRow4 ++ linRow5 ++ linRow6 ++ linRow7

/-- RC `LIN`: the table, and 0 from `ATT_MAX` on (43_waveform.md R288). -/
def rcLin (a : Nat) : Nat := rcLinTable.getD a 0

/-! ## The small tables and formulas -/

/-- RC `MULX2` (P10, 41_phase.md R201). -/
def rcMulX2 (m : Nat) : Nat := [1, 2, 4, 6, 8, 10, 12, 14, 16, 18, 20, 20, 24, 24, 30, 30].getD m 1

/-- RC `DT_STEP` (P11, 41_phase.md R202). -/
def rcDtStep (kc dt : Nat) : Int := (if bit dt 2 then -1 else 1) * (bits dt 1 0 : Int) * (kc + 1) * 2048

/-- RC `KEYCODE` (P12, 41_phase.md R202). -/
def rcKeycode (f : Nat) : Nat := f / 2 ^ 11

/-- RC `KS` (P13, 42_envelope.md R236). -/
def rcKs (kc ksr : Nat) : Int := if ksr = 0 then 0 else (kc / 2 ^ (3 - ksr) : Nat)

/-- RC `ENV_INC` (P14, 42_envelope.md R237). -/
def rcEnvInc (r n : Nat) : Nat :=
  if r = 0 then 0
  else if r / 4 ≤ 11 then (if n % 2 ^ (11 - r / 4) = 0 then 1 else 0)
  else 2 ^ (r / 4 - 11)

/-- RC `SLATT` (P15, 42_envelope.md R241). -/
def rcSlAtt (sl : Nat) : Nat := if sl = 15 then 1023 else sl * 2 ^ 5

/-- RC `KSL_ATT` (P16, 43_waveform.md R287). -/
def rcKslAtt (f ksl : Nat) : Nat := if ksl = 0 then 0 else f / 2 ^ 10 * 2 ^ (ksl - 1)

/-- The triangle wave of period 420: 0 up to 210 and back in equal straight flanks. Half positions of `AM_TRI`'s cycle of
210, so that a turn may fall between two positions. -/
def triangleWave420 (u : Nat) : Nat := min (u % 420) (420 - u % 420)

/-- RC `AM_TRI` (P17, 45_lfo.md R341). -/
def rcAmTri (pos : Nat) : Nat := if pos < 105 then pos else 209 - pos

/-- RC `AMD` (P18, 45_lfo.md R341). -/
def rcAmd (sel : Nat) : Nat := [0, 1, 2, 4, 6, 8, 12, 16].getD sel 0

/-- RC `PM_WAVE` (P19, 45_lfo.md R342). -/
def rcPmWave (st : Nat) : Int := ([0, 64, 128, 64, 0, -64, -128, -64] : List Int).getD st 0

/-- RC `PMD` (P20, 45_lfo.md R342). -/
def rcPmd (sel : Nat) : Int := ([0, 16, 32, 48, 64, 80, 96, 128] : List Int).getD sel 0

/-- RC `MODSHIFT` (P21, 44_modulation.md R313). -/
def rcModShift (m : Nat) : Nat := 11 - m

/-- RC `WQ` (P22, 43_waveform.md R272). -/
def rcWq (sk : Nat) : Nat := [256, 0, 512, 256].getD sk 256

/-- RC `PN_TAP` (P23, 43_waveform.md R278). -/
def rcPnTap (taps : Nat) : Nat := [1, 2, 3, 4].getD taps 1

/-- RC `SEED32` (P24, 43_waveform.md R279). -/
def rcSeed32 (c : ChanId) (k : OpId) : BitVec 32 := BitVec.ofNat 32 (0x00010001 * (c.val * 4 + k.val + 1))

/-- RC `SEED6` (P25, 43_waveform.md R279). -/
def rcSeed6 (c : ChanId) (k : OpId) : BitVec 6 := BitVec.ofNat 6 ((c.val * 4 + k.val) % 63 + 1)

/-- RC `PANL` (P26, 46_channel.md R371). -/
def rcPanL (p : Int) : Int := if p ≤ 0 then 127 else 127 - p

/-- RC `PANR` (P27, 46_channel.md R371). -/
def rcPanR (p : Int) : Int := if 0 ≤ p then 127 else max 0 (127 + p)

/-- RC `SVF_PREGAIN` (P28, 46_channel.md R368). -/
def rcSvfPregain (reson : Nat) : Int := 256 - (reson / 2 : Nat)

/-- RC `SVF_F` (P29, 46_channel.md R368). -/
def rcSvfF (cutoff : Nat) : Int := cutoff

/-- RC `SVF_Q` (P30, 46_channel.md R368). -/
def rcSvfQ (reson : Nat) : Int := 256 - reson

/-- RC `SVF_CLIP` (P31, 46_channel.md R369): knee 24576, slope 1/4, limit 32767. -/
def rcSvfClip (v : Int) : Int :=
  if -24576 ≤ v ∧ v ≤ 24576 then v
  else if 0 ≤ v then min 32767 (24576 + (v - 24576) / 4)
  else - min 32767 (24576 + (-v - 24576) / 4)

/-- RC `ATK` (P32, 42_envelope.md R238). -/
def rcAtk (a inc : Nat) : Nat := ((a + 1) * inc + 15) / 2 ^ 4

/-- RC edge blend (P33, 44_modulation.md R317). -/
def rcBlend (prev value : Int) (d step : Nat) : Int := prev + Int.tdiv ((value - prev) * d) step

/-! ## The constraints of section 2 hold of the RC -/

theorem rcSine_half : ∀ i < 512, rcSine i = - rcSine (i + 512) := by
  intro i hi
  simp only [rcSine]
  rcases Nat.lt_trichotomy i 0 with h | h | h
  · omega
  · subst h; decide
  · by_cases h1 : i ≤ 256
    · rw [if_pos h1, if_neg (by omega), if_neg (by omega), if_pos (by omega), Int.neg_neg,
        show i + 512 - 512 = i by omega]
    · rw [if_neg h1, if_pos (by omega), if_neg (by omega), if_neg (by omega), if_neg (by omega), Int.neg_neg,
        show 1024 - (i + 512) = 512 - i by omega]

/-- The entries of a list never rise. -/
def nonRising : List Nat → Bool
  | a :: b :: l => decide (b ≤ a) && nonRising (b :: l)
  | _ => true

theorem nonRising_getD (l : List Nat) (h : nonRising l = true) (a : Nat) : l.getD (a + 1) 0 ≤ l.getD a 0 := by
  induction l generalizing a with
  | nil => simp
  | cons x l ih =>
    cases l with
    | nil => simp
    | cons y l =>
      simp only [nonRising, Bool.and_eq_true, decide_eq_true_eq] at h
      cases a with
      | zero => simpa using h.1
      | succ a => simpa using ih h.2 a

theorem rcLinTable_nonRising : nonRising rcLinTable = true := by decide +kernel

theorem rcLin_antitone (a b : Nat) (hab : a ≤ b) (_ : b ≤ 1023) : rcLin b ≤ rcLin a := by
  induction b, hab using Nat.le_induction with
  | base => exact Nat.le_refl _
  | succ n _ ih => exact Nat.le_trans (nonRising_getD _ rcLinTable_nonRising n) (ih (by omega))

theorem rcMulX2_pos : ∀ m < 16, 0 < rcMulX2 m := by decide

theorem rcMulX2_near : ∀ m < 16, 1 ≤ m → m < rcMulX2 m ∧ rcMulX2 m < 4 * m := by decide

theorem rcDtStep_zero (kc : Nat) : rcDtStep kc 0 = 0 := by simp [rcDtStep, bits]

theorem rcKs_zero (kc : Nat) : rcKs kc 0 = 0 := rfl

theorem rcEnvInc_zero (n : Nat) : rcEnvInc 0 n = 0 := rfl

theorem rcEnvInc_mono (n r r' : Nat) (h : r ≤ r') : rcEnvInc r n ≤ rcEnvInc r' n := by
  unfold rcEnvInc
  have hq : r / 4 ≤ r' / 4 := Nat.div_le_div_right h
  have hpow : r' / 4 ≤ 11 → n % 2 ^ (11 - r / 4) = 0 → n % 2 ^ (11 - r' / 4) = 0 := fun _ h0 =>
    Nat.mod_eq_zero_of_dvd
      ((Nat.pow_dvd_pow 2 (show 11 - r' / 4 ≤ 11 - r / 4 by omega)).trans (Nat.dvd_of_mod_eq_zero h0))
  have hexp : 2 ^ (r / 4 - 11) ≤ 2 ^ (r' / 4 - 11) := Nat.pow_le_pow_right (by omega) (by omega)
  have hone : 1 ≤ 2 ^ (r' / 4 - 11) := Nat.one_le_two_pow
  by_cases h0 : r = 0
  · simp [h0]
  have h0' : r' ≠ 0 := by omega
  by_cases hr : r / 4 ≤ 11 <;> by_cases hr' : r' / 4 ≤ 11 <;> simp only [h0, h0', hr, hr', if_true, if_false]
  · by_cases hm : n % 2 ^ (11 - r / 4) = 0
    · simp [hm, hpow hr' hm]
    · simp [hm]
  · split <;> omega
  · omega
  · exact hexp

theorem rcSlAtt_mono : ∀ a ≤ 15, ∀ b ≤ 15, a ≤ b → rcSlAtt a ≤ rcSlAtt b := by decide

theorem rcKslAtt_zero (f : Nat) : rcKslAtt f 0 = 0 := rfl

theorem rcAmTri_triangle :
    ∃ start < 210, ∃ rise ≤ 210, ∀ i < 210,
      (i < rise → rcAmTri ((start + i) % 210) ≤ rcAmTri ((start + i + 1) % 210)) ∧
      (rise ≤ i → rcAmTri ((start + i + 1) % 210) ≤ rcAmTri ((start + i) % 210)) := by
  refine ⟨0, by omega, 105, by omega, fun i hi => ⟨fun h => ?_, fun h => ?_⟩⟩ <;>
    simp only [rcAmTri] <;> split <;> split <;> omega

theorem rcAmTri_flanks :
    ∃ (start den slope : Nat) (low : Int), 4 * den < 210 * slope ∧ ∀ pos < 210,
      |(den * rcAmTri pos : Int) - (low + slope * triangleWave420 (2 * pos + start))| < den := by
  refine ⟨1, 2, 1, -1, by decide, fun pos hpos => ?_⟩
  rw [abs_lt]
  simp only [rcAmTri, triangleWave420]
  split <;> constructor <;> push_cast <;> omega

theorem rcPm_bound : ∀ st < 8, -128 ≤ asr (rcPmWave st * rcPmd 7) 7 ∧ asr (rcPmWave st * rcPmd 7) 7 ≤ 128 := by decide

theorem rcModShift_antitone (a b : Nat) (h : a ≤ b) : rcModShift b ≤ rcModShift a := by
  simp only [rcModShift]; omega

theorem rcWq_le : ∀ sk < 4, rcWq sk ≤ 512 := by decide

theorem rcPnTap_range : ∀ t < 4, 1 ≤ rcPnTap t ∧ rcPnTap t ≤ 5 := by decide

theorem rcSeed32_ne : ∀ c k, rcSeed32 c k ≠ 0 := by decide

theorem rcSeed6_ne : ∀ c k, rcSeed6 c k ≠ 0 := by decide

theorem rcPan_nonneg (p : Int) (h : p ≤ 127) : 0 ≤ rcPanL p ∧ 0 ≤ rcPanR p := by
  simp only [rcPanL, rcPanR]; constructor <;> split <;> omega

theorem rcPan_mono (p q : Int) (h : p ≤ q) : rcPanL q ≤ rcPanL p ∧ rcPanR p ≤ rcPanR q := by
  simp only [rcPanL, rcPanR]; constructor <;> split <;> split <;> omega

theorem rcSvfPregain_antitone (a b : Nat) (h : a ≤ b) : rcSvfPregain b ≤ rcSvfPregain a := by
  simp only [rcSvfPregain]; omega

theorem rcSvfClip_odd (v : Int) : rcSvfClip (-v) = - rcSvfClip v := by
  simp only [rcSvfClip]; split <;> split <;> (try split) <;> (try split) <;> omega

theorem rcSvfClip_mono (v w : Int) (h : v ≤ w) : rcSvfClip v ≤ rcSvfClip w := by
  simp only [rcSvfClip]; split <;> split <;> (try split) <;> (try split) <;> omega

theorem rcSvfClip_near_zero : ∃ e : Int, 0 < e ∧ ∀ v, -e ≤ v → v ≤ e → rcSvfClip v = v :=
  ⟨24576, by omega, fun v h1 h2 => by simp [rcSvfClip, h1, h2]⟩

theorem rcSvfClip_bounded : ∃ b : Int, ∀ v, -b ≤ rcSvfClip v ∧ rcSvfClip v ≤ b :=
  ⟨32767, fun v => by simp only [rcSvfClip]; constructor <;> split <;> (try split) <;> omega⟩

theorem rcAtk_zero (a : Nat) : rcAtk a 0 = 0 := by simp [rcAtk]

theorem rcAtk_pos (a inc : Nat) (_ : 1 ≤ a) (hi : 1 ≤ inc) : 1 ≤ rcAtk a inc := by
  have : 1 ≤ (a + 1) * inc := Nat.mul_pos (by omega) hi
  simp only [rcAtk]; omega

theorem rcAtk_mono (a b inc : Nat) (h : a ≤ b) : rcAtk a inc ≤ rcAtk b inc :=
  Nat.div_le_div_right (Nat.add_le_add_right (Nat.mul_le_mul_right _ (Nat.succ_le_succ h)) _)

theorem rcAtk_product (attMax : Nat) :
    ∃ sh, ∀ a inc, 1 ≤ a → a ≤ attMax → 1 ≤ inc →
      a * inc / 2 ^ sh ≤ rcAtk a inc + 1 ∧ rcAtk a inc ≤ (a + 1) * inc / 2 ^ sh + 1 := by
  refine ⟨4, fun a inc _ _ _ => ?_⟩
  simp only [rcAtk, Nat.succ_mul]
  generalize a * inc = x
  omega

theorem rcBlend_zero (prev value : Int) (step : Nat) : rcBlend prev value 0 step = prev := by
  simp [rcBlend]

theorem rcBlend_linear (prev value : Int) (d step : Nat) (h : d < step) :
    128 * |step * (rcBlend prev value d step - prev) - (value - prev) * d| ≤ (|value - prev| + 256) * step := by
  have hmod := Int.mul_tdiv_add_tmod ((value - prev) * d) step
  have hlt : |((value - prev) * d).tmod step| < step := by
    rw [Int.abs_eq_natAbs, Int.natAbs_tmod]
    exact_mod_cast Nat.mod_lt ((value - prev) * d).natAbs (show 0 < step by omega)
  have hdiff : step * (rcBlend prev value d step - prev) - (value - prev) * d = -((value - prev) * d).tmod step := by
    simp only [rcBlend]; linarith
  have hpos : 0 ≤ |value - prev| * step := by positivity
  rw [hdiff, abs_neg, add_mul]
  linarith

end Sys2Proof.Machine
end

