-- ==== Sys2Proof/Config.lean ====
section
/-! DEFINITION. The configuration of an instance (00_scope.md R8, 10_state.md R51): the OPEN parameters P1 to P42 of
92_eei_decisions.md section 2 with the constraints the spec puts on them, and the values of this model's instance, which
are uninterpreted: nothing in Lean can evaluate them, so what is proved of the machine holds for every admissible value.
The field defaults are the Reference Configuration and serve `Params.rc` only (log entries 1 to 3, 24). -/

namespace Sys2Proof

/-- The parameters of one instance, each with the constraints of 92_eei_decisions.md section 2 as proof fields, so that
an inadmissible choice cannot be built. Indices are the register fields a rule looks a table up with. -/
structure Params where
  /-- P1 `ATT_MAX`. -/
  attMax : Nat := 1023
  attMax_pos : 0 < attMax := by decide
  /-- P2 `RATE_MAX`, at least the largest base rate. -/
  rateMax : Nat := 63
  rateMax_ge : 62 ≤ rateMax := by decide
  /-- P3 `RATE_INSTANT`. -/
  rateInstant : Nat := 62
  /-- DEDUCED (log entry 3): "rates that resolve to 0 never advance" (42_envelope.md R236), so 0 is not instant. -/
  rateInstant_pos : 0 < rateInstant := by decide
  /-- P4 `WAVE_AMP`. -/
  waveAmp : Nat := 8191
  waveAmp_pos : 0 < waveAmp := by decide
  /-- P5: `PCM_SIZE` is `2 ^ pcmBits`, a power of two, of any size. DESIGN CHOICE (log entry 24): no bound by the 16-bit
  `PADDR` is put on it, so a PCM byte from 65536 on, if there is one, is one that no PCMWRITE reaches. -/
  pcmBits : Nat := 16
  /-- P6 `PCM_THRESH`. -/
  pcmThresh : Nat := 32768
  pcmThresh_pos : 0 < pcmThresh := by decide
  /-- P7 `PCM_MAXSTEP`. -/
  pcmMaxStep : Nat := 2
  pcmMaxStep_pos : 0 < pcmMaxStep := by decide
  /-- P8 `SINE`, entries 0 to 1023. -/
  sine : Nat → Int := Machine.rcSine
  sine_half : ∀ i < 512, sine i = - sine (i + 512) := by exact Machine.rcSine_half
  sine_zero : sine 0 = 0 := by decide
  sine_peak : sine 256 = waveAmp := by decide
  /-- P9 `LIN(a)`, for `a` in 0 to `ATT_MAX`. -/
  lin : Nat → Nat := Machine.rcLin
  lin_zero : lin 0 = 4096 := by decide +kernel
  lin_antitone : ∀ a b, a ≤ b → b ≤ attMax → lin b ≤ lin a := by exact Machine.rcLin_antitone
  lin_attMax : lin attMax = 0 := by decide +kernel
  /-- P10 `MULX2`, entries 0 to 15; entry 0 is fixed by the source. Entry `m` "approximates `2m`" (41_phase.md R201):
  within a factor of 2 of it (log entry 2). -/
  mulX2 : Nat → Nat := Machine.rcMulX2
  mulX2_zero : mulX2 0 = 1 := by decide
  mulX2_pos : ∀ m < 16, 0 < mulX2 m := by exact Machine.rcMulX2_pos
  mulX2_near : ∀ m < 16, 1 ≤ m → m < mulX2 m ∧ mulX2 m < 4 * m := by exact Machine.rcMulX2_near
  /-- P11 `DT_STEP(kc, dt)`. -/
  dtStep : Nat → Nat → Int := Machine.rcDtStep
  dtStep_zero : ∀ kc, dtStep kc 0 = 0 := by exact Machine.rcDtStep_zero
  /-- P12 `KEYCODE(f)`. -/
  keycode : Nat → Nat := Machine.rcKeycode
  /-- P13 `KS(kc, ksr)`. -/
  ks : Nat → Nat → Int := Machine.rcKs
  ks_zero : ∀ kc, ks kc 0 = 0 := by exact Machine.rcKs_zero
  /-- P14 `ENV_INC(rate, ENVCNT)`. -/
  envInc : Nat → Nat → Nat := Machine.rcEnvInc
  envInc_zero : ∀ n, envInc 0 n = 0 := by exact Machine.rcEnvInc_zero
  envInc_mono : ∀ n r r', r ≤ r' → envInc r n ≤ envInc r' n := by exact Machine.rcEnvInc_mono
  /-- P15 `SLATT(sl)`, entries 0 to 15. -/
  slAtt : Nat → Nat := Machine.rcSlAtt
  slAtt_mono : ∀ a ≤ 15, ∀ b ≤ 15, a ≤ b → slAtt a ≤ slAtt b := by exact Machine.rcSlAtt_mono
  slAtt_zero : slAtt 0 = 0 := by decide
  slAtt_le : slAtt 15 ≤ attMax := by decide
  /-- P16 `KSL_ATT(f, ksl)`, of the frequency itself and not of its key code (log entry 23). -/
  kslAtt : Nat → Nat → Nat := Machine.rcKslAtt
  kslAtt_zero : ∀ f, kslAtt f 0 = 0 := by exact Machine.rcKslAtt_zero
  /-- P17 `AM_TRI(pos)`, "a triangle over the 210 positions" (45_lfo.md R341): from some position it rises, then falls
  back, and it is the triangle wave with equal straight flanks, from any position, at any height above 4, up to a rounding
  below one unit (log entry 2). -/
  amTri : Nat → Nat := Machine.rcAmTri
  amTri_triangle : ∃ start < 210, ∃ rise ≤ 210, ∀ i < 210,
    (i < rise → amTri ((start + i) % 210) ≤ amTri ((start + i + 1) % 210)) ∧
    (rise ≤ i → amTri ((start + i + 1) % 210) ≤ amTri ((start + i) % 210)) := by exact Machine.rcAmTri_triangle
  amTri_flanks : ∃ (start den slope : Nat) (low : Int), 4 * den < 210 * slope ∧ ∀ pos < 210,
    |(den * amTri pos : Int) - (low + slope * Machine.triangleWave420 (2 * pos + start))| < den := by
    exact Machine.rcAmTri_flanks
  /-- P18 `AMD`, entries 0 to 7. -/
  amd : Nat → Nat := Machine.rcAmd
  amd_zero : amd 0 = 0 := by decide
  /-- P34 `LFO_AMD_SEL`. -/
  lfoAmdSel : Fin 8 := 7
  /-- P19 `PM_WAVE`, entries 0 to 7. -/
  pmWave : Nat → Int := Machine.rcPmWave
  /-- P20 `PMD`, entries 0 to 7. -/
  pmd : Nat → Int := Machine.rcPmd
  pmd_zero : pmd 0 = 0 := by decide
  /-- P34 `LFO_PMD_SEL`. -/
  lfoPmdSel : Fin 8 := 7
  /-- `|PMVAL| ≤ 128` (45_lfo.md R342). -/
  pm_bound : ∀ st < 8, -128 ≤ Machine.asr (pmWave st * pmd lfoPmdSel) 7 ∧
    Machine.asr (pmWave st * pmd lfoPmdSel) 7 ≤ 128 := by exact Machine.rcPm_bound
  /-- P21 `MODSHIFT(m)`, `m` = 1 to 7. -/
  modShift : Nat → Nat := Machine.rcModShift
  modShift_antitone : ∀ a b, 1 ≤ a → a ≤ b → b ≤ 7 → modShift b ≤ modShift a := by
    exact fun a b _ h _ => Machine.rcModShift_antitone a b h
  /-- P22 `WQ`, entries 0 to 3. -/
  wq : Nat → Nat := Machine.rcWq
  wq_zero : wq 0 = 256 := by decide
  wq_le : ∀ sk < 4, wq sk ≤ 512 := by exact Machine.rcWq_le
  /-- P23 `PN_TAP`, entries 0 to 3. -/
  pnTap : Nat → Nat := Machine.rcPnTap
  pnTap_range : ∀ t < 4, 1 ≤ pnTap t ∧ pnTap t ≤ 5 := by exact Machine.rcPnTap_range
  /-- P24 `SEED32(c, k)`. -/
  seed32 : ChanId → OpId → BitVec 32 := Machine.rcSeed32
  seed32_ne : ∀ c k, seed32 c k ≠ 0 := by exact Machine.rcSeed32_ne
  /-- P25 `SEED6(c, k)`, a 6-bit value. -/
  seed6 : ChanId → OpId → BitVec 6 := Machine.rcSeed6
  seed6_ne : ∀ c k, seed6 c k ≠ 0 := by exact Machine.rcSeed6_ne
  /-- P26 `PANL(p)`, `p` = −128 to 127. -/
  panL : Int → Int := Machine.rcPanL
  /-- P27 `PANR(p)`, `p` = −128 to 127. -/
  panR : Int → Int := Machine.rcPanR
  pan_nonneg : ∀ p, -128 ≤ p → p ≤ 127 → 0 ≤ panL p ∧ 0 ≤ panR p := by
    exact fun p _ h => Machine.rcPan_nonneg p h
  pan_mono : ∀ p q, -128 ≤ p → p ≤ q → q ≤ 127 → panL q ≤ panL p ∧ panR p ≤ panR q := by
    exact fun p q _ h _ => Machine.rcPan_mono p q h
  /-- P28 `SVF_PREGAIN(reson)`, `reson` = 0 to 255. -/
  svfPregain : Nat → Int := Machine.rcSvfPregain
  svfPregain_antitone : ∀ a b, a ≤ b → b ≤ 255 → svfPregain b ≤ svfPregain a := by
    exact fun a b h _ => Machine.rcSvfPregain_antitone a b h
  /-- P29 `SVF_F(cutoff)`, in units of 2^−16. -/
  svfF : Nat → Int := Machine.rcSvfF
  /-- P30 `SVF_Q(reson)`, in units of 2^−8. -/
  svfQ : Nat → Int := Machine.rcSvfQ
  /-- P31 `SVF_CLIP(v)`: odd, non-decreasing, the identity near 0, bounded. -/
  svfClip : Int → Int := Machine.rcSvfClip
  svfClip_odd : ∀ v, svfClip (-v) = - svfClip v := by exact Machine.rcSvfClip_odd
  svfClip_mono : ∀ v w, v ≤ w → svfClip v ≤ svfClip w := by exact Machine.rcSvfClip_mono
  svfClip_near_zero : ∃ e : Int, 0 < e ∧ ∀ v, -e ≤ v → v ≤ e → svfClip v = v := by
    exact Machine.rcSvfClip_near_zero
  svfClip_bounded : ∃ b : Int, ∀ v, -b ≤ svfClip v ∧ svfClip v ≤ b := by exact Machine.rcSvfClip_bounded
  /-- P32 `ATK(att, inc)`: "a right-shifted product of the attenuation and the increment" (42_envelope.md R238),
  rounded by one unit at most (log entry 2). -/
  atk : Nat → Nat → Nat := Machine.rcAtk
  atk_zero : ∀ a, atk a 0 = 0 := by exact Machine.rcAtk_zero
  atk_pos : ∀ a inc, 1 ≤ a → 1 ≤ inc → 1 ≤ atk a inc := by exact Machine.rcAtk_pos
  atk_mono : ∀ a b inc, 1 ≤ a → a ≤ b → b ≤ attMax → atk a inc ≤ atk b inc := by
    exact fun a b inc _ h _ => Machine.rcAtk_mono a b inc h
  atk_product : ∃ sh, ∀ a inc, 1 ≤ a → a ≤ attMax → 1 ≤ inc →
    a * inc / 2 ^ sh ≤ atk a inc + 1 ∧ atk a inc ≤ (a + 1) * inc / 2 ^ sh + 1 := by exact Machine.rcAtk_product _
  /-- P33, the edge blend of `PREVOUT`, the value, the distance `d` past the edge and the step. -/
  blend : Int → Int → Nat → Nat → Int := Machine.rcBlend
  /-- "At `d` = 0 ... `outv` is `PREVOUT`" (44_modulation.md R317). -/
  blend_zero : ∀ (prev value : Int) (step : Nat), 0 < step → blend prev value 0 step = prev := by
    exact fun prev value step _ => Machine.rcBlend_zero prev value step
  /-- "linear in the sub-sample fraction": off the exact linear blend by at most 2 units, for rounding, and 1/128 of the
  difference, for a fixed-point fraction (log entry 2). So "as `d` approaches `step`, `outv` approaches `value`" (R317). -/
  blend_linear : ∀ (prev value : Int) (d step : Nat), d < step →
    128 * |step * (blend prev value d step - prev) - (value - prev) * d| ≤ (|value - prev| + 256) * step := by
    exact Machine.rcBlend_linear
  /-- P35 `PCM_SHIFT`. -/
  pcmShift : Nat := 8
  /-- P36 `PCMW_SHIFT`. -/
  pcmwShift : Nat := 6
  /-- P37 `RING_SHIFT`. -/
  ringShift : Nat := 15
  /-- P38 `PAN_SHIFT`. -/
  panShift : Nat := 7
  /-- P39 `HPF_R`: `HPF_R / 65536` "≈ 0.9987" (47_mixer.md R421), read as: it is 0.9987 to four decimals (log entry
  2). -/
  hpfR : Int := 65451
  hpfR_near : |10000 * hpfR - 9987 * 65536| * 2 ≤ 65536 := by decide
  /-- P40 `FIXED_UNITS`: the step of a fixed-mode frequency `FFIX`, before vibrato (log entry 18). -/
  fixedStep : Nat → Nat := Machine.baseStep
  /-- P41 `RESET_CLEARS_PCM`. -/
  resetClearsPcm : Bool := true
  /-- P42 `RESET_CLEARS_MUTE`. -/
  resetClearsMute : Bool := true
deriving Inhabited

/-- The Reference Configuration (00_scope.md R16): for the spec's test vectors only. -/
def Params.rc : Params := {}

/-- The parameters of the instance this model is about: uninterpreted, any admissible choice (log entry 1). -/
opaque Config.params : Params

/-- What the mixer's signed 64-bit accumulator holds where the sum of these contributions leaves its range: the spec
states no result there, so this is a free value, a function of the operands as R174 of 40_host_commands.md has every
command be (DESIGN CHOICE, log entry 5). -/
opaque Config.sumOverflow : List Int → BitVec 64

/-- What the signed 64-bit `Y1` holds where the DC blocker's output leaves its range, by its input, `X1` and `Y1`: a
free value (DESIGN CHOICE, log entry 6). -/
opaque Config.dcOverflow : Int → BitVec 64 → BitVec 64 → BitVec 64

/-- What the u32 `PCMFRAC` holds after `FREQ` is added to it where the sum leaves its range, by `PCMFRAC` and `FREQ`: a
free value (46_channel.md R362, 10_state.md R43, DESIGN CHOICE, log entry 4). -/
opaque Config.fracOverflow : BitVec 32 → Nat → BitVec 32

end Sys2Proof
end

