-- ==== Sys2Proof/Machine/Instance.lean ====
section
/-! DEFINITION. The parameters of the instance that `exec`, `step` and `State.reset` are about. Every operation takes
its parameters as an argument (00_scope.md R8); the meanings of the commands pass these. -/

namespace Sys2Proof.Machine

/-- The instance's parameters: uninterpreted (Config.lean, log entry 1). -/
def params : Params := Config.params

end Sys2Proof.Machine
end

