-- ==== Sys2Proof/Machine/State.lean ====
section
/-! DEFINITION. The state of one instance (10_state.md): the register bank, PCM memory, the transient state of
operators, channels and the instance, the mute flags, and the command port. Plain data. -/

namespace Sys2Proof.Machine

/-- A byte store, sparse: address and byte pairs, addresses strictly rising, no listed byte 0. An unlisted address
reads 0, the power-on value of both stores (70_reset_and_hazards.md R470). -/
abbrev Memory := List Host.Cell

/-- The envelope states `EGS`, in the order of their numbers 0 to 3 (10_state.md R39, R40). -/
inductive EnvState where
  | attack
  | decay
  | sustain
  | release
deriving DecidableEq, Repr

/-- The transient state of one operator, `S(c,k)` (10_state.md R39). -/
structure OpState where
  /-- `PHASE`, the phase accumulator. -/
  phase : BitVec 32
  /-- `WRAP`, the accumulator wrapped at the most recent evaluation. -/
  wrap : Bool
  /-- `ATT`, the envelope attenuation, 0 to `ATT_MAX`. -/
  att : Nat
  /-- `EGS`, the envelope state. -/
  egs : EnvState
  /-- `KEYPEND`, a key-on is latched and waits for its onset delay. -/
  keyPend : Bool
  /-- `DLY`, samples of onset delay still to wait. -/
  dly : BitVec 16
  /-- `LFSR32`, the free-running noise register. -/
  lfsr32 : BitVec 32
  /-- `LFSR6`, the periodic-noise register. -/
  lfsr6 : BitVec 6
  /-- `VAL`, the value at the most recent evaluation. -/
  val : Int
  /-- `PREVOUT`, the edge-interpolation reference. -/
  prevOut : Int
deriving DecidableEq, Repr

/-- The transient state of one channel, `T(c)` (10_state.md R43), with its four operators and operator 0's history
`FB1`, `FB2` (R39, log entry 13). -/
structure ChanState where
  /-- `S(c,0)` to `S(c,3)`. -/
  ops : Vector OpState 4
  /-- `FB1`, operator 0's last value. -/
  fb1 : Int
  /-- `FB2`, operator 0's second-to-last value. -/
  fb2 : Int
  /-- `FLOW`, the filter's low accumulator. -/
  flow : Int
  /-- `FBAND`, the filter's band accumulator. -/
  fband : Int
  /-- `FHIGH`, the filter's high accumulator. -/
  fhigh : Int
  /-- `SWT[FREQ]`. -/
  swtFreq : BitVec 16
  /-- `SWT[VOL]`. -/
  swtVol : BitVec 16
  /-- `SWT[CUT]`. -/
  swtCut : BitVec 16
  /-- `RSTCNT`, the periodic phase-reset countdown. -/
  rstCnt : BitVec 16
  /-- `PCMFRAC`, the PCM fractional position. -/
  pcmFrac : BitVec 32
  /-- `PREVRAW`, the raw sample of the previous ADVANCE. -/
  prevRaw : Int
deriving DecidableEq, Repr

/-- The global transient state `G` (10_state.md R45). -/
structure Globals where
  /-- `AMCNT`, 0 to 13439. -/
  amCnt : Nat
  /-- `PMCNT`, 0 to 8191. -/
  pmCnt : Nat
  /-- `AMVAL`, in attenuation units. -/
  amVal : Nat
  /-- `PMVAL`, in units of 2^−7. -/
  pmVal : Int
  /-- `ENVCNT`. -/
  envCnt : BitVec 32
  /-- `HX1L`, signed 64-bit. -/
  hx1l : BitVec 64
  /-- `HY1L`, signed 64-bit. -/
  hy1l : BitVec 64
  /-- `HX1R`, signed 64-bit. -/
  hx1r : BitVec 64
  /-- `HY1R`, signed 64-bit. -/
  hy1r : BitVec 64
deriving DecidableEq, Repr

/-- What the response channel returned for the last command (30_encoding.md R120, R136). -/
inductive Response where
  /-- The command returns nothing, or the word was refused. -/
  | nothing
  /-- READ's byte. -/
  | byte (b : Byte)
  /-- ADVANCE's pair, each a signed 32-bit two's-complement integer. -/
  | stereo (left right : BitVec 32)
deriving DecidableEq, Repr

/-- The state of one instance and of its command port. -/
structure State where
  /-- `RB`, the register bank, addresses 0 to 575 (10_state.md R30). -/
  rb : Memory
  /-- `PCM`, PCM memory, addresses 0 to `PCM_SIZE` − 1 (R46). -/
  pcm : Memory
  /-- The channels' transient state. -/
  chans : Vector ChanState 9
  /-- `MUTE[c]` (R44). -/
  mute : Vector Bool 9
  /-- The global transient state. -/
  glob : Globals
  /-- The model's own: command words the host has presented and the block has not performed, first one first (20_memory.md
  R102, log entry 7). -/
  stream : List Command
  /-- The model's own: the response to the last command (log entry 9). -/
  response : Response
  /-- The model's own: the refusal mark of 60_exceptions.md R441 (log entry 8). -/
  refusalMark : Bool
deriving DecidableEq, Repr

/-- No command faults: "There is no fallible operation in this core" (60_exceptions.md R440). No constructor. -/
inductive Fault where
deriving DecidableEq, Repr

/-- Why a step may have no meaning. A word that spells no command is none of these: it sets the refusal mark and the
run goes on (60_exceptions.md R441, log entry 8). -/
inductive Refusal where
  /-- Raised by an arm of `exec` for a command that has no meaning yet. Safe. No arm raises it. -/
  | notModelled (mnemonic : String)
deriving DecidableEq, Repr

/-- An operator after RESET (70_reset_and_hazards.md R471). -/
def OpState.afterReset (P : Params) (c : ChanId) (k : OpId) : OpState :=
  { phase := 0, wrap := false, att := P.attMax, egs := .release, keyPend := false, dly := 0,
    lfsr32 := P.seed32 c k, lfsr6 := P.seed6 c k, val := 0, prevOut := 0 }

/-- An operator at power-on: every value 0 in its own type (R470). -/
def OpState.atPowerOn : OpState :=
  { phase := 0, wrap := false, att := 0, egs := .attack, keyPend := false, dly := 0,
    lfsr32 := 0, lfsr6 := 0, val := 0, prevOut := 0 }

/-- A channel with these operators and every other value 0 (R470, R471). -/
def ChanState.zeroWith (ops : Vector OpState 4) : ChanState :=
  { ops := ops, fb1 := 0, fb2 := 0, flow := 0, fband := 0, fhigh := 0, swtFreq := 0, swtVol := 0, swtCut := 0,
    rstCnt := 0, pcmFrac := 0, prevRaw := 0 }

/-- A channel after RESET (R471). -/
def ChanState.afterReset (P : Params) (c : ChanId) : ChanState :=
  .zeroWith #v[.afterReset P c 0, .afterReset P c 1, .afterReset P c 2, .afterReset P c 3]

/-- A channel at power-on (R470). -/
def ChanState.atPowerOn : ChanState :=
  .zeroWith #v[.atPowerOn, .atPowerOn, .atPowerOn, .atPowerOn]

/-- The nine channels after RESET (R471). -/
def chansAfterReset (P : Params) : Vector ChanState 9 :=
  #v[.afterReset P 0, .afterReset P 1, .afterReset P 2, .afterReset P 3, .afterReset P 4, .afterReset P 5,
     .afterReset P 6, .afterReset P 7, .afterReset P 8]

/-- The nine channels at power-on (R470). -/
def chansAtPowerOn : Vector ChanState 9 :=
  #v[.atPowerOn, .atPowerOn, .atPowerOn, .atPowerOn, .atPowerOn, .atPowerOn, .atPowerOn, .atPowerOn, .atPowerOn]

/-- No channel muted. -/
def noMute : Vector Bool 9 := #v[false, false, false, false, false, false, false, false, false]

/-- The global state after RESET and at power-on: every value 0 (R470, R471). -/
def Globals.zero : Globals :=
  { amCnt := 0, pmCnt := 0, amVal := 0, pmVal := 0, envCnt := 0, hx1l := 0, hy1l := 0, hx1r := 0, hy1r := 0 }

/-- The state at construction, before any RESET: everything 0 (70_reset_and_hazards.md R470), and an idle port. -/
def State.powerOn : State :=
  { rb := [], pcm := [], chans := chansAtPowerOn, mute := noMute, glob := .zero,
    stream := [], response := .nothing, refusalMark := false }

/-- The state after reset with parameters `P`: power-on, then one RESET (70_reset_and_hazards.md R471, R472, R475; log
entry 11), and an idle port. -/
def State.resetWith (P : Params) : State :=
  { rb := [], pcm := [], chans := chansAfterReset P, mute := noMute, glob := .zero,
    stream := [], response := .nothing, refusalMark := false }

/-- The machine right after reset. -/
def State.reset : State := State.resetWith params

end Sys2Proof.Machine
end

