-- ==== Sys2Proof/Machine/Ops.lean ====
section
/-! DEFINITION. The named operations over the two byte stores, the transient state and the command port. The block has
no exception, trap or return from one (60_exceptions.md R440, R445, R446); the one outcome of a word other than a
completed command is its refusal, `State.refuseWord` (R441). -/

namespace Sys2Proof.Machine

/-! ## Byte stores (20_memory.md R90, 00_scope.md R13) -/

/-- The byte at an address; 0 where nothing is listed. -/
def Memory.read : Memory → Nat → Byte
  | [], _ => 0#8
  | (x, b) :: m, a => if a = x then b else Memory.read m a

/-- Store a byte, keeping the canonical form: storing 0 removes the entry. -/
def Memory.write : Memory → Nat → Byte → Memory
  | [], a, b => if b = 0#8 then [] else [(a, b)]
  | (x, v) :: m, a, b =>
    if a < x then (if b = 0#8 then (x, v) :: m else (a, b) :: (x, v) :: m)
    else if a = x then (if b = 0#8 then m else (a, b) :: m)
    else (x, v) :: Memory.write m a b

/-- The canonical form: addresses strictly rising, no listed byte 0. -/
def Memory.wf : Memory → Bool
  | [] => true
  | [(_, b)] => b != 0#8
  | (x, b) :: (y, c) :: m => decide (x < y) && b != 0#8 && Memory.wf ((y, c) :: m)

/-- Every listed address is below `n`. -/
def Memory.below (n : Nat) (m : Memory) : Bool := m.all fun e => decide (e.1 < n)

/-- `RB[a]` as an unsigned number (00_scope.md R13). -/
def rbNat (rb : Memory) (a : Nat) : Nat := (Memory.read rb a).toNat

/-- A 16-bit register field at byte `a`: little-endian (20_memory.md R93, 30_encoding.md R130). -/
def rbNat16 (rb : Memory) (a : Nat) : Nat := rbNat rb a + 256 * rbNat rb (a + 1)

/-- Store a 16-bit register field at byte `a`, both bytes (20_memory.md R93). -/
def rbWrite16 (rb : Memory) (a v : Nat) : Memory :=
  Memory.write (Memory.write rb a (BitVec.ofNat 8 (v % 256))) (a + 1) (BitVec.ofNat 8 (v / 256))

/-- `PCM_SIZE` (10_state.md R46). -/
def pcmSize (P : Params) : Nat := 2 ^ P.pcmBits

/-- `MemRead(i, 1)` read with `s8` (00_scope.md R13, 20_memory.md R92, 30_encoding.md R131). -/
def pcmSample (P : Params) (pcm : Memory) (i : Nat) : Int := s8 (Memory.read pcm (i % pcmSize P)).toNat

/-- `MemWrite(i, 1, v)` (00_scope.md R13, 20_memory.md R92). -/
def pcmStore (P : Params) (pcm : Memory) (i : Nat) (v : Byte) : Memory := Memory.write pcm (i % pcmSize P) v

/-! ## Register addresses (30_encoding.md R125, 10_state.md R31) -/

/-- The channel of a register address: `(ADDR div 64) mod NCH` (R125). -/
def addrChan (addr : Nat) : ChanId := ⟨addr / 64 % 9, Nat.mod_lt _ (by decide)⟩

/-- The offset of a register address within its channel (R125). -/
def addrOffset (addr : Nat) : Nat := addr % 64

/-- The register-bank byte of a register address, in every case below 576 (R125, R126). -/
def byteIndex (addr : Nat) : Nat := (addrChan addr).val * 64 + addrOffset addr

/-- Byte `r` of operator `k` of channel `c` (10_state.md R31). -/
def opByteIndex (c : ChanId) (k : OpId) (r : Nat) : Nat := c.val * 64 + k.val * 8 + r

/-- Channel register byte `j` of channel `c` (10_state.md R31). -/
def chByteIndex (c : ChanId) (j : Nat) : Nat := c.val * 64 + 32 + j

/-! ## Transient state -/

/-- Channel `c`'s transient state. -/
def State.chan (s : State) (c : ChanId) : ChanState := s.chans[c]

/-- Replace channel `c`'s transient state. -/
def State.setChan (s : State) (c : ChanId) (ch : ChanState) : State := { s with chans := s.chans.set c ch }

/-- Operator `k` of a channel. -/
def ChanState.op (ch : ChanState) (k : OpId) : OpState := ch.ops[k]

/-- Replace operator `k` of a channel. -/
def ChanState.setOp (ch : ChanState) (k : OpId) (o : OpState) : ChanState := { ch with ops := ch.ops.set k o }

/-- Replace every operator of a channel by a function of its number and state. -/
def ChanState.mapOps (f : OpId → OpState → OpState) (ch : ChanState) : ChanState :=
  { ch with ops := #v[f 0 (ch.op 0), f 1 (ch.op 1), f 2 (ch.op 2), f 3 (ch.op 3)] }

/-- Zero the filter state `FLOW`, `FBAND`, `FHIGH` (46_channel.md R372, R383). -/
def ChanState.clearFilter (ch : ChanState) : ChanState := { ch with flow := 0, fband := 0, fhigh := 0 }

/-- Replace the register bank. -/
def State.setRb (s : State) (rb : Memory) : State := { s with rb := rb }

/-- The channels in the order ADVANCE runs them (40_host_commands.md R170). -/
def channels : List ChanId := [0, 1, 2, 3, 4, 5, 6, 7, 8]

/-- The operators in the order `voice` runs them (44_modulation.md R310). -/
def operators : List OpId := [0, 1, 2, 3]

/-! ## Reset (70_reset_and_hazards.md R471) -/

/-- `reset_state()`. The command port is no part of the block and is left alone (log entry 12). -/
def State.resetBlock (P : Params) (s : State) : State :=
  { s with
    rb := []
    pcm := if P.resetClearsPcm then [] else s.pcm
    chans := chansAfterReset P
    mute := if P.resetClearsMute then noMute else s.mute
    glob := .zero }

/-! ## The command port (30_encoding.md R120, 60_exceptions.md R441) -/

/-- A command is complete: its word is performed, its response is on the response channel, and the block accepts the
next word (R120). -/
def State.complete (s : State) (r : Response) : State := { s with stream := s.stream.tail, response := r }

/-- A word that spells no command: no state of the block changes, nothing is returned, the refusal mark is set (R124,
R441). -/
def State.refuseWord (s : State) : State :=
  { s with stream := s.stream.tail, response := .nothing, refusalMark := true }

end Sys2Proof.Machine
end

