-- ==== Sys2Proof/Machine/Operands.lean ====
section
/-! DEFINITION. The operands of the core: the register fields of 10_state.md R33, R34 and R37, each extracted from its
stored byte when used (30_encoding.md R129 to R131). Flag bytes are in Flags.lean. -/

namespace Sys2Proof.Machine

/-! ## Operator fields (10_state.md R33) -/

/-- Byte `r` of operator `k` of channel `c`. -/
def opByte (rb : Memory) (c : ChanId) (k : OpId) (r : Nat) : Nat := rbNat rb (opByteIndex c k r)

/-- `MUL`. -/
def fMul (rb : Memory) (c : ChanId) (k : OpId) : Nat := bits (opByte rb c k 0) 3 0

/-- `KSR`. -/
def fKsr (rb : Memory) (c : ChanId) (k : OpId) : Nat := bits (opByte rb c k 0) 5 4

/-- `PM`. -/
def fPm (rb : Memory) (c : ChanId) (k : OpId) : Bool := bit (opByte rb c k 0) 6

/-- `AM`. -/
def fAm (rb : Memory) (c : ChanId) (k : OpId) : Bool := bit (opByte rb c k 0) 7

/-- `TL`. -/
def fTl (rb : Memory) (c : ChanId) (k : OpId) : Nat := bits (opByte rb c k 1) 6 0

/-- `TLX`, stored and without effect (43_waveform.md R286): no rule reads it. -/
def fTlx (rb : Memory) (c : ChanId) (k : OpId) : Bool := bit (opByte rb c k 1) 7

/-- `AR`. -/
def fAr (rb : Memory) (c : ChanId) (k : OpId) : Nat := bits (opByte rb c k 2) 4 0

/-- `KSL`. -/
def fKsl (rb : Memory) (c : ChanId) (k : OpId) : Nat := bits (opByte rb c k 2) 6 5

/-- `LFOD`. -/
def fLfod (rb : Memory) (c : ChanId) (k : OpId) : Bool := bit (opByte rb c k 2) 7

/-- `DR`. -/
def fDr (rb : Memory) (c : ChanId) (k : OpId) : Nat := bits (opByte rb c k 3) 4 0

/-- `DT`. -/
def fDt (rb : Memory) (c : ChanId) (k : OpId) : Nat := bits (opByte rb c k 3) 7 5

/-- `SR`. -/
def fSr (rb : Memory) (c : ChanId) (k : OpId) : Nat := bits (opByte rb c k 4) 4 0

/-- `DELAY`. -/
def fDelay (rb : Memory) (c : ChanId) (k : OpId) : Nat := bits (opByte rb c k 4) 7 5

/-- `RR`. -/
def fRr (rb : Memory) (c : ChanId) (k : OpId) : Nat := bits (opByte rb c k 5) 3 0

/-- `SL`. -/
def fSl (rb : Memory) (c : ChanId) (k : OpId) : Nat := bits (opByte rb c k 5) 7 4

/-- `WAVE`. -/
def fWave (rb : Memory) (c : ChanId) (k : OpId) : Nat := bits (opByte rb c k 6) 2 0

/-- `FIX`. -/
def fFix (rb : Memory) (c : ChanId) (k : OpId) : Bool := bit (opByte rb c k 6) 3

/-- `WPAR`. -/
def fWpar (rb : Memory) (c : ChanId) (k : OpId) : Nat := bits (opByte rb c k 6) 7 4

/-- `OUT`. -/
def fOut (rb : Memory) (c : ChanId) (k : OpId) : Nat := bits (opByte rb c k 7) 2 0

/-- `MOD`. -/
def fMod (rb : Memory) (c : ChanId) (k : OpId) : Nat := bits (opByte rb c k 7) 5 3

/-- `RING`. -/
def fRing (rb : Memory) (c : ChanId) (k : OpId) : Bool := bit (opByte rb c k 7) 6

/-- `SYNC`. -/
def fSync (rb : Memory) (c : ChanId) (k : OpId) : Bool := bit (opByte rb c k 7) 7

/-! ## Channel fields (10_state.md R34) -/

/-- Channel register byte `j` of channel `c`. -/
def chByte (rb : Memory) (c : ChanId) (j : Nat) : Nat := rbNat rb (chByteIndex c j)

/-- The 16-bit field at channel register offset `j` (30_encoding.md R130). -/
def chWord (rb : Memory) (c : ChanId) (j : Nat) : Nat := rbNat16 rb (chByteIndex c j)

/-- `FREQ`. -/
def fFreq (rb : Memory) (c : ChanId) : Nat := chWord rb c 0x00

/-- `VOL`, signed. -/
def fVol (rb : Memory) (c : ChanId) : Int := s8 (chByte rb c 0x02)

/-- `PAN`, signed. -/
def fPan (rb : Memory) (c : ChanId) : Int := s8 (chByte rb c 0x03)

/-- `CUTOFF`. -/
def fCutoff (rb : Memory) (c : ChanId) : Nat := chWord rb c 0x06

/-- `DUTY`. -/
def fDuty (rb : Memory) (c : ChanId) : Nat := chByte rb c 0x08

/-- `RESON`. -/
def fReson (rb : Memory) (c : ChanId) : Nat := chByte rb c 0x09

/-- `PCMPOS`. -/
def fPcmPos (rb : Memory) (c : ChanId) : Nat := chWord rb c 0x0A

/-- `PCMBND`. -/
def fPcmBnd (rb : Memory) (c : ChanId) : Nat := chWord rb c 0x0C

/-- `PCMRST`. -/
def fPcmRst (rb : Memory) (c : ChanId) : Nat := chWord rb c 0x0E

/-- `RESTIMER`. -/
def fResTimer (rb : Memory) (c : ChanId) : Nat := chWord rb c 0x1C

/-! ## Sweep descriptors (10_state.md R37) -/

/-- The three sweep engines (46_channel.md R373). -/
inductive Sweep where
  | freq
  | vol
  | cut
deriving DecidableEq, Repr

/-- The descriptor's base offset: `SWFREQ`, `SWVOL`, `SWCUT` (R34). -/
def sweepBase : Sweep → Nat
  | .freq => 0x10
  | .vol => 0x14
  | .cut => 0x18

/-- `SPEED`. -/
def fSpeed (rb : Memory) (c : ChanId) (e : Sweep) : Nat := chWord rb c (sweepBase e)

/-- `AMT`, the whole byte. -/
def fAmt (rb : Memory) (c : ChanId) (e : Sweep) : Nat := chByte rb c (sweepBase e + 2)

/-- `MAG` (46_channel.md R375). -/
def fMag (rb : Memory) (c : ChanId) (e : Sweep) : Nat := bits (fAmt rb c e) 4 0

/-- `UP`. -/
def fUp (rb : Memory) (c : ChanId) (e : Sweep) : Bool := bit (fAmt rb c e) 5

/-- `WRAPF`. -/
def fWrapF (rb : Memory) (c : ChanId) (e : Sweep) : Bool := bit (fAmt rb c e) 6

/-- `BOUNCE`. -/
def fBounce (rb : Memory) (c : ChanId) (e : Sweep) : Bool := bit (fAmt rb c e) 7

/-- `BOUND`. -/
def fBound (rb : Memory) (c : ChanId) (e : Sweep) : Nat := chByte rb c (sweepBase e + 3)

end Sys2Proof.Machine
end

