-- ==== Sys2Proof/Machine/Flags.lean ====
section
/-! DEFINITION. The two flag bytes of a channel (10_state.md R35, R36). The block has no condition codes and no status
register (R49); these configuration bits and the transient bits `WRAP`, `KEYPEND` of State are all its flags. -/

namespace Sys2Proof.Machine

/-- The channel register offset of `FLAGS0` (10_state.md R34). -/
def flags0Offset : Nat := 0x04

/-- The channel register offset of `FLAGS1` (10_state.md R34). -/
def flags1Offset : Nat := 0x05

/-- `FLAGS0`, the whole byte. -/
def fFlags0 (rb : Memory) (c : ChanId) : Nat := chByte rb c flags0Offset

/-- `FLAGS1`, the whole byte. -/
def fFlags1 (rb : Memory) (c : ChanId) : Nat := chByte rb c flags1Offset

/-- `GATE`. -/
def fGate (rb : Memory) (c : ChanId) : Bool := bit (fFlags0 rb c) 0

/-- `PCM`. -/
def fPcm (rb : Memory) (c : ChanId) : Bool := bit (fFlags0 rb c) 1

/-- `CRING`. -/
def fCring (rb : Memory) (c : ChanId) : Bool := bit (fFlags0 rb c) 2

/-- `FLP`. -/
def fFlp (rb : Memory) (c : ChanId) : Bool := bit (fFlags0 rb c) 3

/-- `FHP`. -/
def fFhp (rb : Memory) (c : ChanId) : Bool := bit (fFlags0 rb c) 4

/-- `FBP`. -/
def fFbp (rb : Memory) (c : ChanId) : Bool := bit (fFlags0 rb c) 5

/-- `PHRESET`. -/
def fPhReset (rb : Memory) (c : ChanId) : Bool := bit (fFlags1 rb c) 0

/-- `FLTRESET`. -/
def fFltReset (rb : Memory) (c : ChanId) : Bool := bit (fFlags1 rb c) 1

/-- `PCMLOOP`. -/
def fPcmLoop (rb : Memory) (c : ChanId) : Bool := bit (fFlags1 rb c) 2

/-- `TIMERSYNC`. -/
def fTimerSync (rb : Memory) (c : ChanId) : Bool := bit (fFlags1 rb c) 3

/-- The enable bit of a sweep engine: `SWFREQ_EN`, `SWVOL_EN`, `SWCUT_EN` (46_channel.md R373). -/
def fSweepEn (rb : Memory) (c : ChanId) : Sweep → Bool
  | .freq => bit (fFlags1 rb c) 4
  | .vol => bit (fFlags1 rb c) 5
  | .cut => bit (fFlags1 rb c) 6

/-- A byte with bit `i` cleared and every other bit kept (46_channel.md R381). -/
def clearBit (v i : Nat) : Nat := if bit v i then v - 2 ^ i else v

/-- A byte with bit `i` inverted and every other bit kept (46_channel.md R379, R380). -/
def flipBit (v i : Nat) : Nat := if bit v i then v - 2 ^ i else v + 2 ^ i

end Sys2Proof.Machine
end

