-- ==== Sys2Proof/Machine/Lfo.lean ====
section
/-! DEFINITION. The global LFO (45_lfo.md). -/

namespace Sys2Proof.Machine

/-- `am_step` (45_lfo.md R341). -/
def amStep (P : Params) (g : Globals) : Globals :=
  let cnt := (g.amCnt + 1) % 13440
  { g with amCnt := cnt, amVal := P.amTri (cnt / 2 ^ 6) * P.amd P.lfoAmdSel / 2 ^ 3 }

/-- `pm_step` (45_lfo.md R342). -/
def pmStep (P : Params) (g : Globals) : Globals :=
  let cnt := (g.pmCnt + 1) % 8192
  { g with pmCnt := cnt, pmVal := asr (P.pmWave (cnt / 2 ^ 10) * P.pmd P.lfoPmdSel) 7 }

/-- `lfo_step` (45_lfo.md R340). -/
def lfoStep (P : Params) (g : Globals) : Globals := pmStep P (amStep P g)

/-- `am(c, k)`, the amplitude-LFO term of the attenuation sum (45_lfo.md R343). -/
def amTerm (rb : Memory) (g : Globals) (c : ChanId) (k : OpId) : Nat :=
  if fAm rb c k then (if fLfod rb c k then g.amVal else g.amVal / 2) else 0

/-- `pmv(c, k)`, the vibrato factor (45_lfo.md R343). -/
def pmFactor (rb : Memory) (g : Globals) (c : ChanId) (k : OpId) : Int :=
  if fLfod rb c k then g.pmVal else asr g.pmVal 1

end Sys2Proof.Machine
end

