-- ==== Sys2Proof/Machine/Phase.lean ====
section
/-! DEFINITION. The phase generator (41_phase.md). `baseStep` is in Arith.lean. -/

namespace Sys2Proof.Machine

/-- `FIXMUL[m] = round(m × 247 / 15)` (41_phase.md R204). -/
def fixMul (m : Nat) : Nat := (2 * (m * 247) + 15) / 30

/-- `FFIX(m, dt)` (41_phase.md R204). -/
def fixedFreq (m dt : Nat) : Nat := (8 + fixMul m) * 2 ^ dt

/-- `VIB(c, k, s)` (41_phase.md R206). -/
def vibrato (rb : Memory) (g : Globals) (c : ChanId) (k : OpId) (s : Int) : Int :=
  if fPm rb c k then asr (s * pmFactor rb g c k) 17 else 0

/-- The ratio-mode step before `wrap32` (41_phase.md R203). -/
def ratioStep (P : Params) (rb : Memory) (g : Globals) (c : ChanId) (k : OpId) : Int :=
  let f := fFreq rb c
  let s1 := max 0 ((baseStep f : Int) + P.dtStep (P.keycode f) (fDt rb c k))
  let s2 := s1 + vibrato rb g c k s1
  asr (s2 * P.mulX2 (fMul rb c k)) 1

/-- The fixed-mode step before `wrap32` (41_phase.md R205). -/
def fixedModeStep (P : Params) (rb : Memory) (g : Globals) (c : ChanId) (k : OpId) : Int :=
  let s0 : Int := P.fixedStep (fixedFreq (fMul rb c k) (fDt rb c k))
  s0 + vibrato rb g c k s0

/-- `phase_step(c, k)` (41_phase.md R210). -/
def phaseStep (P : Params) (rb : Memory) (g : Globals) (c : ChanId) (k : OpId) : BitVec 32 :=
  BitVec.ofNat 32
    (wrapTo 32 (if fFix rb c k then fixedModeStep P rb g c k else ratioStep P rb g c k))

/-- What step A of an evaluation did: the operator after it, and the accumulator's old value and step (44_modulation.md
R310 A). A synced evaluation has step 0. -/
structure PhaseMove where
  op : OpState
  old : BitVec 32
  step : BitVec 32
deriving DecidableEq, Repr

/-- The accumulator update of `phase_advance(c, k)` by a step, `WRAP` being the carry out of bit 31 (41_phase.md
R207). -/
def advancePhase (o : OpState) (step : BitVec 32) : OpState :=
  { o with phase := o.phase + step, wrap := decide (2 ^ 32 ≤ o.phase.toNat + step.toNat) }

end Sys2Proof.Machine
end

