-- ==== Sys2Proof/Machine/Envelope.lean ====
section
/-! DEFINITION. The envelope generator (42_envelope.md): the gate edges of a WRITE and the evaluation of an ADVANCE. -/

namespace Sys2Proof.Machine

/-! ## Gate edges (42_envelope.md R231 to R233) -/

/-- `key_on(c, k)` (42_envelope.md R232). -/
def keyOn (rb : Memory) (c : ChanId) (k : OpId) (o : OpState) : OpState :=
  let d := fDelay rb c k
  { o with keyPend := true, dly := if 0 < d then BitVec.ofNat 16 (256 * 2 ^ d) else 0 }

/-- `key_off(c, k)` (42_envelope.md R233). -/
def keyOff (o : OpState) : OpState := { o with keyPend := false, dly := 0, egs := .release }

/-- `gate_edge(c, g_old, g_new)`, `DELAY` read from the register bank as it stands at the WRITE (42_envelope.md
R231). -/
def gateEdge (rb : Memory) (c : ChanId) (old new : Bool) (ch : ChanState) : ChanState :=
  if !old && new then ch.mapOps (keyOn rb c)
  else if old && !new then ch.mapOps fun _ => keyOff
  else ch

/-! ## The evaluation (42_envelope.md R242) -/

/-- Step 1, the pending key-on (42_envelope.md R234). -/
def envPending (o : OpState) : OpState :=
  if o.keyPend then
    if o.dly = 0 then { o with egs := .attack, keyPend := false } else { o with dly := o.dly - 1 }
  else o

/-- The base rate of an envelope state (42_envelope.md R235). -/
def baseRate (rb : Memory) (c : ChanId) (k : OpId) : EnvState → Nat
  | .attack => 2 * fAr rb c k
  | .decay => 2 * fDr rb c k
  | .sustain => 2 * fSr rb c k
  | .release => if fRr rb c k = 0 then 0 else 4 * fRr rb c k + 2

/-- Step 2, the rate with key scaling (42_envelope.md R236). -/
def envRate (P : Params) (rb : Memory) (c : ChanId) (k : OpId) (e : EnvState) : Nat :=
  let base := baseRate rb c k e
  if base = 0 then 0
  else (clamp ((base : Int) + P.ks (P.keycode (fFreq rb c)) (fKsr rb c k)) 0 P.rateMax).toNat

/-- Step 3, the update of `ATT` (42_envelope.md R238, R239). -/
def envUpdate (P : Params) (rate n : Nat) (o : OpState) : OpState :=
  if o.egs = .attack then
    if P.rateInstant ≤ rate then { o with att := 0 }
    else { o with att := o.att - P.atk o.att (P.envInc rate n) }
  else { o with att := min P.attMax (o.att + P.envInc rate n) }

/-- Step 4, the transitions in their order (42_envelope.md R240). -/
def envTransitions (P : Params) (sl : Nat) (o : OpState) : OpState :=
  let o := if o.egs = .attack ∧ o.att = 0 then { o with egs := .decay } else o
  if o.egs = .decay ∧ P.slAtt sl ≤ o.att then { o with egs := .sustain } else o

/-- `env_eval(c, k)` (42_envelope.md R242). -/
def envEval (P : Params) (rb : Memory) (g : Globals) (c : ChanId) (k : OpId) (o : OpState) : OpState :=
  let o := envPending o
  let o := envUpdate P (envRate P rb c k o.egs) g.envCnt.toNat o
  envTransitions P (fSl rb c k) o

end Sys2Proof.Machine
end

