-- ==== Sys2Proof/Machine/Waveform.lean ====
section
/-! DEFINITION. The waveform generator and amplitude scaling (43_waveform.md). -/

namespace Sys2Proof.Machine

/-- The lookup index `p10` (43_waveform.md R270). -/
def lookupIndex (phase : BitVec 32) (pmin : Int) : Nat := wrapTo 10 ((phase.toNat / 2 ^ 22 : Nat) + pmin)

/-! ## Waveforms (43_waveform.md R271 to R281) -/

/-- `h(x, Q)` (43_waveform.md R272). -/
def warpHalf (x q : Nat) : Nat :=
  if x < q then x * 256 / q else 256 + (x - q) * 256 / (512 - q)

/-- `WARP(p, sk)` (43_waveform.md R272). -/
def warp (P : Params) (p sk : Nat) : Nat :=
  if p < 512 then warpHalf p (P.wq sk) else 512 + warpHalf (p - 512) (P.wq sk)

/-- The rectifiers `HALF` = `WPAR[2]` and `ABS` = `WPAR[3]`, `HALF` first (43_waveform.md R271, R273). -/
def rectify (wpar : Nat) (v : Int) : Int :=
  if bit wpar 2 then max v 0 else if bit wpar 3 then |v| else v

/-- Sine (43_waveform.md R273). -/
def sineWave (P : Params) (wpar p10 : Nat) : Int := rectify wpar (P.sine (warp P p10 (bits wpar 1 0)))

/-- Triangle (43_waveform.md R274). -/
def triangleWave (P : Params) (wpar p10 : Nat) : Int :=
  let w := warp P p10 (bits wpar 1 0)
  let v : Int :=
    if w < 256 then Int.tdiv ((w : Int) * P.waveAmp) 256
    else if w < 768 then Int.tdiv ((512 - (w : Int)) * P.waveAmp) 256
    else Int.tdiv (((w : Int) - 1024) * P.waveAmp) 256
  rectify wpar v

/-- `QB`, the number of index bits a quantization zeroes (43_waveform.md R275). -/
def quantBits (quant : Nat) : Nat := [0, 4, 6, 8].getD quant 0

/-- Sawtooth (43_waveform.md R275). -/
def sawWave (P : Params) (wpar p10 : Nat) : Int :=
  let pq := p10 - p10 % 2 ^ quantBits (bits wpar 1 0)
  let v := Int.tdiv (((pq : Int) - 512) * P.waveAmp) 512
  if bit wpar 2 then -v else v

/-- The pulse threshold `T` (43_waveform.md R276). -/
def pulseThreshold (wpar duty : Nat) : Nat := if bit wpar 3 then bits wpar 2 0 * 128 else duty * 4

/-- Pulse (43_waveform.md R276). -/
def pulseWave (P : Params) (wpar duty p10 : Nat) : Int :=
  if p10 < pulseThreshold wpar duty then (P.waveAmp : Int) else -(P.waveAmp : Int)

/-- A noise register's output: its bit 0 (43_waveform.md R277, R278). -/
def noiseWave (P : Params) (b0 : Bool) : Int := if b0 then (P.waveAmp : Int) else -(P.waveAmp : Int)

/-- Sample-as-waveform (43_waveform.md R281). -/
def pcmWave (P : Params) (pcm : Memory) (base p10 : Nat) : Int := shl (pcmSample P pcm (base + p10)) P.pcmwShift

/-- `raw_wave(c, k, p10)`, the noise registers as they stand after step A (43_waveform.md R283). -/
def rawWave (P : Params) (rb pcm : Memory) (c : ChanId) (k : OpId) (o : OpState) (p10 : Nat) : Int :=
  match fWave rb c k with
  | 0 => sineWave P (fWpar rb c k) p10
  | 1 => triangleWave P (fWpar rb c k) p10
  | 2 => sawWave P (fWpar rb c k) p10
  | 3 => pulseWave P (fWpar rb c k) (fDuty rb c) p10
  | 4 => noiseWave P (o.lfsr32.getLsbD 0)
  | 5 => noiseWave P (o.lfsr6.getLsbD 0)
  | 6 => 0
  | _ => pcmWave P pcm (fPcmRst rb c) p10

/-! ## Noise registers (43_waveform.md R277, R278, R282) -/

/-- `clock32(s)` (43_waveform.md R277). -/
def clock32 (s : BitVec 32) : BitVec 32 :=
  let fb := ((s.getLsbD 0 ^^ s.getLsbD 2) ^^ s.getLsbD 3) ^^ s.getLsbD 5
  (s >>> 1) ||| (if fb then 0x80000000#32 else 0#32)

/-- One clock of the periodic-noise register with tap `t` (43_waveform.md R278). -/
def clock6 (t : Nat) (s : BitVec 6) : BitVec 6 :=
  let fb := s.getLsbD 0 ^^ s.getLsbD t
  (s >>> 1) ||| (if fb then 0x20#6 else 0#6)

/-- `n` clocks of the periodic-noise register. -/
def clock6Times (t : Nat) : Nat → BitVec 6 → BitVec 6
  | 0, s => s
  | n + 1, s => clock6Times t n (clock6 t s)

/-- `sec(p)`, the sixth of the cycle a phase lies in (43_waveform.md R278). -/
def section6 (p : BitVec 32) : Nat := p.toNat * 6 / 2 ^ 32

/-- The number of section boundaries an evaluation crossed, 0 to 6 (43_waveform.md R278). -/
def clocks6 (old new : BitVec 32) (wrapped : Bool) : Nat :=
  section6 new + (if wrapped then 6 else 0) - section6 old

/-- The tap an operator selects with `WPAR[1:0]` (43_waveform.md R271, R278), whatever `WAVE` is. DESIGN CHOICE (log
entry 22): R271 names these bits `TAPS` for `WAVE` = 5 alone, and R278 clocks by `TAPS` under every `WAVE`. -/
def noiseTap (P : Params) (rb : Memory) (c : ChanId) (k : OpId) : Nat := P.pnTap (bits (fWpar rb c k) 1 0)

/-- Both noise registers set to their seeds (43_waveform.md R282). -/
def reseed (P : Params) (c : ChanId) (k : OpId) (o : OpState) : OpState :=
  { o with lfsr32 := P.seed32 c k, lfsr6 := P.seed6 c k }

/-! ## Amplitude scaling (43_waveform.md R285 to R288) -/

/-- `att_tot` (43_waveform.md R285); `TLX` has no part in it (R286). DEDUCED (log entry 23): the key-scale level reads
`FREQ` itself, as R285 and R287 write it, where 41_phase.md R202 says that the key code feeds it. -/
def attTotal (P : Params) (rb : Memory) (g : Globals) (c : ChanId) (k : OpId) (att : Nat) : Nat :=
  min P.attMax (att + amTerm rb g c k + fTl rb c k * 2 ^ 3 + P.kslAtt (fFreq rb c) (fKsl rb c k))

/-- The raw sample multiplied by the linear gain (43_waveform.md R285). -/
def scaleByGain (P : Params) (raw : Int) (att : Nat) : Int := asr (raw * P.lin att) 12

/-! ## Edge flags (43_waveform.md R289) -/

/-- The saw's edge, phase 0: the distance past it. -/
def sawEdge (new : BitVec 32) (wrapped : Bool) : Option Nat := if wrapped then some new.toNat else none

/-- The pulse's edges, phase 0 and the threshold `T` in accumulator units: the distance past the one crossed, none when
both or neither are crossed, or when the pulse is constant. -/
def pulseEdge (t : Nat) (old new : BitVec 32) (wrapped : Bool) : Option Nat :=
  let e := t * 2 ^ 22
  let crossedT : Bool :=
    if wrapped then decide (old.toNat < e) || decide (e ≤ new.toNat)
    else decide (old.toNat < e) && decide (e ≤ new.toNat)
  if t = 0 ∨ 1024 ≤ t then none
  else if wrapped && !crossedT then some new.toNat
  else if crossedT && !wrapped then some (new.toNat - e)
  else none

/-- `edge(c, k, old, new, step)` of an evaluation that stepped, the flag and its distance as an option (43_waveform.md
R289). -/
def edge (rb : Memory) (c : ChanId) (k : OpId) (old new : BitVec 32) (wrapped : Bool) : Option Nat :=
  match fWave rb c k with
  | 2 => sawEdge new wrapped
  | 3 => pulseEdge (pulseThreshold (fWpar rb c k) (fDuty rb c)) old new wrapped
  | _ => none

end Sys2Proof.Machine
end

