-- ==== Sys2Proof/Machine/Modulation.lean ====
section
/-! DEFINITION. The modulation network and the operator pipeline `voice(c)` (44_modulation.md). -/

namespace Sys2Proof.Machine

/-- `pred(k)`: `k − 1`, and 3 for `k` = 0 (00_scope.md R18). -/
def predOp (k : OpId) : OpId := k - 1

/-- Step A when hard sync fires (44_modulation.md R315): phase 0 and reseeded noise in place of the step and clocks. -/
def syncMove (P : Params) (c : ChanId) (k : OpId) (o : OpState) : PhaseMove :=
  { op := reseed P c k { o with phase := 0, wrap := false }, old := o.phase, step := 0 }

/-- Step A without sync: the accumulator steps, then both noise registers clock (44_modulation.md R310). -/
def stepMove (P : Params) (rb : Memory) (g : Globals) (c : ChanId) (k : OpId) (o : OpState) : PhaseMove :=
  let step := phaseStep P rb g c k
  let o' := advancePhase o step
  { op :=
      { o' with
        lfsr32 := clock32 o.lfsr32
        lfsr6 := clock6Times (noiseTap P rb c k) (clocks6 o.phase o'.phase o'.wrap) o.lfsr6 }
    old := o.phase
    step := step }

/-- `modin(c, k)`: the predecessor's value of this ADVANCE, or operator 0's averaged history, shifted by the depth
(44_modulation.md R311 to R313). -/
def modInput (P : Params) (rb : Memory) (c : ChanId) (k : OpId) (ch : ChanState) : Int :=
  let m := fMod rb c k
  if m = 0 then 0
  else if k = 0 then asr (asr (ch.fb1 + ch.fb2) 1) (P.modShift m)
  else asr (ch.op (predOp k)).val (P.modShift m)

/-- Step E, operator ring modulation, `src` being the reference value (44_modulation.md R314). -/
def ringSign (ring : Bool) (src value : Int) : Int := if ring && decide (src < 0) then -value else value

/-- The reference of the ring modulation: the preceding operator's value of this ADVANCE, or for operator 0 operator
3's of the previous one (44_modulation.md R314). -/
def ringSource (k : OpId) (ch : ChanState) (v3p : Int) : Int := if k = 0 then v3p else (ch.op (predOp k)).val

/-- Steps C to E: the value of an operator, `o` being its state after step B (44_modulation.md R310). -/
def operatorValue (P : Params) (rb pcm : Memory) (g : Globals) (c : ChanId) (k : OpId) (ch : ChanState) (v3p : Int)
    (o : OpState) : Int :=
  let p10 := lookupIndex o.phase (modInput P rb c k ch)
  let value := scaleByGain P (rawWave P rb pcm c k o p10) (attTotal P rb g c k o.att)
  ringSign (fRing rb c k) (ringSource k ch v3p) value

/-- Step G, the OUT path's value: blended where an edge is flagged (44_modulation.md R317). -/
def outValue (P : Params) (rb : Memory) (c : ChanId) (k : OpId) (m : PhaseMove) (prevOut value : Int) : Int :=
  if m.step = 0 then value
  else
    match edge rb c k m.old m.op.phase m.op.wrap with
    | some d => P.blend prevOut value d m.step.toNat
    | none => value

/-- Step H, an operator's contribution to the channel sum (44_modulation.md R316). -/
def outContribution (out : Nat) (outv : Int) : Int := if 0 < out then asr outv (7 - out) else 0

/-- What `voice` snapshots before operator 0: the wraps of the previous sample and operator 3's previous value
(44_modulation.md R310). -/
structure VoiceSnapshot where
  wraps : Vector Bool 4
  v3p : Int
deriving DecidableEq, Repr

/-- The snapshot of a channel. -/
def snapshot (ch : ChanState) : VoiceSnapshot :=
  { wraps := #v[(ch.op 0).wrap, (ch.op 1).wrap, (ch.op 2).wrap, (ch.op 3).wrap], v3p := (ch.op 3).val }

/-- Step F and the end of step G: the histories written (44_modulation.md R318). -/
def recordValue (k : OpId) (o : OpState) (value : Int) (ch : ChanState) : ChanState :=
  let ch' := ch.setOp k { o with val := value, prevOut := value }
  if k = 0 then { ch' with fb2 := ch.fb1, fb1 := value } else ch'

/-- Step A of operator `k`, by the snapshot (44_modulation.md R310, R315). -/
def moveOperator (P : Params) (rb : Memory) (g : Globals) (c : ChanId) (snap : VoiceSnapshot) (k : OpId) (o : OpState) :
    PhaseMove :=
  if fSync rb c k && snap.wraps[predOp k] then syncMove P c k o else stepMove P rb g c k o

/-- Steps A to H of operator `k` of channel `c`: the channel and the sum after it (44_modulation.md R310). -/
def evalOperator (P : Params) (rb pcm : Memory) (g : Globals) (c : ChanId) (snap : VoiceSnapshot)
    (acc : ChanState × Int) (k : OpId) : ChanState × Int :=
  let ch := acc.1
  let m := moveOperator P rb g c snap k (ch.op k)
  let o := envEval P rb g c k m.op
  let value := operatorValue P rb pcm g c k ch snap.v3p o
  let outv := outValue P rb c k m o.prevOut value
  (recordValue k o value ch, acc.2 + outContribution (fOut rb c k) outv)

/-- `voice(c)`: the channel after its four operators, and its raw voice sum (44_modulation.md R310). -/
def voice (P : Params) (rb pcm : Memory) (g : Globals) (c : ChanId) (ch : ChanState) : ChanState × Int :=
  operators.foldl (evalOperator P rb pcm g c (snapshot ch)) (ch, 0)

end Sys2Proof.Machine
end

