-- ==== Sys2Proof/Machine/Channel.lean ====
section
/-! DEFINITION. The channel post-processor (46_channel.md): PCM playback, ring modulation, volume, filter, mute, pan,
sweeps and phase resets, and the whole channel step. -/

namespace Sys2Proof.Machine

/-! ## PCM playback (46_channel.md R361 to R363) -/

/-- `pcm_step(c)`: the register bank after one position step (46_channel.md R363). -/
def pcmStep (c : ChanId) (rb : Memory) : Memory :=
  let p := fPcmPos rb c
  let p' :=
    if p = fPcmBnd rb c then (if fPcmLoop rb c then fPcmRst rb c else p) else wrapTo 16 ((p : Int) + 1)
  rbWrite16 rb (chByteIndex c 0x0A) p'

/-- `n` position steps. -/
def pcmSteps (c : ChanId) : Nat → Memory → Memory
  | 0, rb => rb
  | n + 1, rb => pcmSteps c n (pcmStep c rb)

/-- `PCMFRAC` after `FREQ` is added to it; a free value where the sum leaves its 32 bits (46_channel.md R362, DESIGN
CHOICE, log entry 4). -/
def fracSum (frac : BitVec 32) (freq : Nat) : BitVec 32 :=
  if frac.toNat + freq < 2 ^ 32 then BitVec.ofNat 32 (frac.toNat + freq) else Config.fracOverflow frac freq

/-- `pcm_advance(c)` (46_channel.md R362). -/
def pcmAdvance (P : Params) (c : ChanId) (s : State) : State :=
  let ch := s.chan c
  let frac := (fracSum ch.pcmFrac (fFreq s.rb c)).toNat
  let n := min (frac / P.pcmThresh) P.pcmMaxStep
  (s.setChan c { ch with pcmFrac := BitVec.ofNat 32 (frac % P.pcmThresh) }).setRb (pcmSteps c n s.rb)

/-- Step 1 of the channel step: the raw sample, and the state after the source has moved (46_channel.md R360, R361). -/
def channelSource (P : Params) (c : ChanId) (s : State) : State × Int :=
  if fPcm s.rb c then
    (pcmAdvance P c s, shl (pcmSample P s.pcm (fPcmPos s.rb c)) P.pcmShift)
  else
    let v := voice P s.rb s.pcm s.glob c (s.chan c)
    (s.setChan c v.1, v.2)

/-! ## Ring modulation and volume (46_channel.md R364, R366) -/

/-- Step 2: the raw sample, ring-modulated by the next channel's previous raw if `CRING` is set (46_channel.md R364). -/
def channelRing (P : Params) (c : ChanId) (s : State) (raw : Int) : Int :=
  if fCring s.rb c then asr (raw * (s.chan (c + 1)).prevRaw) P.ringShift else raw

/-- Step 3: `tdiv(x × s8(VOL), 128)` (46_channel.md R366). -/
def applyVolume (vol x : Int) : Int := Int.tdiv (x * vol) 128

/-! ## Filter (46_channel.md R367 to R369) -/

/-- `svf_update(c, x)` (46_channel.md R368). -/
def svfUpdate (P : Params) (cutoff reson : Nat) (x : Int) (ch : ChanState) : ChanState :=
  let inp := asr (x * P.svfPregain reson) 8
  let low := P.svfClip (ch.flow + asr (P.svfF cutoff * ch.fband) 16)
  let high := inp - low - asr (P.svfQ reson * ch.fband) 8
  let band := P.svfClip (ch.fband + asr (P.svfF cutoff * high) 16)
  { ch with flow := low, fhigh := high, fband := band }

/-- `filter(c, x)`: the channel after the filter and its output (46_channel.md R367). -/
def filterStage (P : Params) (rb : Memory) (c : ChanId) (x : Int) (ch : ChanState) : ChanState × Int :=
  if !fFlp rb c && !fFhp rb c && !fFbp rb c then (ch, x)
  else
    let ch' := svfUpdate P (fCutoff rb c) (fReson rb c) x ch
    (ch', (if fFlp rb c then ch'.flow else 0) + (if fFhp rb c then ch'.fhigh else 0)
      + (if fFbp rb c then ch'.fband else 0))

/-! ## Mute and pan (46_channel.md R371, R372) -/

/-- Steps 5 and 6: the channel, and its left and right contributions (46_channel.md R360). -/
def mutePan (P : Params) (muted : Bool) (pan y : Int) (ch : ChanState) : ChanState × Int × Int :=
  if muted then (ch.clearFilter, 0, 0)
  else (ch, asr (y * P.panL pan) P.panShift, asr (y * P.panR pan) P.panShift)

/-! ## Sweeps (46_channel.md R373 to R380) -/

/-- `T(c).SWT[e]`. -/
def sweepTimer (e : Sweep) (ch : ChanState) : BitVec 16 :=
  match e with
  | .freq => ch.swtFreq
  | .vol => ch.swtVol
  | .cut => ch.swtCut

/-- Replace `T(c).SWT[e]`. -/
def setSweepTimer (e : Sweep) (t : BitVec 16) (ch : ChanState) : ChanState :=
  match e with
  | .freq => { ch with swtFreq := t }
  | .vol => { ch with swtVol := t }
  | .cut => { ch with swtCut := t }

/-- A countdown after one tick: reloaded from `max(period, 1)` when idle at 0, then decremented; it expires when this is
0 (46_channel.md R374, R382). -/
def countdown (period : Nat) (t : BitVec 16) : BitVec 16 :=
  (if t = 0 then BitVec.ofNat 16 (max period 1) else t) - 1

/-- The value a sweep reads from its target (46_channel.md R376). -/
def sweepValue (rb : Memory) (c : ChanId) : Sweep → Int
  | .freq => fFreq rb c
  | .vol => fVol rb c
  | .cut => fCutoff rb c

/-- `lo` of the target's range (46_channel.md R376). -/
def sweepLo : Sweep → Int
  | .freq => 0
  | .vol => -128
  | .cut => 0

/-- `hi` of the target's range (46_channel.md R376). -/
def sweepHi : Sweep → Int
  | .freq => 65535
  | .vol => 127
  | .cut => 65535

/-- `B`, the bound in the target's units (46_channel.md R376). -/
def sweepBound (e : Sweep) (bound : Nat) : Int :=
  match e with
  | .freq => bound * 2 ^ 8
  | .vol => s8 bound
  | .cut => bound * 2 ^ 8

/-- `lim`: the bound where it lies ahead in the sweep's direction, else the range end (46_channel.md R376). -/
def sweepLimit (e : Sweep) (up : Bool) (v b : Int) : Int :=
  if up then (if v ≤ b then b else sweepHi e) else (if b ≤ v then b else sweepLo e)

/-- `t` before the limit, wrap or bounce (46_channel.md R376). -/
def sweepTarget (up : Bool) (v : Int) (mag : Nat) : Int := if up then v + mag else v - mag

/-- The target lies past the limit in the sweep's direction (46_channel.md R377, R379). -/
def sweepCrosses (up : Bool) (t lim : Int) : Bool := if up then decide (lim < t) else decide (t < lim)

/-- Clamp (46_channel.md R377). -/
def sweepClamp (up : Bool) (t lim : Int) : Int := if sweepCrosses up t lim then lim else t

/-- Wrap: the value rolls over in the target's width (46_channel.md R378). -/
def sweepWrap (e : Sweep) (t : Int) : Int :=
  match e with
  | .freq => wrapTo 16 t
  | .vol => s8 (wrapTo 8 t)
  | .cut => wrapTo 16 t

/-- Bounce: the value reflected about the limit and clamped to the range (46_channel.md R379). -/
def sweepReflect (e : Sweep) (up : Bool) (t lim : Int) : Int :=
  if sweepCrosses up t lim then clamp (2 * lim - t) (sweepLo e) (sweepHi e) else t

/-- Store a sweep's target (46_channel.md R380). -/
def storeTarget (e : Sweep) (c : ChanId) (t : Int) (rb : Memory) : Memory :=
  match e with
  | .freq => rbWrite16 rb (chByteIndex c 0x00) (wrapTo 16 t)
  | .vol => Memory.write rb (chByteIndex c 0x02) (BitVec.ofNat 8 (wrapTo 8 t))
  | .cut => rbWrite16 rb (chByteIndex c 0x06) (wrapTo 16 t)

/-- `sweep_fire(c, e)`: the register bank after a firing (46_channel.md R380). -/
def sweepFire (e : Sweep) (c : ChanId) (rb : Memory) : Memory :=
  let v := sweepValue rb c e
  let up := fUp rb c e
  let lim := sweepLimit e up v (sweepBound e (fBound rb c e))
  let t := sweepTarget up v (fMag rb c e)
  if fBounce rb c e then
    let rb' := storeTarget e c (sweepReflect e up t lim) rb
    if sweepCrosses up t lim then
      Memory.write rb' (chByteIndex c (sweepBase e + 2)) (BitVec.ofNat 8 (flipBit (fAmt rb c e) 5))
    else rb'
  else if fWrapF rb c e then storeTarget e c (sweepWrap e t) rb
  else storeTarget e c (sweepClamp up t lim) rb

/-- `sweep(c, e)`: the timer ticks while the engine is enabled, and it fires when the timer reaches 0 (46_channel.md R373,
R374). -/
def sweep (c : ChanId) (s : State) (e : Sweep) : State :=
  if fSweepEn s.rb c e then
    let t := countdown (fSpeed s.rb c e) (sweepTimer e (s.chan c))
    let s' := s.setChan c (setSweepTimer e t (s.chan c))
    if t = 0 then s'.setRb (sweepFire e c s.rb) else s'
  else s

/-- Step 7: the three engines in order (46_channel.md R360, R373). -/
def sweeps (c : ChanId) (s : State) : State := [Sweep.freq, .vol, .cut].foldl (sweep c) s

/-! ## Phase resets (46_channel.md R381 to R383) -/

/-- The reset action on a channel (46_channel.md R383). -/
def phaseResetAction (P : Params) (c : ChanId) (fltReset : Bool) (ch : ChanState) : ChanState :=
  let ch' := ch.mapOps fun k o => reseed P c k { o with phase := 0, wrap := false }
  if fltReset then ch'.clearFilter else ch'

/-- `phase_resets(c)`: the one-shot request served and cleared, the periodic countdown, and one reset action if either
fires (46_channel.md R381 to R383). -/
def phaseResets (P : Params) (c : ChanId) (s : State) : State :=
  let oneshot := fPhReset s.rb c
  let rb :=
    if oneshot then
      Memory.write s.rb (chByteIndex c flags1Offset) (BitVec.ofNat 8 (clearBit (fFlags1 s.rb c) 0))
    else s.rb
  let ch := s.chan c
  let cnt := if fTimerSync s.rb c then countdown (fResTimer s.rb c) ch.rstCnt else ch.rstCnt
  let periodic := fTimerSync s.rb c && decide (cnt = 0)
  let ch := { ch with rstCnt := cnt }
  let ch := if oneshot || periodic then phaseResetAction P c (fFltReset s.rb c) ch else ch
  (s.setChan c ch).setRb rb

/-! ## The channel step (46_channel.md R360) -/

/-- What a channel step returns: its raw sample and its two contributions. -/
structure ChanOut where
  raw : Int
  left : Int
  right : Int
deriving DecidableEq, Repr

/-- Steps 2 to 6 on the state after the source: ring modulation, volume, filter, mute and pan (46_channel.md R360). -/
def channelOutput (P : Params) (c : ChanId) (s : State) (raw : Int) : State × ChanOut :=
  let x := applyVolume (fVol s.rb c) (channelRing P c s raw)
  let f := filterStage P s.rb c x (s.chan c)
  let o := mutePan P s.mute[c] (fPan s.rb c) f.2 f.1
  (s.setChan c o.1, { raw := raw, left := o.2.1, right := o.2.2 })

/-- `channel_step(c)` (46_channel.md R360). -/
def channelStep (P : Params) (c : ChanId) (s : State) : State × ChanOut :=
  let src := channelSource P c s
  let out := channelOutput P c src.1 src.2
  (phaseResets P c (sweeps c out.1), out.2)

end Sys2Proof.Machine
end

