-- ==== Sys2Proof/Machine/Mixer.lean ====
section
/-! DEFINITION. The output mixer (47_mixer.md): the 64-bit sum, the DC blocker and the output saturation. -/

namespace Sys2Proof.Machine

/-- A value lies in the signed 64-bit range. -/
def fits64 (v : Int) : Bool := decide (-2 ^ 63 ≤ v) && decide (v < 2 ^ 63)

/-- Signed 64-bit accumulation from `acc`: the sum, where no partial sum leaves the range (47_mixer.md R420). -/
def accumulate64 : Int → List Int → Option Int
  | acc, [] => some acc
  | acc, x :: xs => if fits64 (acc + x) then accumulate64 (acc + x) xs else none

/-- The sum of the channels' contributions in the 64-bit accumulator; a free value where it leaves the range, which the
spec gives no result for (47_mixer.md R420, DESIGN CHOICE, log entry 5). -/
def mixSum (xs : List Int) : BitVec 64 :=
  match accumulate64 0 xs with
  | some v => BitVec.ofInt 64 v
  | none => Config.sumOverflow xs

/-- `dcblock(x, X1, Y1)`: the output, exact (47_mixer.md R421). -/
def dcOutput (P : Params) (x x1 y1 : BitVec 64) : Int := x.toInt - x1.toInt + asr (P.hpfR * y1.toInt) 16

/-- What `Y1` holds after it; a free value where the output leaves the 64-bit range (47_mixer.md R421, DESIGN CHOICE, log
entry 6). -/
def dcStored (P : Params) (x x1 y1 : BitVec 64) : BitVec 64 :=
  if fits64 (dcOutput P x x1 y1) then BitVec.ofInt 64 (dcOutput P x x1 y1) else Config.dcOverflow x.toInt x1 y1

/-- `sat32(y)` (47_mixer.md R422). -/
def sat32 (y : Int) : Int := clamp y (-2 ^ 31) (2 ^ 31 - 1)

/-- `mix(Lc, Rc)`: the global state after it and the stereo pair (47_mixer.md R420 to R422). -/
def mix (P : Params) (ls rs : List Int) (g : Globals) : Globals × Int × Int :=
  let xl := mixSum ls
  let xr := mixSum rs
  ({ g with
      hx1l := xl, hy1l := dcStored P xl g.hx1l g.hy1l,
      hx1r := xr, hy1r := dcStored P xr g.hx1r g.hy1r },
    sat32 (dcOutput P xl g.hx1l g.hy1l), sat32 (dcOutput P xr g.hx1r g.hy1r))

end Sys2Proof.Machine
end

