-- ==== Sys2Proof/Machine/Advance.lean ====
section
/-! DEFINITION. ADVANCE, one sample of the whole block (40_host_commands.md R170). -/

namespace Sys2Proof.Machine

/-- The start of an ADVANCE: the LFO step, then `ENVCNT` (40_host_commands.md R170, 45_lfo.md R340, 42_envelope.md
R237). -/
def advanceGlobals (P : Params) (g : Globals) : Globals :=
  let g := lfoStep P g
  { g with envCnt := g.envCnt + 1 }

/-- The channel steps of a list of channels, in order, with what each returns (40_host_commands.md R170). -/
def runChannels (P : Params) : List ChanId → State → State × List (ChanId × ChanOut)
  | [], s => (s, [])
  | c :: cs, s =>
    let r := channelStep P c s
    let rest := runChannels P cs r.1
    (rest.1, (c, r.2) :: rest.2)

/-- The raw samples committed to `PREVRAW` (40_host_commands.md R170, 46_channel.md R365). -/
def commitRaws (outs : List (ChanId × ChanOut)) (s : State) : State :=
  outs.foldl (fun s e => s.setChan e.1 { s.chan e.1 with prevRaw := e.2.raw }) s

/-- ADVANCE: the state after one sample, and the stereo pair (40_host_commands.md R170). -/
def advance (P : Params) (s : State) : State × Int × Int :=
  let s := { s with glob := advanceGlobals P s.glob }
  let r := runChannels P channels s
  let s := commitRaws r.2 r.1
  let m := mix P (r.2.map fun e => e.2.left) (r.2.map fun e => e.2.right) s.glob
  ({ s with glob := m.1 }, m.2)

/-- ADVANCE with its response (30_encoding.md R136). -/
def advanceCommand (P : Params) (s : State) : State :=
  let r := advance P s
  r.1.complete (.stereo (BitVec.ofInt 32 r.2.1) (BitVec.ofInt 32 r.2.2))

/-- The meaning of `adv`. -/
def execAdv (s : State) : Host.Outcome State Fault Refusal := .next (advanceCommand params s)

end Sys2Proof.Machine
end

