-- ==== Sys2Proof/Machine/HostCommands.lean ====
section
/-! DEFINITION. The host commands other than ADVANCE (40_host_commands.md): WRITE, READ, RESET, SETMUTE, PCMWRITE. -/

namespace Sys2Proof.Machine

/-- The WRITE touches a `FLAGS0` byte: `o == 32 + 0x04` (40_host_commands.md R161). -/
def isFlags0 (addr : Nat) : Bool := decide (addrOffset addr = 32 + flags0Offset)

/-- WRITE on the block: the byte stored whole, and the gate edge of a `FLAGS0` byte (40_host_commands.md R161 to
R163). -/
def writeRegister (addr : Nat) (data : Byte) (s : State) : State :=
  let c := addrChan addr
  let old := rbNat s.rb (byteIndex addr)
  let s := s.setRb (Memory.write s.rb (byteIndex addr) data)
  if isFlags0 addr then s.setChan c (gateEdge s.rb c (bit old 0) (bit data.toNat 0) (s.chan c)) else s

/-- READ: the stored byte (40_host_commands.md R164). -/
def readRegister (addr : Nat) (s : State) : Byte := Memory.read s.rb (byteIndex addr)

/-- SETMUTE on the block (40_host_commands.md R168, 30_encoding.md R128). -/
def setMute (ch : Nat) (m : Bool) (s : State) : State :=
  if h : ch < 9 then { s with mute := s.mute.set ch m h } else s

/-- PCMWRITE on the block (40_host_commands.md R169). -/
def writePcm (P : Params) (paddr : Nat) (data : Byte) (s : State) : State :=
  { s with pcm := pcmStore P s.pcm paddr data }

/-- The meaning of `wr ADDR, DATA` (40_host_commands.md R161). -/
def execWr (addr data : Nat) (s : State) : Host.Outcome State Fault Refusal :=
  .next ((writeRegister addr (BitVec.ofNat 8 data) s).complete .nothing)

/-- The meaning of `rd ADDR` (40_host_commands.md R164). -/
def execRd (addr : Nat) (s : State) : Host.Outcome State Fault Refusal :=
  .next (s.complete (.byte (readRegister addr s)))

/-- The meaning of `rst` (40_host_commands.md R167). -/
def execRst (s : State) : Host.Outcome State Fault Refusal := .next ((s.resetBlock params).complete .nothing)

/-- The meaning of `mute CH, M` (40_host_commands.md R168). -/
def execMute (ch : Nat) (m : Bool) (s : State) : Host.Outcome State Fault Refusal :=
  .next ((setMute ch m s).complete .nothing)

/-- The meaning of `pcmw PADDR, DATA` (40_host_commands.md R169). -/
def execPcmw (paddr data : Nat) (s : State) : Host.Outcome State Fault Refusal :=
  .next ((writePcm params paddr (BitVec.ofNat 8 data) s).complete .nothing)

end Sys2Proof.Machine
end

