-- ==== Sys2Proof/Machine/Dispatch.lean ====
section
/-! DEFINITION. The meaning of every host command, one arm per constructor of Instr. -/

namespace Sys2Proof.Machine

def exec (i : Instr) (s : State) : Host.Outcome State Fault Refusal :=
  match i with
  | .wr addr data => Sys2Proof.Machine.execWr addr data s
  | .rd addr => Sys2Proof.Machine.execRd addr s
  | .adv => Sys2Proof.Machine.execAdv s
  | .rst => Sys2Proof.Machine.execRst s
  | .mute ch m => Sys2Proof.Machine.execMute ch m s
  | .pcmw paddr data => Sys2Proof.Machine.execPcmw paddr data s

end Sys2Proof.Machine
end

