-- ==== Sys2Proof/Machine/Step.lean ====
section
/-! DEFINITION. One step: the block performs the first command word the host has presented (30_encoding.md R120). -/

namespace Sys2Proof.Machine

/-- One step. With no word presented nothing moves: "A host that stops issuing ADVANCE stops the block's time; every piece
of state survives unchanged until the next command" (60_exceptions.md R453, log entry 7). A word that spells a command
runs it; a word that spells none is refused (R441, log entry 8). -/
def step (s : State) : Host.Outcome State Fault Refusal :=
  match s.stream with
  | [] => .next s
  | w :: _ =>
    match decode w with
    | .ok i => exec i s
    | .error _ => .next s.refuseWord

/-- The state with the command word of the low `nbits` bits of `w` presented as the next one (log entries 10, 14). -/
def State.withFetchWord (s : State) (nbits w : Nat) : State :=
  { s with stream := BitVec.ofNat 32 (w % 2 ^ nbits) :: s.stream.tail }

end Sys2Proof.Machine
end

