-- ==== Sys2Proof/Safety.lean ====
section
/-! DEFINITION. The terms claims use: runs, and the invariants of the rules (10_state.md R41, R43, R45, 43_waveform.md
R277, R278). No step faults or is refused, so a safe run is one that keeps these. -/

namespace Sys2Proof.Machine

/-- The state ranges of an operator (10_state.md R41): `0 ≤ ATT ≤ ATT_MAX` and `DLY ≤ 256 << 7`. -/
structure OpState.Inv (P : Params) (o : OpState) : Prop where
  att : o.att ≤ P.attMax
  dly : o.dly.toNat ≤ 256 * 2 ^ 7

/-- The ranges of the whole state: both stores in canonical form and within their address spaces, every operator in its
ranges, `PCMFRAC` below the threshold, the LFO counters within their periods and `|PMVAL| ≤ 128`. -/
structure State.Inv (P : Params) (s : State) : Prop where
  rb_wf : Memory.wf s.rb = true
  rb_below : Memory.below 576 s.rb = true
  pcm_wf : Memory.wf s.pcm = true
  pcm_below : Memory.below (pcmSize P) s.pcm = true
  ops : ∀ c k, ((s.chan c).op k).Inv P
  frac : ∀ c, (s.chan c).pcmFrac.toNat < P.pcmThresh
  amCnt : s.glob.amCnt < 13440
  pmCnt : s.glob.pmCnt < 8192
  pmVal : -128 ≤ s.glob.pmVal ∧ s.glob.pmVal ≤ 128

/-- Both noise registers of every operator are non-zero, as after a RESET (43_waveform.md R277 to R279). -/
def State.NoiseAlive (s : State) : Prop :=
  ∀ c k, ((s.chan c).op k).lfsr32 ≠ 0 ∧ ((s.chan c).op k).lfsr6 ≠ 0

/-- Two states of the block agree: everything but the command port (30_encoding.md R120). -/
structure SameBlock (s t : State) : Prop where
  rb : t.rb = s.rb
  pcm : t.pcm = s.pcm
  chans : t.chans = s.chans
  mute : t.mute = s.mute
  glob : t.glob = s.glob

/-- The command port after a completed command: the word consumed, this response, the refusal mark untouched
(60_exceptions.md R441, "no command reads or clears"). -/
structure PortAfter (s t : State) (r : Response) : Prop where
  stream : t.stream = s.stream.tail
  response : t.response = r
  refusalMark : t.refusalMark = s.refusalMark

/-- The register-bank bytes an ADVANCE may write for channel `c`, by channel register offset (10_state.md R38): `FREQ`,
`VOL`, `FLAGS1`, `CUTOFF`, `PCMPOS` and the three `AMT` bytes. -/
def advanceOwned : List Nat := [0x00, 0x01, 0x02, 0x05, 0x06, 0x07, 0x0A, 0x0B, 0x12, 0x16, 0x1A]

/-- Two bytes differ in no bit but bit `i`. -/
def sameButBit (i : Nat) (a b : Byte) : Prop := ∀ j, j ≠ i → a.getLsbD j = b.getLsbD j

/-! ## Sequences of commands -/

/-- The commands of a list performed in order, up to the first that gives no next state (20_memory.md R102). -/
def execAll : List Instr → State → Host.Outcome State Fault Refusal
  | [], s => .next s
  | i :: is, s =>
    match exec i s with
    | .next t => execAll is t
    | .fault f => .fault f
    | .refused r => .refused r

/-- The command writes another register byte than `a`, or none (40_host_commands.md R166). -/
def leavesByte (a : Nat) : Instr → Prop
  | .wr addr _ => byteIndex addr ≠ a
  | .rd _ => True
  | .adv => ∀ c : ChanId, ∀ j ∈ advanceOwned, a ≠ chByteIndex c j
  | .rst => False
  | .mute _ _ => True
  | .pcmw _ _ => True

/-! ## Conditions on a channel -/

/-- A countdown that reaches 0 at its next tick (46_channel.md R374, R382). -/
abbrev expires (period : Nat) (t : BitVec 16) : Prop := t = 1 ∨ (t = 0 ∧ period ≤ 1)

/-- No phase reset fires at the next ADVANCE: none requested, and the periodic countdown off or not expiring (46_channel.md
R381, R382). -/
def NoPhaseReset (s : State) (c : ChanId) : Prop :=
  fPhReset s.rb c = false ∧ (fTimerSync s.rb c = false ∨ ¬ expires (fResTimer s.rb c) (s.chan c).rstCnt)

/-- Hard sync fires on operator `k` at the next ADVANCE (44_modulation.md R315). -/
def syncFires (s : State) (c : ChanId) (k : OpId) : Bool := fSync s.rb c k && ((s.chan c).op (predOp k)).wrap

/-- The engine is enabled and its timer expires at the next ADVANCE (46_channel.md R373, R374). -/
def SweepFires (s : State) (c : ChanId) (e : Sweep) : Prop :=
  fSweepEn s.rb c e = true ∧ expires (fSpeed s.rb c e) (sweepTimer e (s.chan c))

/-! ## What an ADVANCE computes for one channel -/

/-- The state the channel steps of an ADVANCE start from: the LFO and `ENVCNT` stepped (40_host_commands.md R170). -/
def State.beforeChannels (P : Params) (s : State) : State := { s with glob := advanceGlobals P s.glob }

/-- Steps 1 to 6 of channel `c`'s step in the ADVANCE from `s`, before its sweeps and phase resets: the state after them,
and the raw sample and the two contributions (46_channel.md R360). The channels before `c` decide nothing of it: they write
neither its bytes nor its transient state, and every `PREVRAW` is committed after all nine (R365). -/
def channelSample (P : Params) (c : ChanId) (s : State) : State × ChanOut :=
  let src := channelSource P c (s.beforeChannels P)
  channelOutput P c src.1 src.2

/-! ## Agreement of two states -/

/-- The states agree on all that channel `c` reads in an ADVANCE: its 64 bytes, its transient state, its mute flag, the
next channel's previous raw sample, PCM memory and the three counters. -/
structure ChannelAgrees (c : ChanId) (s s' : State) : Prop where
  bytes : ∀ a, a / 64 = c.val → Memory.read s'.rb a = Memory.read s.rb a
  chan : s'.chan c = s.chan c
  mute : s'.mute[c] = s.mute[c]
  prevRaw : (s'.chan (c + 1)).prevRaw = (s.chan (c + 1)).prevRaw
  pcm : s'.pcm = s.pcm
  amCnt : s'.glob.amCnt = s.glob.amCnt
  pmCnt : s'.glob.pmCnt = s.glob.pmCnt
  envCnt : s'.glob.envCnt = s.glob.envCnt

/-- The bits of a register byte that some field with an effect uses (30_encoding.md R132): all but `TLX`, `FLAGS0[7:6]`,
`FLAGS1[7]`, `RSVD0` and `RSVD1`. -/
def usedMask (a : Nat) : Byte :=
  if a % 64 < 32 then (if a % 8 = 1 then 0x7F#8 else 0xFF#8)
  else if a % 64 = 36 then 0x3F#8
  else if a % 64 = 37 then 0x7F#8
  else if 62 ≤ a % 64 then 0#8
  else 0xFF#8

/-- The register banks differ in bits without effect at most. -/
def AgreeOnUsedBits (rb rb' : Memory) : Prop :=
  ∀ a, Memory.read rb' a &&& usedMask a = Memory.read rb a &&& usedMask a

end Sys2Proof.Machine
end

