-- ==== Sys2Proof/Laws/Memory.lean ====
section
/-! SUPPORT. The byte stores: read after write, the canonical form and the address bound kept, and equality from equal
reads. -/

namespace Sys2Proof.Machine

/-! ## Read after write -/

@[simp] theorem Memory.read_nil (a : Nat) : Memory.read [] a = 0#8 := rfl

/-- The canonical form of a list with a head: the head's byte is not 0 and its address is below the rest's. -/
theorem Memory.wf_cons_iff (x : Nat) (b : Byte) (m : Memory) :
    Memory.wf ((x, b) :: m) = true ↔ b ≠ 0#8 ∧ (∀ e ∈ m, x < e.1) ∧ Memory.wf m = true := by
  induction m generalizing x b with
  | nil => simp [Memory.wf]
  | cons e m ih =>
    obtain ⟨y, c⟩ := e
    simp only [Memory.wf, Bool.and_eq_true, decide_eq_true_eq, bne_iff_ne, List.mem_cons, forall_eq_or_imp]
    constructor
    · rintro ⟨⟨hxy, hb⟩, hm⟩
      have := (ih y c).1 hm
      exact ⟨hb, ⟨hxy, fun e he => Nat.lt_trans hxy (this.2.1 e he)⟩, hm⟩
    · rintro ⟨hb, ⟨hxy, _⟩, hm⟩
      exact ⟨⟨hxy, hb⟩, hm⟩

/-- Below every listed address a store reads 0. -/
theorem Memory.read_of_lt (m : Memory) (a : Nat) (h : ∀ e ∈ m, a < e.1) : Memory.read m a = 0#8 := by
  induction m with
  | nil => rfl
  | cons e m ih =>
    obtain ⟨x, b⟩ := e
    have hx : a < x := h (x, b) (by simp)
    simp only [Memory.read]
    rw [if_neg (by omega)]
    exact ih fun e he => h e (by simp [he])

/-- Read after write in a store in canonical form: the byte written there, every other byte as before. -/
theorem Memory.read_write (m : Memory) (h : Memory.wf m = true) (a : Nat) (b : Byte) (x : Nat) :
    Memory.read (Memory.write m a b) x = if x = a then b else Memory.read m x := by
  induction m with
  | nil => by_cases hb : b = 0#8 <;> by_cases hx : x = a <;> simp [Memory.write, Memory.read, hb, hx]
  | cons e m ih =>
    obtain ⟨y, v⟩ := e
    obtain ⟨hv, hlt, hm⟩ := (Memory.wf_cons_iff y v m).1 h
    have ih := ih hm
    have h0 : Memory.read m y = 0#8 := Memory.read_of_lt m y hlt
    simp only [Memory.write]
    rcases Nat.lt_trichotomy a y with ha | ha | ha
    · have h0' : Memory.read m a = 0#8 := Memory.read_of_lt m a fun e he => Nat.lt_trans ha (hlt e he)
      by_cases hb : b = 0#8 <;> by_cases hx : x = a
      · subst hx; simp [ha, hb, Memory.read, h0', Nat.ne_of_lt ha]
      · simp [ha, hb, hx]
      · subst hx; simp [ha, hb, Memory.read]
      · simp [ha, hb, hx, Memory.read]
    · subst ha
      by_cases hb : b = 0#8 <;> by_cases hx : x = a
      · subst hx; simp [hb, h0]
      · simp [hb, hx, Memory.read]
      · subst hx; simp [hb, Memory.read]
      · simp [hb, hx, Memory.read]
    · rw [if_neg (by omega), if_neg (by omega)]
      by_cases hx : x = y
      · subst hx; simp [Memory.read, Nat.ne_of_lt ha]
      · simp only [Memory.read, hx, if_false]; exact ih

theorem Memory.read_write_same (m : Memory) (h : Memory.wf m = true) (a : Nat) (b : Byte) :
    Memory.read (Memory.write m a b) a = b := by simp [Memory.read_write m h]

theorem Memory.read_write_other (m : Memory) (a : Nat) (b : Byte) (x : Nat) (hx : x ≠ a) :
    Memory.read (Memory.write m a b) x = Memory.read m x := by
  induction m with
  | nil => by_cases hb : b = 0#8 <;> simp [Memory.write, Memory.read, hb, hx]
  | cons e m ih =>
    obtain ⟨y, v⟩ := e
    simp only [Memory.write]
    split
    · split <;> simp [Memory.read, hx]
    · split
      · next hay => subst hay; split <;> simp [Memory.read, hx]
      · simp only [Memory.read]; split <;> [rfl; exact ih]

/-! ## The canonical form and the bound -/

theorem Memory.mem_write (m : Memory) (a : Nat) (b : Byte) (e : Host.Cell) (he : e ∈ Memory.write m a b) :
    e = (a, b) ∨ e ∈ m := by
  induction m with
  | nil =>
    simp only [Memory.write] at he
    split at he <;> simp_all
  | cons x m ih =>
    obtain ⟨y, v⟩ := x
    simp only [Memory.write] at he
    split at he
    · split at he <;> simp_all
    · split at he
      · split at he <;> simp_all
        rcases he with h | h <;> simp [h]
      · rcases List.mem_cons.1 he with h | h
        · simp [h]
        · rcases ih h with h | h <;> simp [h]

theorem Memory.write_wf (m : Memory) (h : Memory.wf m = true) (a : Nat) (b : Byte) :
    Memory.wf (Memory.write m a b) = true := by
  induction m with
  | nil => by_cases hb : b = 0#8 <;> simp [Memory.write, Memory.wf, hb]
  | cons e m ih =>
    obtain ⟨y, v⟩ := e
    have hw := (Memory.wf_cons_iff y v m).1 h
    obtain ⟨hv, hlt, hm⟩ := hw
    simp only [Memory.write]
    rcases Nat.lt_trichotomy a y with ha | ha | ha
    · rw [if_pos ha]
      by_cases hb : b = 0#8
      · rw [if_pos hb]; exact h
      · rw [if_neg hb]
        refine (Memory.wf_cons_iff a b _).2 ⟨hb, ?_, h⟩
        intro e he
        rcases List.mem_cons.1 he with h | h
        · simpa [h] using ha
        · exact Nat.lt_trans ha (hlt e h)
    · rw [if_neg (by omega), if_pos ha]
      by_cases hb : b = 0#8
      · rw [if_pos hb]; exact hm
      · rw [if_neg hb]; subst ha; exact (Memory.wf_cons_iff a b m).2 ⟨hb, hlt, hm⟩
    · rw [if_neg (by omega), if_neg (by omega)]
      refine (Memory.wf_cons_iff y v _).2 ⟨hv, ?_, ih hm⟩
      intro e he
      rcases Memory.mem_write m a b e he with h | h
      · simpa [h] using ha
      · exact hlt e h

theorem Memory.write_below (n : Nat) (m : Memory) (h : Memory.below n m = true) (a : Nat) (ha : a < n) (b : Byte) :
    Memory.below n (Memory.write m a b) = true := by
  simp only [Memory.below, List.all_eq_true, decide_eq_true_eq] at *
  intro e he
  rcases Memory.mem_write m a b e he with h' | h'
  · simpa [h'] using ha
  · exact h e h'

/-- Stores in canonical form that read alike are equal. -/
theorem Memory.ext_of_wf (m m' : Memory) (h : Memory.wf m = true) (h' : Memory.wf m' = true)
    (hr : ∀ a, Memory.read m a = Memory.read m' a) : m = m' := by
  induction m generalizing m' with
  | nil =>
    cases m' with
    | nil => rfl
    | cons e m' =>
      obtain ⟨x, b⟩ := e
      have := hr x
      simp only [Memory.read, if_true] at this
      exact absurd this.symm ((Memory.wf_cons_iff x b m').1 h').1
  | cons e m ih =>
    obtain ⟨x, b⟩ := e
    obtain ⟨hb, hlt, hm⟩ := (Memory.wf_cons_iff x b m).1 h
    cases m' with
    | nil =>
      have := hr x
      simp only [Memory.read, if_true] at this
      exact absurd this hb
    | cons e' m' =>
      obtain ⟨y, c⟩ := e'
      obtain ⟨hc, hlt', hm'⟩ := (Memory.wf_cons_iff y c m').1 h'
      have hxy : x = y := by
        rcases Nat.lt_trichotomy x y with hl | hl | hl
        · have := hr x
          rw [Memory.read_of_lt ((y, c) :: m') x] at this
          · simp only [Memory.read, if_true] at this; exact absurd this hb
          · intro e he
            rcases List.mem_cons.1 he with h1 | h1
            · simpa [h1] using hl
            · exact Nat.lt_trans hl (hlt' e h1)
        · exact hl
        · have := (hr y).symm
          rw [Memory.read_of_lt ((x, b) :: m) y] at this
          · simp only [Memory.read, if_true] at this; exact absurd this hc
          · intro e he
            rcases List.mem_cons.1 he with h1 | h1
            · simpa [h1] using hl
            · exact Nat.lt_trans hl (hlt e h1)
      subst hxy
      have hbc : b = c := by simpa [Memory.read] using hr x
      subst hbc
      have : m = m' := by
        apply ih m' hm hm'
        intro a
        by_cases ha : a = x
        · subst ha; rw [Memory.read_of_lt m a hlt, Memory.read_of_lt m' a hlt']
        · simpa [Memory.read, ha] using hr a
      rw [this]

/-- Writing the same byte twice leaves the store as writing it once. -/
theorem Memory.write_write_same (m : Memory) (h : Memory.wf m = true) (a : Nat) (b : Byte) :
    Memory.write (Memory.write m a b) a b = Memory.write m a b := by
  have h1 := Memory.write_wf m h a b
  refine Memory.ext_of_wf _ _ (Memory.write_wf _ h1 a b) h1 fun x => ?_
  rw [Memory.read_write _ h1, Memory.read_write m h]
  split <;> rfl

end Sys2Proof.Machine
end

