-- ==== Sys2Proof/Laws/Registers.lean ====
section
/-! SUPPORT. Bit fields, register addresses and 16-bit register fields. -/

namespace Sys2Proof.Machine

/-! ## Bit fields -/

theorem bits_lt (v hi lo : Nat) : bits v hi lo < 2 ^ (hi - lo + 1) := Nat.mod_lt _ (Nat.two_pow_pos _)

theorem bit_eq_testBit (v i : Nat) : bit v i = v.testBit i := by
  rw [Nat.testBit_eq_decide_div_mod_eq]; rfl

theorem wrapTo_lt (n : Nat) (v : Int) : wrapTo n v < 2 ^ n := by
  have h1 : (0 : Int) < 2 ^ n := by positivity
  have h2 := Int.emod_lt_of_pos v h1
  have h3 := Int.emod_nonneg v h1.ne'
  simp only [wrapTo]
  have : ((v % 2 ^ n).toNat : Int) < ((2 ^ n : Nat) : Int) := by
    rw [Int.toNat_of_nonneg h3]; push_cast; exact h2
  exact_mod_cast this

/-- `wrap16` of a value in range is the value. -/
theorem wrapTo_of_range (n : Nat) (v : Int) (h0 : 0 ≤ v) (h1 : v < 2 ^ n) : wrapTo n v = v := by
  simp only [wrapTo]
  rw [Int.emod_eq_of_lt h0 h1, Int.toNat_of_nonneg h0]

/-- `s8` of a byte lies in −128 to 127. -/
theorem s8_range (v : Nat) (h : v < 256) : -128 ≤ s8 v ∧ s8 v ≤ 127 := by
  simp only [s8, bit, decide_eq_true_eq]; constructor <;> split <;> omega

theorem rbNat_lt (rb : Memory) (a : Nat) : rbNat rb a < 256 := (Memory.read rb a).isLt

theorem rbNat16_lt (rb : Memory) (a : Nat) : rbNat16 rb a < 65536 := by
  have h1 := rbNat_lt rb a
  have h2 := rbNat_lt rb (a + 1)
  simp only [rbNat16]; omega

/-! ## Register addresses -/

theorem byteIndex_lt (addr : Nat) : byteIndex addr < 576 := by
  have h1 := (addrChan addr).isLt
  have h2 : addr % 64 < 64 := Nat.mod_lt _ (by decide)
  simp only [byteIndex, addrOffset]; omega

theorem opByteIndex_lt (c : ChanId) (k : OpId) (r : Nat) (h : r < 8) : opByteIndex c k r < 576 := by
  have h1 := c.isLt
  have h2 := k.isLt
  simp only [opByteIndex]; omega

theorem chByteIndex_lt (c : ChanId) (j : Nat) (h : j < 32) : chByteIndex c j < 576 := by
  have h1 := c.isLt
  simp only [chByteIndex]; omega

theorem chByteIndex_inj (c d : ChanId) (i j : Nat) (hi : i < 32) (hj : j < 32) :
    chByteIndex c i = chByteIndex d j ↔ c = d ∧ i = j := by
  constructor
  · intro h
    simp only [chByteIndex] at h
    exact ⟨Fin.ext (by omega), by omega⟩
  · rintro ⟨rfl, rfl⟩; rfl

theorem opByteIndex_ne_chByteIndex (c d : ChanId) (k : OpId) (r j : Nat) (hr : r < 8) (hj : j < 32) :
    opByteIndex c k r ≠ chByteIndex d j := by
  have h2 := k.isLt
  simp only [opByteIndex, chByteIndex]; omega

/-! ## 16-bit register fields -/

theorem rbWrite16_wf (rb : Memory) (h : Memory.wf rb = true) (a v : Nat) : Memory.wf (rbWrite16 rb a v) = true :=
  Memory.write_wf _ (Memory.write_wf _ h _ _) _ _

theorem rbWrite16_below (n : Nat) (rb : Memory) (h : Memory.below n rb = true) (a v : Nat) (ha : a + 1 < n) :
    Memory.below n (rbWrite16 rb a v) = true :=
  Memory.write_below n _ (Memory.write_below n _ h a (by omega) _) _ ha _

theorem rbWrite16_read_other (rb : Memory) (a v x : Nat) (h0 : x ≠ a) (h1 : x ≠ a + 1) :
    Memory.read (rbWrite16 rb a v) x = Memory.read rb x := by
  simp only [rbWrite16]
  rw [Memory.read_write_other _ _ _ _ h1, Memory.read_write_other _ _ _ _ h0]

/-- A 16-bit field reads back as it was stored. -/
theorem rbNat16_rbWrite16 (rb : Memory) (h : Memory.wf rb = true) (a v : Nat) (hv : v < 65536) :
    rbNat16 (rbWrite16 rb a v) a = v := by
  have hw := Memory.write_wf rb h a (BitVec.ofNat 8 (v % 256))
  simp only [rbNat16, rbNat, rbWrite16]
  rw [Memory.read_write_other _ _ _ a (by omega), Memory.read_write_same _ h, Memory.read_write_same _ hw]
  simp only [BitVec.toNat_ofNat]
  omega

/-! ## The PCM fractional position -/

/-- A sum that fits the 32 bits is what `PCMFRAC` holds. -/
theorem fracSum_toNat (frac : BitVec 32) (freq : Nat) (h : frac.toNat + freq < 2 ^ 32) :
    (fracSum frac freq).toNat = frac.toNat + freq := by
  rw [fracSum, if_pos h, BitVec.toNat_ofNat, Nat.mod_eq_of_lt h]

end Sys2Proof.Machine
end

