-- ==== Sys2Proof/Laws/State.lean ====
section
/-! SUPPORT. One lemma per field per update of State, ChanState, OpState and Globals. -/

namespace Sys2Proof.Machine

/-! ## Replacing a channel -/

section SetChan
variable (s : State) (c d : ChanId) (ch : ChanState)

@[simp] theorem State.setChan_chan_same : (s.setChan c ch).chan c = ch := by simp [State.setChan, State.chan]

@[simp] theorem State.setChan_chan_ne (h : d ≠ c) : (s.setChan c ch).chan d = s.chan d := by
  have : (c : Nat) ≠ d := fun e => h (Fin.ext e.symm)
  simp [State.setChan, State.chan, this]

@[simp] theorem State.setChan_rb : (s.setChan c ch).rb = s.rb := rfl
@[simp] theorem State.setChan_pcm : (s.setChan c ch).pcm = s.pcm := rfl
@[simp] theorem State.setChan_mute : (s.setChan c ch).mute = s.mute := rfl
@[simp] theorem State.setChan_glob : (s.setChan c ch).glob = s.glob := rfl
@[simp] theorem State.setChan_stream : (s.setChan c ch).stream = s.stream := rfl
@[simp] theorem State.setChan_response : (s.setChan c ch).response = s.response := rfl
@[simp] theorem State.setChan_refusalMark : (s.setChan c ch).refusalMark = s.refusalMark := rfl

end SetChan

/-! ## Replacing the register bank -/

section SetRb
variable (s : State) (rb : Memory) (c : ChanId)

@[simp] theorem State.setRb_rb : (s.setRb rb).rb = rb := rfl
@[simp] theorem State.setRb_pcm : (s.setRb rb).pcm = s.pcm := rfl
@[simp] theorem State.setRb_chans : (s.setRb rb).chans = s.chans := rfl
@[simp] theorem State.setRb_chan : (s.setRb rb).chan c = s.chan c := rfl
@[simp] theorem State.setRb_mute : (s.setRb rb).mute = s.mute := rfl
@[simp] theorem State.setRb_glob : (s.setRb rb).glob = s.glob := rfl
@[simp] theorem State.setRb_stream : (s.setRb rb).stream = s.stream := rfl
@[simp] theorem State.setRb_response : (s.setRb rb).response = s.response := rfl
@[simp] theorem State.setRb_refusalMark : (s.setRb rb).refusalMark = s.refusalMark := rfl

end SetRb

/-! ## The command port -/

section Port
variable (s : State) (r : Response) (c : ChanId)

@[simp] theorem State.complete_rb : (s.complete r).rb = s.rb := rfl
@[simp] theorem State.complete_pcm : (s.complete r).pcm = s.pcm := rfl
@[simp] theorem State.complete_chans : (s.complete r).chans = s.chans := rfl
@[simp] theorem State.complete_chan : (s.complete r).chan c = s.chan c := rfl
@[simp] theorem State.complete_mute : (s.complete r).mute = s.mute := rfl
@[simp] theorem State.complete_glob : (s.complete r).glob = s.glob := rfl
@[simp] theorem State.complete_stream : (s.complete r).stream = s.stream.tail := rfl
@[simp] theorem State.complete_response : (s.complete r).response = r := rfl
@[simp] theorem State.complete_refusalMark : (s.complete r).refusalMark = s.refusalMark := rfl

@[simp] theorem State.refuseWord_rb : s.refuseWord.rb = s.rb := rfl
@[simp] theorem State.refuseWord_pcm : s.refuseWord.pcm = s.pcm := rfl
@[simp] theorem State.refuseWord_chans : s.refuseWord.chans = s.chans := rfl
@[simp] theorem State.refuseWord_chan : s.refuseWord.chan c = s.chan c := rfl
@[simp] theorem State.refuseWord_mute : s.refuseWord.mute = s.mute := rfl
@[simp] theorem State.refuseWord_glob : s.refuseWord.glob = s.glob := rfl
@[simp] theorem State.refuseWord_stream : s.refuseWord.stream = s.stream.tail := rfl
@[simp] theorem State.refuseWord_response : s.refuseWord.response = .nothing := rfl
@[simp] theorem State.refuseWord_refusalMark : s.refuseWord.refusalMark = true := rfl

theorem State.complete_sameBlock : SameBlock s (s.complete r) := ⟨rfl, rfl, rfl, rfl, rfl⟩

theorem State.refuseWord_sameBlock : SameBlock s s.refuseWord := ⟨rfl, rfl, rfl, rfl, rfl⟩

end Port

/-! ## Operators of a channel -/

section SetOp
variable (ch : ChanState) (k j : OpId) (o : OpState)

@[simp] theorem ChanState.setOp_op_same : (ch.setOp k o).op k = o := by simp [ChanState.setOp, ChanState.op]

@[simp] theorem ChanState.setOp_op_ne (h : j ≠ k) : (ch.setOp k o).op j = ch.op j := by
  have : (k : Nat) ≠ j := fun e => h (Fin.ext e.symm)
  simp [ChanState.setOp, ChanState.op, this]

@[simp] theorem ChanState.setOp_fb1 : (ch.setOp k o).fb1 = ch.fb1 := rfl
@[simp] theorem ChanState.setOp_fb2 : (ch.setOp k o).fb2 = ch.fb2 := rfl
@[simp] theorem ChanState.setOp_flow : (ch.setOp k o).flow = ch.flow := rfl
@[simp] theorem ChanState.setOp_fband : (ch.setOp k o).fband = ch.fband := rfl
@[simp] theorem ChanState.setOp_fhigh : (ch.setOp k o).fhigh = ch.fhigh := rfl
@[simp] theorem ChanState.setOp_swtFreq : (ch.setOp k o).swtFreq = ch.swtFreq := rfl
@[simp] theorem ChanState.setOp_swtVol : (ch.setOp k o).swtVol = ch.swtVol := rfl
@[simp] theorem ChanState.setOp_swtCut : (ch.setOp k o).swtCut = ch.swtCut := rfl
@[simp] theorem ChanState.setOp_rstCnt : (ch.setOp k o).rstCnt = ch.rstCnt := rfl
@[simp] theorem ChanState.setOp_pcmFrac : (ch.setOp k o).pcmFrac = ch.pcmFrac := rfl
@[simp] theorem ChanState.setOp_prevRaw : (ch.setOp k o).prevRaw = ch.prevRaw := rfl

end SetOp

section MapOps
variable (f : OpId → OpState → OpState) (ch : ChanState) (k : OpId)

@[simp] theorem ChanState.mapOps_op : (ch.mapOps f).op k = f k (ch.op k) := by
  match k with
  | 0 => rfl
  | 1 => rfl
  | 2 => rfl
  | 3 => rfl

@[simp] theorem ChanState.mapOps_fb1 : (ch.mapOps f).fb1 = ch.fb1 := rfl
@[simp] theorem ChanState.mapOps_fb2 : (ch.mapOps f).fb2 = ch.fb2 := rfl
@[simp] theorem ChanState.mapOps_flow : (ch.mapOps f).flow = ch.flow := rfl
@[simp] theorem ChanState.mapOps_fband : (ch.mapOps f).fband = ch.fband := rfl
@[simp] theorem ChanState.mapOps_fhigh : (ch.mapOps f).fhigh = ch.fhigh := rfl
@[simp] theorem ChanState.mapOps_swtFreq : (ch.mapOps f).swtFreq = ch.swtFreq := rfl
@[simp] theorem ChanState.mapOps_swtVol : (ch.mapOps f).swtVol = ch.swtVol := rfl
@[simp] theorem ChanState.mapOps_swtCut : (ch.mapOps f).swtCut = ch.swtCut := rfl
@[simp] theorem ChanState.mapOps_rstCnt : (ch.mapOps f).rstCnt = ch.rstCnt := rfl
@[simp] theorem ChanState.mapOps_pcmFrac : (ch.mapOps f).pcmFrac = ch.pcmFrac := rfl
@[simp] theorem ChanState.mapOps_prevRaw : (ch.mapOps f).prevRaw = ch.prevRaw := rfl

end MapOps

section ClearFilter
variable (ch : ChanState) (k : OpId)

@[simp] theorem ChanState.clearFilter_ops : ch.clearFilter.ops = ch.ops := rfl
@[simp] theorem ChanState.clearFilter_op : ch.clearFilter.op k = ch.op k := rfl
@[simp] theorem ChanState.clearFilter_fb1 : ch.clearFilter.fb1 = ch.fb1 := rfl
@[simp] theorem ChanState.clearFilter_fb2 : ch.clearFilter.fb2 = ch.fb2 := rfl
@[simp] theorem ChanState.clearFilter_flow : ch.clearFilter.flow = 0 := rfl
@[simp] theorem ChanState.clearFilter_fband : ch.clearFilter.fband = 0 := rfl
@[simp] theorem ChanState.clearFilter_fhigh : ch.clearFilter.fhigh = 0 := rfl
@[simp] theorem ChanState.clearFilter_swtFreq : ch.clearFilter.swtFreq = ch.swtFreq := rfl
@[simp] theorem ChanState.clearFilter_swtVol : ch.clearFilter.swtVol = ch.swtVol := rfl
@[simp] theorem ChanState.clearFilter_swtCut : ch.clearFilter.swtCut = ch.swtCut := rfl
@[simp] theorem ChanState.clearFilter_rstCnt : ch.clearFilter.rstCnt = ch.rstCnt := rfl
@[simp] theorem ChanState.clearFilter_pcmFrac : ch.clearFilter.pcmFrac = ch.pcmFrac := rfl
@[simp] theorem ChanState.clearFilter_prevRaw : ch.clearFilter.prevRaw = ch.prevRaw := rfl

end ClearFilter

/-! ## Sweep timers -/

section SweepTimers
variable (e e' : Sweep) (t : BitVec 16) (ch : ChanState) (k : OpId)

@[simp] theorem sweepTimer_setSweepTimer_same : sweepTimer e (setSweepTimer e t ch) = t := by cases e <;> rfl

@[simp] theorem sweepTimer_setSweepTimer_ne (h : e' ≠ e) :
    sweepTimer e' (setSweepTimer e t ch) = sweepTimer e' ch := by
  cases e <;> cases e' <;> first | rfl | exact absurd rfl h

@[simp] theorem setSweepTimer_ops : (setSweepTimer e t ch).ops = ch.ops := by cases e <;> rfl
@[simp] theorem setSweepTimer_op : (setSweepTimer e t ch).op k = ch.op k := by cases e <;> rfl
@[simp] theorem setSweepTimer_fb1 : (setSweepTimer e t ch).fb1 = ch.fb1 := by cases e <;> rfl
@[simp] theorem setSweepTimer_fb2 : (setSweepTimer e t ch).fb2 = ch.fb2 := by cases e <;> rfl
@[simp] theorem setSweepTimer_flow : (setSweepTimer e t ch).flow = ch.flow := by cases e <;> rfl
@[simp] theorem setSweepTimer_fband : (setSweepTimer e t ch).fband = ch.fband := by cases e <;> rfl
@[simp] theorem setSweepTimer_fhigh : (setSweepTimer e t ch).fhigh = ch.fhigh := by cases e <;> rfl
@[simp] theorem setSweepTimer_rstCnt : (setSweepTimer e t ch).rstCnt = ch.rstCnt := by cases e <;> rfl
@[simp] theorem setSweepTimer_pcmFrac : (setSweepTimer e t ch).pcmFrac = ch.pcmFrac := by cases e <;> rfl
@[simp] theorem setSweepTimer_prevRaw : (setSweepTimer e t ch).prevRaw = ch.prevRaw := by cases e <;> rfl

end SweepTimers

/-! ## The phase reset action and the noise seeds -/

section Reseed
variable (P : Params) (c : ChanId) (k : OpId) (o : OpState)

@[simp] theorem reseed_phase : (reseed P c k o).phase = o.phase := rfl
@[simp] theorem reseed_wrap : (reseed P c k o).wrap = o.wrap := rfl
@[simp] theorem reseed_att : (reseed P c k o).att = o.att := rfl
@[simp] theorem reseed_egs : (reseed P c k o).egs = o.egs := rfl
@[simp] theorem reseed_keyPend : (reseed P c k o).keyPend = o.keyPend := rfl
@[simp] theorem reseed_dly : (reseed P c k o).dly = o.dly := rfl
@[simp] theorem reseed_lfsr32 : (reseed P c k o).lfsr32 = P.seed32 c k := rfl
@[simp] theorem reseed_lfsr6 : (reseed P c k o).lfsr6 = P.seed6 c k := rfl
@[simp] theorem reseed_val : (reseed P c k o).val = o.val := rfl
@[simp] theorem reseed_prevOut : (reseed P c k o).prevOut = o.prevOut := rfl

end Reseed

/-! ## RESET -/

section Reset
variable (P : Params) (s : State)

@[simp] theorem State.resetBlock_rb : (s.resetBlock P).rb = [] := rfl
@[simp] theorem State.resetBlock_pcm : (s.resetBlock P).pcm = if P.resetClearsPcm then [] else s.pcm := rfl
@[simp] theorem State.resetBlock_chans : (s.resetBlock P).chans = chansAfterReset P := rfl
@[simp] theorem State.resetBlock_mute : (s.resetBlock P).mute = if P.resetClearsMute then noMute else s.mute := rfl
@[simp] theorem State.resetBlock_glob : (s.resetBlock P).glob = .zero := rfl
@[simp] theorem State.resetBlock_stream : (s.resetBlock P).stream = s.stream := rfl
@[simp] theorem State.resetBlock_response : (s.resetBlock P).response = s.response := rfl
@[simp] theorem State.resetBlock_refusalMark : (s.resetBlock P).refusalMark = s.refusalMark := rfl

/-- An operator of the reset channels is the operator after RESET. -/
theorem chansAfterReset_op (c : ChanId) (k : OpId) :
    ((chansAfterReset P)[c]).op k = OpState.afterReset P c k := by
  fin_cases c <;> fin_cases k <;> rfl

end Reset

/-! ## The start of the channel steps -/

section Before
variable (P : Params) (s : State)

@[simp] theorem State.beforeChannels_rb : (s.beforeChannels P).rb = s.rb := rfl
@[simp] theorem State.beforeChannels_pcm : (s.beforeChannels P).pcm = s.pcm := rfl
@[simp] theorem State.beforeChannels_chan (c : ChanId) : (s.beforeChannels P).chan c = s.chan c := rfl
@[simp] theorem State.beforeChannels_mute : (s.beforeChannels P).mute = s.mute := rfl
@[simp] theorem State.beforeChannels_glob : (s.beforeChannels P).glob = advanceGlobals P s.glob := rfl
@[simp] theorem State.beforeChannels_stream : (s.beforeChannels P).stream = s.stream := rfl
@[simp] theorem State.beforeChannels_response : (s.beforeChannels P).response = s.response := rfl
@[simp] theorem State.beforeChannels_refusalMark : (s.beforeChannels P).refusalMark = s.refusalMark := rfl

end Before

end Sys2Proof.Machine
end

