-- ==== Sys2Proof/Laws/Frames.lean ====
section
/-! SUPPORT. What each stage of a channel step can change: one lemma per shared operation (10_state.md R38). -/

namespace Sys2Proof.Machine

/-! ## Register-bank writes of an ADVANCE -/

/-- A register bank after writes to channel `c`'s owned bytes: the canonical form and the address bound kept, every
other byte unchanged. -/
structure RbFrame (c : ChanId) (rb rb' : Memory) : Prop where
  wf : Memory.wf rb = true → Memory.wf rb' = true
  below : Memory.below 576 rb = true → Memory.below 576 rb' = true
  read : ∀ a, (∀ j ∈ advanceOwned, a ≠ chByteIndex c j) → Memory.read rb' a = Memory.read rb a

theorem RbFrame.refl (c : ChanId) (rb : Memory) : RbFrame c rb rb := ⟨id, id, fun _ _ => rfl⟩

theorem RbFrame.trans {c : ChanId} {r s t : Memory} (h1 : RbFrame c r s) (h2 : RbFrame c s t) : RbFrame c r t :=
  ⟨fun h => h2.wf (h1.wf h), fun h => h2.below (h1.below h), fun a h => (h2.read a h).trans (h1.read a h)⟩

theorem RbFrame.write (c : ChanId) (rb : Memory) (j : Nat) (hj : j ∈ advanceOwned) (b : Byte) :
    RbFrame c rb (Memory.write rb (chByteIndex c j) b) := by
  have hlt : j < 32 := by revert j; decide
  exact ⟨fun h => Memory.write_wf _ h _ _, fun h => Memory.write_below _ _ h _ (chByteIndex_lt c j hlt) _,
    fun a h => Memory.read_write_other _ _ _ _ (h j hj)⟩

theorem RbFrame.write16 (c : ChanId) (rb : Memory) (j v : Nat) (hj : j ∈ advanceOwned) (hj' : j + 1 ∈ advanceOwned) :
    RbFrame c rb (rbWrite16 rb (chByteIndex c j) v) :=
  (RbFrame.write c rb j hj _).trans (RbFrame.write c _ (j + 1) hj' _)

theorem pcmStep_frame (c : ChanId) (rb : Memory) : RbFrame c rb (pcmStep c rb) :=
  RbFrame.write16 c rb 0x0A _ (by decide) (by decide)

theorem pcmSteps_frame (c : ChanId) (n : Nat) (rb : Memory) : RbFrame c rb (pcmSteps c n rb) := by
  induction n generalizing rb with
  | zero => exact RbFrame.refl c rb
  | succ n ih => exact (pcmStep_frame c rb).trans (ih _)

theorem storeTarget_frame (e : Sweep) (c : ChanId) (t : Int) (rb : Memory) : RbFrame c rb (storeTarget e c t rb) := by
  cases e
  · exact RbFrame.write16 c rb 0x00 _ (by decide) (by decide)
  · exact RbFrame.write c rb 0x02 (by decide) _
  · exact RbFrame.write16 c rb 0x06 _ (by decide) (by decide)

theorem sweepFire_frame (e : Sweep) (c : ChanId) (rb : Memory) : RbFrame c rb (sweepFire e c rb) := by
  simp only [sweepFire]
  split
  · split
    · exact (storeTarget_frame e c _ rb).trans (RbFrame.write c _ _ (by cases e <;> decide) _)
    · exact storeTarget_frame e c _ rb
  · split <;> exact storeTarget_frame e c _ rb

/-! ## The state around a channel -/

/-- A state after work on channel `c`: the other channels, PCM memory, the mute flags, the global state and the command
port unchanged, the register bank changed in channel `c`'s owned bytes only. -/
structure ChanFrame (c : ChanId) (s t : State) : Prop where
  rb : RbFrame c s.rb t.rb
  chan : ∀ d, d ≠ c → t.chan d = s.chan d
  pcm : t.pcm = s.pcm
  mute : t.mute = s.mute
  glob : t.glob = s.glob
  stream : t.stream = s.stream
  response : t.response = s.response
  refusalMark : t.refusalMark = s.refusalMark

theorem ChanFrame.refl (c : ChanId) (s : State) : ChanFrame c s s :=
  ⟨RbFrame.refl c _, fun _ _ => rfl, rfl, rfl, rfl, rfl, rfl, rfl⟩

theorem ChanFrame.trans {c : ChanId} {r s t : State} (h1 : ChanFrame c r s) (h2 : ChanFrame c s t) : ChanFrame c r t :=
  ⟨h1.rb.trans h2.rb, fun d hd => (h2.chan d hd).trans (h1.chan d hd), h2.pcm.trans h1.pcm, h2.mute.trans h1.mute,
    h2.glob.trans h1.glob, h2.stream.trans h1.stream, h2.response.trans h1.response,
    h2.refusalMark.trans h1.refusalMark⟩

theorem ChanFrame.setChan (c : ChanId) (s : State) (ch : ChanState) : ChanFrame c s (s.setChan c ch) :=
  ⟨RbFrame.refl c _, fun d hd => by simp [hd], rfl, rfl, rfl, rfl, rfl, rfl⟩

theorem ChanFrame.setRb {c : ChanId} {s : State} {rb : Memory} (h : RbFrame c s.rb rb) : ChanFrame c s (s.setRb rb) :=
  ⟨h, fun _ _ => rfl, rfl, rfl, rfl, rfl, rfl, rfl⟩

theorem pcmAdvance_frame (P : Params) (c : ChanId) (s : State) : ChanFrame c s (pcmAdvance P c s) :=
  (ChanFrame.setChan c s _).trans (ChanFrame.setRb (pcmSteps_frame c _ s.rb))

theorem channelSource_frame (P : Params) (c : ChanId) (s : State) : ChanFrame c s (channelSource P c s).1 := by
  simp only [channelSource]
  split
  · exact pcmAdvance_frame P c s
  · exact ChanFrame.setChan c s _

theorem channelOutput_frame (P : Params) (c : ChanId) (s : State) (raw : Int) :
    ChanFrame c s (channelOutput P c s raw).1 := ChanFrame.setChan c s _

theorem sweep_frame (c : ChanId) (s : State) (e : Sweep) : ChanFrame c s (sweep c s e) := by
  simp only [sweep]
  split
  · split
    · exact (ChanFrame.setChan c s _).trans (ChanFrame.setRb (sweepFire_frame e c s.rb))
    · exact ChanFrame.setChan c s _
  · exact ChanFrame.refl c s

theorem sweeps_frame (c : ChanId) (s : State) : ChanFrame c s (sweeps c s) :=
  ((sweep_frame c s .freq).trans (sweep_frame c _ .vol)).trans (sweep_frame c _ .cut)

theorem phaseResets_frame (P : Params) (c : ChanId) (s : State) : ChanFrame c s (phaseResets P c s) := by
  simp only [phaseResets]
  refine (ChanFrame.setChan c s _).trans (ChanFrame.setRb ?_)
  simp only [State.setChan_rb]
  split
  · exact RbFrame.write c _ _ (by decide) _
  · exact RbFrame.refl c _

/-- A channel step changes its own channel and its owned bytes only. -/
theorem channelStep_frame (P : Params) (c : ChanId) (s : State) : ChanFrame c s (channelStep P c s).1 :=
  (((channelSource_frame P c s).trans (channelOutput_frame P c _ _)).trans (sweeps_frame c _)).trans
    (phaseResets_frame P c _)

/-! ## All channels -/

/-- A state after work on channels: PCM memory, the mute flags, the global state and the command port unchanged, the
register bank changed in owned bytes of some channel only. -/
structure BlockFrame (s t : State) : Prop where
  wf : Memory.wf s.rb = true → Memory.wf t.rb = true
  below : Memory.below 576 s.rb = true → Memory.below 576 t.rb = true
  read : ∀ a, (∀ c : ChanId, ∀ j ∈ advanceOwned, a ≠ chByteIndex c j) → Memory.read t.rb a = Memory.read s.rb a
  pcm : t.pcm = s.pcm
  mute : t.mute = s.mute
  glob : t.glob = s.glob
  stream : t.stream = s.stream
  response : t.response = s.response
  refusalMark : t.refusalMark = s.refusalMark

theorem ChanFrame.block {c : ChanId} {s t : State} (h : ChanFrame c s t) : BlockFrame s t :=
  ⟨h.rb.wf, h.rb.below, fun a ha => h.rb.read a (ha c), h.pcm, h.mute, h.glob, h.stream, h.response, h.refusalMark⟩

theorem BlockFrame.refl (s : State) : BlockFrame s s := (ChanFrame.refl 0 s).block

theorem BlockFrame.trans {r s t : State} (h1 : BlockFrame r s) (h2 : BlockFrame s t) : BlockFrame r t :=
  ⟨fun h => h2.wf (h1.wf h), fun h => h2.below (h1.below h), fun a h => (h2.read a h).trans (h1.read a h),
    h2.pcm.trans h1.pcm, h2.mute.trans h1.mute, h2.glob.trans h1.glob, h2.stream.trans h1.stream,
    h2.response.trans h1.response, h2.refusalMark.trans h1.refusalMark⟩

theorem runChannels_frame (P : Params) (cs : List ChanId) (s : State) : BlockFrame s (runChannels P cs s).1 := by
  induction cs generalizing s with
  | nil => exact BlockFrame.refl s
  | cons c cs ih => exact (channelStep_frame P c s).block.trans (ih _)

/-- The channels of the contributions, in order. -/
theorem runChannels_fst (P : Params) (cs : List ChanId) (s : State) :
    ((runChannels P cs s).2.map fun e => e.1) = cs := by
  induction cs generalizing s with
  | nil => rfl
  | cons c cs ih => simpa [runChannels] using ih _

/-- A channel not in the list is left alone. -/
theorem runChannels_chan_of_not_mem (P : Params) (cs : List ChanId) (s : State) (d : ChanId) (h : d ∉ cs) :
    (runChannels P cs s).1.chan d = s.chan d := by
  induction cs generalizing s with
  | nil => rfl
  | cons c cs ih =>
    simp only [List.mem_cons, not_or] at h
    exact (ih _ h.2).trans ((channelStep_frame P c s).chan d h.1)

theorem commitRaws_rb (outs : List (ChanId × ChanOut)) (s : State) : (commitRaws outs s).rb = s.rb := by
  induction outs generalizing s with
  | nil => rfl
  | cons e outs ih => exact (ih _).trans rfl

theorem commitRaws_frame (outs : List (ChanId × ChanOut)) (s : State) : BlockFrame s (commitRaws outs s) := by
  induction outs generalizing s with
  | nil => exact BlockFrame.refl s
  | cons e outs ih => exact ((ChanFrame.setChan e.1 s _).block).trans (ih _)

/-- Committing the raw samples changes no channel but in `PREVRAW`. -/
theorem commitRaws_chan (outs : List (ChanId × ChanOut)) (s : State) (d : ChanId) :
    ∃ raw, (commitRaws outs s).chan d = { s.chan d with prevRaw := raw } := by
  induction outs generalizing s with
  | nil => exact ⟨_, rfl⟩
  | cons e outs ih =>
    obtain ⟨raw, h⟩ := ih (s.setChan e.1 { s.chan e.1 with prevRaw := e.2.raw })
    refine ⟨raw, h.trans ?_⟩
    by_cases hd : d = e.1
    · subst hd; simp
    · simp [hd]

/-! ## ADVANCE -/

/-- ADVANCE on the block: the mute flags, PCM memory and the command port unchanged, the register bank changed in owned
bytes only. -/
structure AdvanceFrame (s t : State) : Prop where
  wf : Memory.wf s.rb = true → Memory.wf t.rb = true
  below : Memory.below 576 s.rb = true → Memory.below 576 t.rb = true
  read : ∀ a, (∀ c : ChanId, ∀ j ∈ advanceOwned, a ≠ chByteIndex c j) → Memory.read t.rb a = Memory.read s.rb a
  pcm : t.pcm = s.pcm
  mute : t.mute = s.mute
  stream : t.stream = s.stream
  response : t.response = s.response
  refusalMark : t.refusalMark = s.refusalMark

theorem advance_frame (P : Params) (s : State) : AdvanceFrame s (advance P s).1 := by
  have h := (runChannels_frame P channels { s with glob := advanceGlobals P s.glob }).trans
    (commitRaws_frame (runChannels P channels { s with glob := advanceGlobals P s.glob }).2 _)
  simp only [advance]
  generalize runChannels P channels { s with glob := advanceGlobals P s.glob } = r at h
  exact ⟨h.wf, h.below, h.read, h.pcm, h.mute, h.stream, h.response, h.refusalMark⟩

/-- The global state after an ADVANCE: the LFO and `ENVCNT` stepped, the DC blocker's terms the mixer's. -/
theorem advance_glob (P : Params) (s : State) :
    ((advance P s).1.glob.amCnt = (advanceGlobals P s.glob).amCnt) ∧
    ((advance P s).1.glob.pmCnt = (advanceGlobals P s.glob).pmCnt) ∧
    ((advance P s).1.glob.amVal = (advanceGlobals P s.glob).amVal) ∧
    ((advance P s).1.glob.pmVal = (advanceGlobals P s.glob).pmVal) ∧
    ((advance P s).1.glob.envCnt = (advanceGlobals P s.glob).envCnt) := by
  have hg := ((runChannels_frame P channels { s with glob := advanceGlobals P s.glob }).trans
    (commitRaws_frame (runChannels P channels { s with glob := advanceGlobals P s.glob }).2 _)).glob
  simp only [advance, mix, hg, and_self]

end Sys2Proof.Machine
end

