-- ==== Sys2Proof/Laws/Ranges.lean ====
section
/-! SUPPORT. The operator and channel ranges through each stage of a command, and the noise registers. -/

namespace Sys2Proof.Machine

/-! ## The envelope keeps its ranges -/

theorem envPending_inv (P : Params) (o : OpState) (h : o.Inv P) : (envPending o).Inv P := by
  obtain ⟨ha, hd⟩ := h
  simp only [envPending]
  split
  · split
    · exact ⟨ha, hd⟩
    · next hz =>
      refine ⟨ha, ?_⟩
      have : o.dly.toNat ≠ 0 := fun e => hz (BitVec.eq_of_toNat_eq e)
      have hs : (o.dly - 1).toNat = o.dly.toNat - 1 := by
        rw [BitVec.toNat_sub_of_le] <;> simp [BitVec.le_def]; omega
      show (o.dly - 1).toNat ≤ _
      rw [hs]; omega
  · exact ⟨ha, hd⟩

theorem envUpdate_inv (P : Params) (rate n : Nat) (o : OpState) (h : o.Inv P) : (envUpdate P rate n o).Inv P := by
  obtain ⟨ha, hd⟩ := h
  simp only [envUpdate]
  split
  · split
    · exact ⟨Nat.zero_le _, hd⟩
    · exact ⟨le_trans (Nat.sub_le _ _) ha, hd⟩
  · exact ⟨Nat.min_le_left _ _, hd⟩

/-- The transitions change `EGS` only. -/
theorem envTransitions_eq (P : Params) (sl : Nat) (o : OpState) :
    ∃ e, envTransitions P sl o = { o with egs := e } := by
  by_cases h1 : o.egs = .attack ∧ o.att = 0
  · by_cases h2 : P.slAtt sl ≤ o.att
    · exact ⟨.sustain, by simp only [envTransitions, if_pos h1]; simp [h2]⟩
    · exact ⟨.decay, by simp only [envTransitions, if_pos h1]; simp [h2]⟩
  · by_cases h2 : o.egs = .decay ∧ P.slAtt sl ≤ o.att
    · exact ⟨.sustain, by simp only [envTransitions, if_neg h1, if_pos h2]⟩
    · exact ⟨o.egs, by simp only [envTransitions, if_neg h1, if_neg h2]⟩

theorem envTransitions_inv (P : Params) (sl : Nat) (o : OpState) (h : o.Inv P) : (envTransitions P sl o).Inv P := by
  obtain ⟨e, he⟩ := envTransitions_eq P sl o
  rw [he]; exact ⟨h.att, h.dly⟩

theorem envEval_inv (P : Params) (rb : Memory) (g : Globals) (c : ChanId) (k : OpId) (o : OpState) (h : o.Inv P) :
    (envEval P rb g c k o).Inv P :=
  envTransitions_inv P _ _ (envUpdate_inv P _ _ _ (envPending_inv P o h))

/-- The envelope changes no phase and no noise register. -/
theorem envEval_phase (P : Params) (rb : Memory) (g : Globals) (c : ChanId) (k : OpId) (o : OpState) :
    (envEval P rb g c k o).phase = o.phase ∧ (envEval P rb g c k o).wrap = o.wrap ∧
      (envEval P rb g c k o).lfsr32 = o.lfsr32 ∧ (envEval P rb g c k o).lfsr6 = o.lfsr6 ∧
      (envEval P rb g c k o).val = o.val ∧ (envEval P rb g c k o).prevOut = o.prevOut := by
  have hp : ∀ o : OpState, (envPending o).phase = o.phase ∧ (envPending o).wrap = o.wrap ∧
      (envPending o).lfsr32 = o.lfsr32 ∧ (envPending o).lfsr6 = o.lfsr6 ∧ (envPending o).val = o.val ∧
      (envPending o).prevOut = o.prevOut := by
    intro o; simp only [envPending]; split <;> (try split) <;> simp
  have hu : ∀ (r n : Nat) (o : OpState), (envUpdate P r n o).phase = o.phase ∧ (envUpdate P r n o).wrap = o.wrap ∧
      (envUpdate P r n o).lfsr32 = o.lfsr32 ∧ (envUpdate P r n o).lfsr6 = o.lfsr6 ∧ (envUpdate P r n o).val = o.val ∧
      (envUpdate P r n o).prevOut = o.prevOut := by
    intro r n o; simp only [envUpdate]; split <;> (try split) <;> simp
  simp only [envEval]
  obtain ⟨e, he⟩ := envTransitions_eq P (fSl rb c k)
    (envUpdate P (envRate P rb c k (envPending o).egs) g.envCnt.toNat (envPending o))
  rw [he]
  obtain ⟨h1, h2, h3, h4, h5, h6⟩ := hu (envRate P rb c k (envPending o).egs) g.envCnt.toNat (envPending o)
  obtain ⟨p1, p2, p3, p4, p5, p6⟩ := hp o
  exact ⟨h1.trans p1, h2.trans p2, h3.trans p3, h4.trans p4, h5.trans p5, h6.trans p6⟩

theorem moveOperator_inv (P : Params) (rb : Memory) (g : Globals) (c : ChanId) (snap : VoiceSnapshot) (k : OpId)
    (o : OpState) (h : o.Inv P) : (moveOperator P rb g c snap k o).op.Inv P := by
  simp only [moveOperator]
  split <;> exact ⟨h.att, h.dly⟩

theorem keyOn_inv (P : Params) (rb : Memory) (c : ChanId) (k : OpId) (o : OpState) (h : o.Inv P) :
    (keyOn rb c k o).Inv P := by
  refine ⟨h.att, ?_⟩
  have hd : fDelay rb c k ≤ 7 := by
    have : bits (opByte rb c k 4) 7 5 < 8 := bits_lt _ 7 5
    simpa [fDelay] using Nat.le_of_lt_succ this
  have hp : 2 ^ fDelay rb c k ≤ 2 ^ 7 := Nat.pow_le_pow_right (by decide) hd
  simp only [keyOn]
  split
  · simp only [BitVec.toNat_ofNat]
    exact le_trans (Nat.mod_le _ _) (by omega)
  · simp

theorem keyOff_inv (P : Params) (o : OpState) (h : o.Inv P) : (keyOff o).Inv P := ⟨h.att, by simp [keyOff]⟩

/-! ## Channels -/

/-- The ranges of a channel's transient state. -/
structure ChanState.Inv (P : Params) (ch : ChanState) : Prop where
  ops : ∀ k, (ch.op k).Inv P
  frac : ch.pcmFrac.toNat < P.pcmThresh

theorem gateEdge_inv (P : Params) (rb : Memory) (c : ChanId) (old new : Bool) (ch : ChanState) (h : ch.Inv P) :
    (gateEdge rb c old new ch).Inv P := by
  simp only [gateEdge]
  split
  · exact ⟨fun k => by simpa using keyOn_inv P rb c k _ (h.ops k), h.frac⟩
  · split
    · exact ⟨fun k => by simpa using keyOff_inv P _ (h.ops k), h.frac⟩
    · exact h

/-- What recording a value changes. -/
theorem recordValue_op (k j : OpId) (o : OpState) (v : Int) (ch : ChanState) :
    (recordValue k o v ch).op j = if j = k then { o with val := v, prevOut := v } else ch.op j := by
  simp only [recordValue]
  split
  · show (ch.setOp k _).op j = _
    split
    · next h => subst h; simp
    · next h => simp [h]
  · split
    · next h => subst h; simp
    · next h => simp [h]

theorem recordValue_rest (k : OpId) (o : OpState) (v : Int) (ch : ChanState) :
    (recordValue k o v ch).flow = ch.flow ∧ (recordValue k o v ch).fband = ch.fband ∧
      (recordValue k o v ch).fhigh = ch.fhigh ∧ (recordValue k o v ch).swtFreq = ch.swtFreq ∧
      (recordValue k o v ch).swtVol = ch.swtVol ∧ (recordValue k o v ch).swtCut = ch.swtCut ∧
      (recordValue k o v ch).rstCnt = ch.rstCnt ∧ (recordValue k o v ch).pcmFrac = ch.pcmFrac ∧
      (recordValue k o v ch).prevRaw = ch.prevRaw := by
  simp only [recordValue]; split <;> simp

theorem evalOperator_inv (P : Params) (rb pcm : Memory) (g : Globals) (c : ChanId) (snap : VoiceSnapshot)
    (acc : ChanState × Int) (k : OpId) (h : acc.1.Inv P) : (evalOperator P rb pcm g c snap acc k).1.Inv P := by
  simp only [evalOperator]
  refine ⟨fun j => ?_, ?_⟩
  · rw [recordValue_op]
    split
    · have := envEval_inv P rb g c k _ (moveOperator_inv P rb g c snap k _ (h.ops k))
      exact ⟨this.att, this.dly⟩
    · exact h.ops j
  · rw [(recordValue_rest k _ _ acc.1).2.2.2.2.2.2.2.1]; exact h.frac

theorem voice_inv (P : Params) (rb pcm : Memory) (g : Globals) (c : ChanId) (ch : ChanState) (h : ch.Inv P) :
    (voice P rb pcm g c ch).1.Inv P := by
  simp only [voice, operators, List.foldl]
  exact evalOperator_inv P _ _ _ _ _ _ _ (evalOperator_inv P _ _ _ _ _ _ _ (evalOperator_inv P _ _ _ _ _ _ _
    (evalOperator_inv P _ _ _ _ _ _ _ h)))

theorem setSweepTimer_inv (P : Params) (e : Sweep) (t : BitVec 16) (ch : ChanState) (h : ch.Inv P) :
    (setSweepTimer e t ch).Inv P := by cases e <;> exact ⟨h.ops, h.frac⟩

theorem clearFilter_inv (P : Params) (ch : ChanState) (h : ch.Inv P) : ch.clearFilter.Inv P := ⟨h.ops, h.frac⟩

theorem filterStage_inv (P : Params) (rb : Memory) (c : ChanId) (x : Int) (ch : ChanState) (h : ch.Inv P) :
    (filterStage P rb c x ch).1.Inv P := by
  simp only [filterStage]; split <;> exact ⟨h.ops, h.frac⟩

theorem mutePan_inv (P : Params) (m : Bool) (pan y : Int) (ch : ChanState) (h : ch.Inv P) :
    (mutePan P m pan y ch).1.Inv P := by
  simp only [mutePan]; split <;> exact ⟨h.ops, h.frac⟩

theorem phaseResetAction_inv (P : Params) (c : ChanId) (f : Bool) (ch : ChanState) (h : ch.Inv P) :
    (phaseResetAction P c f ch).Inv P := by
  have h' : (ch.mapOps fun k o => reseed P c k { o with phase := 0, wrap := false }).Inv P :=
    ⟨fun k => by
      rw [ChanState.mapOps_op]; exact ⟨(h.ops k).att, (h.ops k).dly⟩, h.frac⟩
  simp only [phaseResetAction]; split
  · exact clearFilter_inv P _ h'
  · exact h'

theorem pcmAdvance_inv (P : Params) (c : ChanId) (s : State) (h : (s.chan c).Inv P) :
    ((pcmAdvance P c s).chan c).Inv P := by
  simp only [pcmAdvance, State.setRb_chan, State.setChan_chan_same]
  refine ⟨h.ops, ?_⟩
  have hp := P.pcmThresh_pos
  simp only [BitVec.toNat_ofNat]
  exact lt_of_le_of_lt (Nat.mod_le _ _) (Nat.mod_lt _ hp)

theorem channelSource_inv (P : Params) (c : ChanId) (s : State) (h : (s.chan c).Inv P) :
    ((channelSource P c s).1.chan c).Inv P := by
  simp only [channelSource]
  split
  · exact pcmAdvance_inv P c s h
  · simpa using voice_inv P _ _ _ c _ h

theorem channelOutput_inv (P : Params) (c : ChanId) (s : State) (raw : Int) (h : (s.chan c).Inv P) :
    ((channelOutput P c s raw).1.chan c).Inv P := by
  simp only [channelOutput, State.setChan_chan_same]
  exact mutePan_inv P _ _ _ _ (filterStage_inv P _ _ _ _ h)

theorem sweep_inv (P : Params) (c : ChanId) (s : State) (e : Sweep) (h : (s.chan c).Inv P) :
    ((sweep c s e).chan c).Inv P := by
  simp only [sweep]
  split
  · split
    · simpa using setSweepTimer_inv P e _ _ h
    · simpa using setSweepTimer_inv P e _ _ h
  · exact h

theorem phaseResets_inv (P : Params) (c : ChanId) (s : State) (h : (s.chan c).Inv P) :
    ((phaseResets P c s).chan c).Inv P := by
  simp only [phaseResets, State.setRb_chan, State.setChan_chan_same]
  have h' : ∀ cnt, ({ s.chan c with rstCnt := cnt } : ChanState).Inv P := fun cnt => ⟨h.ops, h.frac⟩
  generalize (if fTimerSync s.rb c = true then _ else _ : BitVec 16) = cnt
  split
  · exact phaseResetAction_inv P c _ _ (h' _)
  · exact h' _

theorem channelStep_inv (P : Params) (c : ChanId) (s : State) (h : (s.chan c).Inv P) :
    ((channelStep P c s).1.chan c).Inv P := by
  simp only [channelStep, sweeps, List.foldl]
  exact phaseResets_inv P c _ (sweep_inv P c _ _ (sweep_inv P c _ _ (sweep_inv P c _ _
    (channelOutput_inv P c _ _ (channelSource_inv P c s h)))))

theorem runChannels_inv (P : Params) (cs : List ChanId) (s : State) (h : ∀ d, (s.chan d).Inv P) :
    ∀ d, ((runChannels P cs s).1.chan d).Inv P := by
  induction cs generalizing s with
  | nil => exact h
  | cons c cs ih =>
    refine ih _ fun d => ?_
    by_cases hd : d = c
    · subst hd; exact channelStep_inv P d s (h d)
    · rw [(channelStep_frame P c s).chan d hd]; exact h d

/-! ## The noise registers never die (43_waveform.md R277, R278) -/

theorem clock32_ne_zero (s : BitVec 32) (h : s ≠ 0) : clock32 s ≠ 0 := by
  intro hz
  apply h
  have hb : ∀ i, (clock32 s).getLsbD i = false := by intro i; rw [hz]; simp
  have hs : ∀ i, 1 ≤ i → i < 32 → s.getLsbD i = false := by
    intro i h1 h2
    have := hb (i - 1)
    simp only [clock32, BitVec.getLsbD_or, BitVec.getLsbD_ushiftRight, Bool.or_eq_false_iff] at this
    rw [show 1 + (i - 1) = i by omega] at this
    exact this.1
  have h31 := hb 31
  simp only [clock32, BitVec.getLsbD_or, Bool.or_eq_false_iff, hs 2 (by decide) (by decide),
    hs 3 (by decide) (by decide), hs 5 (by decide) (by decide), Bool.xor_false] at h31
  have h0 : s.getLsbD 0 = false := by
    cases hc : s.getLsbD 0
    · rfl
    · rw [hc] at h31; exact absurd h31.2 (by decide)
  apply BitVec.eq_of_getLsbD_eq
  intro i hi
  rcases Nat.eq_zero_or_pos i with h1 | h1
  · subst h1; simpa using h0
  · simpa using hs i h1 hi

theorem clock6_ne_zero (t : Nat) (ht : 1 ≤ t ∧ t ≤ 5) (s : BitVec 6) (h : s ≠ 0) : clock6 t s ≠ 0 := by
  obtain ⟨h1, h2⟩ := ht
  revert s
  interval_cases t <;> decide

theorem clock6Times_ne_zero (t : Nat) (ht : 1 ≤ t ∧ t ≤ 5) (n : Nat) (s : BitVec 6) (h : s ≠ 0) :
    clock6Times t n s ≠ 0 := by
  induction n generalizing s with
  | zero => exact h
  | succ n ih => exact ih _ (clock6_ne_zero t ht s h)

theorem noiseTap_range (P : Params) (rb : Memory) (c : ChanId) (k : OpId) :
    1 ≤ noiseTap P rb c k ∧ noiseTap P rb c k ≤ 5 := P.pnTap_range _ (bits_lt _ 1 0)

end Sys2Proof.Machine
end

