-- ==== Sys2Proof/Laws/Step.lean ====
section
/-! SUPPORT. What a step and each command can do, said once. -/

namespace Sys2Proof.Machine

/-! ## Commands -/

theorem exec_wr (addr data : Nat) (s : State) :
    exec (.wr addr data) s = .next ((writeRegister addr (BitVec.ofNat 8 data) s).complete .nothing) := rfl

theorem exec_rd (addr : Nat) (s : State) : exec (.rd addr) s = .next (s.complete (.byte (readRegister addr s))) := rfl

theorem exec_adv (s : State) : exec .adv s = .next (advanceCommand params s) := rfl

theorem exec_rst (s : State) : exec .rst s = .next ((s.resetBlock params).complete .nothing) := rfl

theorem exec_mute (ch : Nat) (m : Bool) (s : State) :
    exec (.mute ch m) s = .next ((setMute ch m s).complete .nothing) := rfl

theorem exec_pcmw (paddr data : Nat) (s : State) :
    exec (.pcmw paddr data) s = .next ((writePcm params paddr (BitVec.ofNat 8 data) s).complete .nothing) := rfl

/-- Everything a step can do: nothing without a word, a refusal of a word that spells no command, or the command the
word spells. -/
theorem step_cases (s t : State) (h : step s = .next t) :
    (s.stream = [] ∧ t = s) ∨
    (∃ w rest e, s.stream = w :: rest ∧ decode w = .error e ∧ t = s.refuseWord) ∨
    (∃ w rest i, s.stream = w :: rest ∧ decode w = .ok i ∧ exec i s = .next t) := by
  unfold step at h
  split at h
  · next he => injection h with h; exact .inl ⟨he, h.symm⟩
  · next w rest he =>
    split at h
    · next i hi => exact .inr (.inr ⟨w, rest, i, he, hi, h⟩)
    · next e hd => injection h with h; exact .inr (.inl ⟨w, rest, e, he, hd, h.symm⟩)

/-! ## WRITE -/

section Write
variable (addr : Nat) (b : Byte) (s : State)

@[simp] theorem writeRegister_rb : (writeRegister addr b s).rb = Memory.write s.rb (byteIndex addr) b := by
  simp only [writeRegister]; split <;> rfl

@[simp] theorem writeRegister_pcm : (writeRegister addr b s).pcm = s.pcm := by
  simp only [writeRegister]; split <;> rfl

@[simp] theorem writeRegister_mute : (writeRegister addr b s).mute = s.mute := by
  simp only [writeRegister]; split <;> rfl

@[simp] theorem writeRegister_glob : (writeRegister addr b s).glob = s.glob := by
  simp only [writeRegister]; split <;> rfl

@[simp] theorem writeRegister_stream : (writeRegister addr b s).stream = s.stream := by
  simp only [writeRegister]; split <;> rfl

@[simp] theorem writeRegister_response : (writeRegister addr b s).response = s.response := by
  simp only [writeRegister]; split <;> rfl

@[simp] theorem writeRegister_refusalMark : (writeRegister addr b s).refusalMark = s.refusalMark := by
  simp only [writeRegister]; split <;> rfl

/-- Every channel but the one of a `FLAGS0` byte keeps its transient state. -/
theorem writeRegister_chan_ne (d : ChanId) (h : isFlags0 addr = false ∨ d ≠ addrChan addr) :
    (writeRegister addr b s).chan d = s.chan d := by
  simp only [writeRegister]
  split
  · next hf => rcases h with h | h <;> simp_all
  · rfl

/-- The channel of a `FLAGS0` byte takes the gate edge. -/
theorem writeRegister_chan_flags0 (h : isFlags0 addr = true) :
    (writeRegister addr b s).chan (addrChan addr) =
      gateEdge (Memory.write s.rb (byteIndex addr) b) (addrChan addr) (bit (rbNat s.rb (byteIndex addr)) 0)
        (bit b.toNat 0) (s.chan (addrChan addr)) := by
  simp only [writeRegister, h, if_true, State.setChan_chan_same, State.setRb_rb, State.setRb_chan]

end Write

/-! ## SETMUTE and PCMWRITE -/

section MutePcm
variable (n : Nat) (m : Bool) (P : Params) (paddr : Nat) (b : Byte) (s : State)

/-- SETMUTE changes the mute flags only. -/
theorem setMute_eq : ∃ v, setMute n m s = { s with mute := v } := by
  simp only [setMute]; split
  · exact ⟨_, rfl⟩
  · exact ⟨s.mute, rfl⟩

theorem setMute_of_ge (h : 9 ≤ n) : setMute n m s = s := by
  simp only [setMute, dif_neg (by omega : ¬ n < 9)]

theorem setMute_mute (h : n < 9) (i : Nat) (hi : i < 9) :
    (setMute n m s).mute[i] = if i = n then m else s.mute[i] := by
  simp only [setMute, dif_pos h, Vector.getElem_set]
  by_cases hin : n = i
  · subst hin; simp
  · rw [if_neg hin, if_neg (Ne.symm hin)]

@[simp] theorem writePcm_pcm : (writePcm P paddr b s).pcm = Memory.write s.pcm (paddr % pcmSize P) b := rfl
@[simp] theorem writePcm_rb : (writePcm P paddr b s).rb = s.rb := rfl
@[simp] theorem writePcm_chans : (writePcm P paddr b s).chans = s.chans := rfl
@[simp] theorem writePcm_mute : (writePcm P paddr b s).mute = s.mute := rfl
@[simp] theorem writePcm_glob : (writePcm P paddr b s).glob = s.glob := rfl
@[simp] theorem writePcm_stream : (writePcm P paddr b s).stream = s.stream := rfl
@[simp] theorem writePcm_refusalMark : (writePcm P paddr b s).refusalMark = s.refusalMark := rfl

end MutePcm

/-! ## ADVANCE -/

section Adv
variable (P : Params) (s : State)

theorem advanceCommand_eq :
    advanceCommand P s = (advance P s).1.complete
      (.stereo (BitVec.ofInt 32 (advance P s).2.1) (BitVec.ofInt 32 (advance P s).2.2)) := rfl

theorem advanceCommand_rb : (advanceCommand P s).rb = (advance P s).1.rb := by
  rw [advanceCommand_eq, State.complete_rb]
theorem advanceCommand_chan (c : ChanId) : (advanceCommand P s).chan c = (advance P s).1.chan c := by
  rw [advanceCommand_eq, State.complete_chan]
theorem advanceCommand_glob : (advanceCommand P s).glob = (advance P s).1.glob := by
  rw [advanceCommand_eq, State.complete_glob]

end Adv

/-! ## The reset state -/

theorem State.resetWith_chan (P : Params) (c : ChanId) : (State.resetWith P).chan c = (chansAfterReset P)[c] := rfl

theorem State.resetWith_op (P : Params) (c : ChanId) (k : OpId) :
    ((State.resetWith P).chan c).op k = OpState.afterReset P c k := chansAfterReset_op P c k

end Sys2Proof.Machine
end

