-- ==== Sys2Proof/Laws/Channels.lean ====
section
/-! SUPPORT. What an ADVANCE does to one channel, whatever the others do: the channel step it runs sees the channel as it
stood before the ADVANCE, and nothing later touches it but `PREVRAW`. -/

namespace Sys2Proof.Machine

/-! ## A channel's bytes -/

/-- Two register banks agree on channel `c`'s 64 bytes. -/
def ChanBytes (c : ChanId) (rb rb' : Memory) : Prop := ∀ a, a / 64 = c.val → Memory.read rb' a = Memory.read rb a

theorem ChanBytes.opByte {c : ChanId} {rb rb' : Memory} (h : ChanBytes c rb rb') (k : OpId) (r : Nat) (hr : r < 8) :
    opByte rb' c k r = opByte rb c k r := by
  have hk := k.isLt
  simp only [Machine.opByte, rbNat]
  rw [h _ (by simp only [opByteIndex]; omega)]

theorem ChanBytes.chByte {c : ChanId} {rb rb' : Memory} (h : ChanBytes c rb rb') (j : Nat) (hj : j < 32) :
    chByte rb' c j = chByte rb c j := by
  simp only [Machine.chByte, rbNat]
  rw [h _ (by simp only [chByteIndex]; omega)]

theorem ChanBytes.chWord {c : ChanId} {rb rb' : Memory} (h : ChanBytes c rb rb') (j : Nat) (hj : j < 31) :
    chWord rb' c j = chWord rb c j := by
  simp only [Machine.chWord, rbNat16, rbNat]
  rw [h _ (by simp only [chByteIndex]; omega), h _ (by simp only [chByteIndex]; omega)]

/-- Writes to another channel's owned bytes leave a channel's bytes alone. -/
theorem RbFrame.chanBytes {c d : ChanId} {rb rb' : Memory} (h : RbFrame d rb rb') (hcd : c ≠ d) : ChanBytes c rb rb' := by
  intro a ha
  refine h.read a fun j hj => ?_
  have hlt : j < 32 := by revert j; decide
  have hv : c.val ≠ d.val := fun e => hcd (Fin.ext e)
  simp only [chByteIndex]; omega

/-! ## No stage writes `PREVRAW` -/

theorem voice_prevRaw (P : Params) (rb pcm : Memory) (g : Globals) (c : ChanId) (ch : ChanState) :
    (voice P rb pcm g c ch).1.prevRaw = ch.prevRaw := by
  have hstep : ∀ (acc : ChanState × Int) (k : OpId),
      (evalOperator P rb pcm g c (snapshot ch) acc k).1.prevRaw = acc.1.prevRaw := fun acc k => by
    simp only [evalOperator]; exact (recordValue_rest k _ _ acc.1).2.2.2.2.2.2.2.2
  simp only [voice, operators, List.foldl, hstep]

theorem channelStep_prevRaw (P : Params) (c d : ChanId) (s : State) :
    ((channelStep P c s).1.chan d).prevRaw = (s.chan d).prevRaw := by
  by_cases hd : d = c
  swap
  · rw [(channelStep_frame P c s).chan d hd]
  subst hd
  have h1 : ((channelSource P d s).1.chan d).prevRaw = (s.chan d).prevRaw := by
    simp only [channelSource]; split
    · simp [pcmAdvance]
    · simpa using voice_prevRaw P s.rb s.pcm s.glob d (s.chan d)
  have h2 : ∀ (s : State) (raw : Int), ((channelOutput P d s raw).1.chan d).prevRaw = (s.chan d).prevRaw := by
    intro s raw
    simp only [channelOutput, State.setChan_chan_same, mutePan, filterStage]
    split <;> split <;> rfl
  have h3 : ∀ (s : State) (e : Sweep), ((sweep d s e).chan d).prevRaw = (s.chan d).prevRaw := by
    intro s e
    simp only [sweep]; split
    · split <;> simp
    · rfl
  have h4 : ∀ s : State, ((phaseResets P d s).chan d).prevRaw = (s.chan d).prevRaw := by
    intro s
    simp only [phaseResets, State.setRb_chan, State.setChan_chan_same, phaseResetAction]
    generalize (if fTimerSync s.rb d = true then _ else _ : BitVec 16) = cnt
    split
    · split <;> rfl
    · rfl
  simp only [channelStep, sweeps, List.foldl, h4, h3, h2, h1]

/-! ## The channel step an ADVANCE runs -/

/-- The state a channel's step sees: the channel's bytes, its transient state, PCM memory, the mute flags and every
`PREVRAW` as before the ADVANCE, the LFO and `ENVCNT` stepped. -/
structure SeenBy (P : Params) (c : ChanId) (s u : State) : Prop where
  bytes : ChanBytes c s.rb u.rb
  wf : Memory.wf s.rb = true → Memory.wf u.rb = true
  chan : u.chan c = s.chan c
  pcm : u.pcm = s.pcm
  mute : u.mute = s.mute
  glob : u.glob = advanceGlobals P s.glob
  prevRaw : ∀ d, (u.chan d).prevRaw = (s.chan d).prevRaw

/-- A channel in a list of distinct channels takes exactly its own step. -/
theorem runChannels_channel (P : Params) (cs : List ChanId) (hn : cs.Nodup) (c : ChanId) (hc : c ∈ cs) (s : State) :
    ∃ u, ChanBytes c s.rb u.rb ∧ (Memory.wf s.rb = true → Memory.wf u.rb = true) ∧ u.chan c = s.chan c ∧
      u.pcm = s.pcm ∧ u.mute = s.mute ∧ u.glob = s.glob ∧ (∀ d, (u.chan d).prevRaw = (s.chan d).prevRaw) ∧
      (runChannels P cs s).1.chan c = (channelStep P c u).1.chan c ∧
      ChanBytes c (channelStep P c u).1.rb (runChannels P cs s).1.rb ∧
      (c, (channelStep P c u).2) ∈ (runChannels P cs s).2 := by
  induction cs generalizing s with
  | nil => exact absurd hc List.not_mem_nil
  | cons d cs ih =>
    obtain ⟨hd, hn⟩ := List.nodup_cons.1 hn
    by_cases hcd : c = d
    · subst hcd
      refine ⟨s, fun _ _ => rfl, id, rfl, rfl, rfl, rfl, fun _ => rfl, ?_, ?_, List.mem_cons_self⟩
      · exact runChannels_chan_of_not_mem P cs _ c hd
      · have : ∀ (cs : List ChanId) (s : State), c ∉ cs → ChanBytes c s.rb (runChannels P cs s).1.rb := by
          intro cs
          induction cs with
          | nil => exact fun s _ a _ => rfl
          | cons e cs ih2 =>
            intro s hnot a ha
            simp only [List.mem_cons, not_or] at hnot
            exact (ih2 _ hnot.2 a ha).trans ((channelStep_frame P e s).rb.chanBytes hnot.1 a ha)
        exact this cs _ hd
    · have hc' : c ∈ cs := (List.mem_cons.1 hc).resolve_left hcd
      obtain ⟨u, h1, h2, h3, h4, h5, h6, h7, h8, h9, h10⟩ := ih hn hc' (channelStep P d s).1
      have hf := channelStep_frame P d s
      exact ⟨u, fun a ha => (h1 a ha).trans (hf.rb.chanBytes hcd a ha), fun h => h2 (hf.rb.wf h),
        h3.trans (hf.chan c hcd), h4.trans hf.pcm, h5.trans hf.mute, h6.trans hf.glob,
        fun e => (h7 e).trans (channelStep_prevRaw P d e s), h8, h9, List.mem_cons_of_mem _ h10⟩

/-- Committing the raw samples of distinct channels gives each channel in the list its own. -/
theorem commitRaws_prevRaw (outs : List (ChanId × ChanOut)) (hn : (outs.map fun e => e.1).Nodup) (s : State) (c : ChanId)
    (o : ChanOut) (h : (c, o) ∈ outs) : (commitRaws outs s).chan c = { s.chan c with prevRaw := o.raw } := by
  have hne : ∀ (outs : List (ChanId × ChanOut)) (s : State), c ∉ outs.map (fun e => e.1) →
      (commitRaws outs s).chan c = s.chan c := by
    intro outs
    induction outs with
    | nil => exact fun _ _ => rfl
    | cons e outs ih =>
      intro s hnot
      simp only [List.map_cons, List.mem_cons, not_or] at hnot
      exact (ih _ hnot.2).trans (State.setChan_chan_ne s e.1 c _ hnot.1)
  induction outs generalizing s with
  | nil => exact absurd h List.not_mem_nil
  | cons e outs ih =>
    obtain ⟨he, hn⟩ := List.nodup_cons.1 hn
    rcases List.mem_cons.1 h with h | h
    · subst h
      exact (hne outs _ he).trans (State.setChan_chan_same _ _ _)
    · have hce : c ≠ e.1 := fun h' => he (List.mem_map.2 ⟨(c, o), h, h'⟩)
      refine (ih hn (s.setChan e.1 { s.chan e.1 with prevRaw := e.2.raw }) h).trans ?_
      rw [State.setChan_chan_ne s e.1 c _ hce]

/-- The transient state after an ADVANCE is that after the raw samples are committed. -/
theorem advance_chan (P : Params) (s : State) (c : ChanId) :
    (advance P s).1.chan c = (commitRaws (runChannels P channels { s with glob := advanceGlobals P s.glob }).2
      (runChannels P channels { s with glob := advanceGlobals P s.glob }).1).chan c := by
  simp only [advance, State.chan]

/-- The register bank after an ADVANCE is that after the channel steps. -/
theorem advance_rb (P : Params) (s : State) :
    (advance P s).1.rb = (runChannels P channels { s with glob := advanceGlobals P s.glob }).1.rb := by
  simp only [advance, commitRaws_rb]

/-- What an ADVANCE does to channel `c`: the channel step on the state it sees, then its raw sample committed. -/
theorem advance_channel (P : Params) (s : State) (c : ChanId) :
    ∃ u, SeenBy P c s u ∧
      (advance P s).1.chan c = { (channelStep P c u).1.chan c with prevRaw := (channelStep P c u).2.raw } ∧
      ChanBytes c (channelStep P c u).1.rb (advance P s).1.rb := by
  have hc : c ∈ channels := by fin_cases c <;> decide
  obtain ⟨u, h1, h2, h3, h4, h5, h6, h7, h8, h9, h10⟩ :=
    runChannels_channel P channels (by decide) c hc { s with glob := advanceGlobals P s.glob }
  have hk := runChannels_fst P channels { s with glob := advanceGlobals P s.glob }
  refine ⟨u, ⟨h1, h2, h3, h4, h5, h6, h7⟩, ?_, ?_⟩
  · rw [advance_chan, commitRaws_prevRaw _ (by rw [hk]; decide) _ c _ h10, h8]
  · intro a ha
    rw [advance_rb]
    exact h9 a ha

end Sys2Proof.Machine
end

