-- ==== Sys2Proof/Laws/PerInstr.lean ====
section
/-! SUPPORT. The family `OpcodeField`: the encoding of each well-formed command carries its opcode in bits 31:28
(30_encoding.md R122, R123). -/

namespace Sys2Proof.Laws.OpcodeField

open Sys2Proof

/-- The opcode of 30_encoding.md R122. -/
def opcode : Instr → Nat
  | .wr _ _ => 1
  | .rd _ => 2
  | .adv => 3
  | .rst => 4
  | .mute _ _ => 5
  | .pcmw _ _ => 6

/-- A well-formed command's word is the number its layout gives, and holds its opcode in bits 31:28. -/
def Statement (i : Instr) : Prop :=
  i.wellFormed = true → (encode i).toNat = encodeNat i ∧ opcField (encode i).toNat = opcode i

theorem wr (addr data : Nat) : Statement (.wr addr data) := by
  intro h
  simp only [Instr.wellFormed, Bool.and_eq_true, decide_eq_true_eq] at h
  simp only [encode, encodeNat, opcField, Machine.bits, opcode, BitVec.toNat_ofNat]; omega

theorem rd (addr : Nat) : Statement (.rd addr) := by
  intro h
  simp only [Instr.wellFormed, decide_eq_true_eq] at h
  simp only [encode, encodeNat, opcField, Machine.bits, opcode, BitVec.toNat_ofNat]; omega

theorem adv : Statement .adv := fun _ => by decide

theorem rst : Statement .rst := fun _ => by decide

theorem mute (ch : Nat) (m : Bool) : Statement (.mute ch m) := by
  intro h
  simp only [Instr.wellFormed, decide_eq_true_eq] at h
  have hm := Bool.toNat_le m
  simp only [encode, encodeNat, opcField, Machine.bits, opcode, BitVec.toNat_ofNat]; omega

theorem pcmw (paddr data : Nat) : Statement (.pcmw paddr data) := by
  intro h
  simp only [Instr.wellFormed, Bool.and_eq_true, decide_eq_true_eq] at h
  simp only [encode, encodeNat, opcField, Machine.bits, opcode, BitVec.toNat_ofNat]; omega

end Sys2Proof.Laws.OpcodeField
end

