-- ==== Sys2Proof/Machine/Listing.lean ====
section
/-! DEFINITION. Command listings (30_encoding.md R134, R135): the pseudo-commands and their expansions, and the
assembler of one listing line. A line is the list of its characters. -/

namespace Sys2Proof

/-- A pseudo-command (30_encoding.md R135). -/
inductive Pseudo where
  /-- `wrop C, K, R, DATA`. -/
  | wrop (c k r data : Nat)
  /-- `wrch C, J, DATA`. -/
  | wrch (c j data : Nat)
  /-- `wr16 ADDR, V16`. -/
  | wr16 (addr v16 : Nat)
  /-- `wrch16 C, J, V16`. -/
  | wrch16 (c j v16 : Nat)
  /-- `advn N`. -/
  | advn (n : Nat)
  /-- `pcmload P, b0, b1, …`. -/
  | pcmload (p : Nat) (bytes : List Nat)
  /-- `keyon C, F0`. -/
  | keyon (c f0 : Nat)
  /-- `keyoff C, F0`. -/
  | keyoff (c f0 : Nat)
deriving DecidableEq, Repr

namespace Machine

/-- The PCMWRITEs of `pcmload`, from address `p` on (30_encoding.md R135). -/
def pcmLoad : Nat → List Nat → List Instr
  | _, [] => []
  | p, b :: bs => .pcmw (p % 65536) b :: pcmLoad (p + 1) bs

/-- A channel register's address (30_encoding.md R135). -/
def channelAddr (c j : Nat) : Nat := c * 64 + 32 + j

/-- The expansion of a pseudo-command (30_encoding.md R135). -/
def expand : Pseudo → List Instr
  | .wrop c k r data => [.wr (c * 64 + k * 8 + r) data]
  | .wrch c j data => [.wr (channelAddr c j) data]
  | .wr16 addr v16 => [.wr addr (v16 % 256), .wr (addr + 1) (v16 / 256)]
  | .wrch16 c j v16 => [.wr (channelAddr c j) (v16 % 256), .wr (channelAddr c j + 1) (v16 / 256)]
  | .advn n => List.replicate n .adv
  | .pcmload p bytes => pcmLoad p bytes
  | .keyon c f0 => [.wr (channelAddr c 0x04) (f0 ||| 0x01)]
  | .keyoff c f0 => [.wr (channelAddr c 0x04) (f0 &&& 0xFE)]

/-! ## One listing line (30_encoding.md R134; spacing and letter case: log entry 20) -/

/-- The line without its comment (R134). -/
def withoutComment (line : List Char) : List Char := line.takeWhile (· != ';')

/-- The tokens of a line: words between blanks, and each comma by itself. `acc` is the word being read, reversed. -/
def tokens : List Char → List Char → List (List Char)
  | [], [] => []
  | acc, [] => [acc.reverse]
  | acc, ch :: rest =>
    if ch = ' ' || ch = '\t' || ch = '\r' then
      (match acc with
       | [] => tokens [] rest
       | _ => acc.reverse :: tokens [] rest)
    else if ch = ',' then
      (match acc with
       | [] => [','] :: tokens [] rest
       | _ => acc.reverse :: [','] :: tokens [] rest)
    else tokens (ch :: acc) rest

/-- The value of a digit in a base up to 16. -/
def digitValue (base : Nat) (ch : Char) : Option Nat :=
  let n := ch.toNat
  let v := if 48 ≤ n ∧ n ≤ 57 then n - 48 else if 97 ≤ n ∧ n ≤ 102 then n - 87 else if 65 ≤ n ∧ n ≤ 70 then n - 55 else 16
  if v < base then some v else none

/-- The digits read onto `acc`. -/
def digitsValue (base : Nat) : Nat → List Char → Option Nat
  | acc, [] => some acc
  | acc, ch :: rest =>
    match digitValue base ch with
    | some v => digitsValue base (acc * base + v) rest
    | none => none

/-- A number, decimal or hexadecimal after 0x (R134). -/
def numberValue : List Char → Option Nat
  | [] => none
  | '0' :: 'x' :: [] => none
  | '0' :: 'x' :: ds => digitsValue 16 0 ds
  | ds => digitsValue 10 0 ds

/-- Operands separated by commas (R134). -/
def operandValues : List (List Char) → Option (List Nat)
  | [] => some []
  | [t] => (numberValue t).map fun v => [v]
  | t :: sep :: rest =>
    if sep = [','] ∧ rest ≠ [] then
      match numberValue t, operandValues rest with
      | some v, some vs => some (v :: vs)
      | _, _ => none
    else none

/-- What one mnemonic with these operands stands for, before the range check (R134, R135). -/
def lineCommands (mnemonic : List Char) (ops : List Nat) : Option (List Instr) :=
  if mnemonic = ['w', 'r'] then (match ops with | [a, d] => some [.wr a d] | _ => none)
  else if mnemonic = ['r', 'd'] then (match ops with | [a] => some [.rd a] | _ => none)
  else if mnemonic = ['a', 'd', 'v'] then (match ops with | [] => some [.adv] | _ => none)
  else if mnemonic = ['r', 's', 't'] then (match ops with | [] => some [.rst] | _ => none)
  else if mnemonic = ['m', 'u', 't', 'e'] then
    (match ops with | [c, m] => if m ≤ 1 then some [.mute c (decide (m = 1))] else none | _ => none)
  else if mnemonic = ['p', 'c', 'm', 'w'] then (match ops with | [p, d] => some [.pcmw p d] | _ => none)
  else if mnemonic = ['w', 'r', 'o', 'p'] then
    (match ops with
     | [c, k, r, d] => if c < 9 ∧ k < 4 ∧ r < 8 then some (expand (.wrop c k r d)) else none
     | _ => none)
  else if mnemonic = ['w', 'r', 'c', 'h'] then
    (match ops with | [c, j, d] => if c < 9 ∧ j < 32 then some (expand (.wrch c j d)) else none | _ => none)
  else if mnemonic = ['w', 'r', '1', '6'] then
    (match ops with | [a, v] => if v ≤ 65535 then some (expand (.wr16 a v)) else none | _ => none)
  else if mnemonic = ['w', 'r', 'c', 'h', '1', '6'] then
    (match ops with
     | [c, j, v] => if c < 9 ∧ j < 31 ∧ v ≤ 65535 then some (expand (.wrch16 c j v)) else none
     | _ => none)
  else if mnemonic = ['a', 'd', 'v', 'n'] then (match ops with | [n] => some (expand (.advn n)) | _ => none)
  else if mnemonic = ['p', 'c', 'm', 'l', 'o', 'a', 'd'] then
    (match ops with | p :: b :: bs => if p ≤ 65535 then some (expand (.pcmload p (b :: bs))) else none | _ => none)
  else if mnemonic = ['k', 'e', 'y', 'o', 'n'] then
    (match ops with | [c, f] => if c < 9 ∧ f ≤ 255 then some (expand (.keyon c f)) else none | _ => none)
  else if mnemonic = ['k', 'e', 'y', 'o', 'f', 'f'] then
    (match ops with | [c, f] => if c < 9 ∧ f ≤ 255 then some (expand (.keyoff c f)) else none | _ => none)
  else none

/-- The commands of one listing line, none where the assembler rejects it; a blank line has none to perform (R134). -/
def assembleLine (line : List Char) : Option (List Instr) :=
  match tokens [] (withoutComment line) with
  | [] => some []
  | m :: rest =>
    match operandValues rest with
    | none => none
    | some ops =>
      match lineCommands m ops with
      | none => none
      | some is => if is.all Instr.wellFormed then some is else none

/-- The command words of one listing line. -/
def assembleWords (line : List Char) : Option (List Command) := (assembleLine line).map fun is => is.map encode

end Machine
end Sys2Proof
end

