-- ==== Sys2Proof/Certificates/Slice0/Obligations.lean ====
section
/-! DEFINITION. The statements about the model, one definition each, with the rule of spec/ it formalises. `params` are the
uninterpreted parameters of the instance, so each holds for every admissible choice of them. A premise `Memory.wf` is the
canonical form of a byte store, which every step keeps (InvariantKeptByEveryStep). -/

section Statements

open Sys2Proof Sys2Proof.Machine

/-! ## Encoding -/

/-- 30_encoding.md R123: every well-formed command, at every operand value, decodes from its word to itself. -/
def Obligations.DecodeInvertsEncode : Prop :=
  ∀ i : Instr, i.wellFormed = true → decode (encode i) = .ok i

/-- 30_encoding.md R123, R134: a word that decodes is the word of the well-formed command it decodes to. -/
def Obligations.EncodeInvertsDecode : Prop :=
  ∀ (w : Command) (i : Instr), decode w = .ok i → i.wellFormed = true ∧ encode i = w

/-- 30_encoding.md R122, R123: the decoder accepts a word exactly where one row of the opcode table fits it, and then the
command is that row's. -/
def Obligations.DecodeAcceptsExactlyTableRows : Prop :=
  (∀ (w : Command) (i : Instr), decode w = .ok i →
    ∃ r ∈ opcodeTable, r.fits w = true ∧ r.mnemonic = i.mnemonic ∧ ∀ r' ∈ opcodeTable, r'.fits w = true → r' = r) ∧
  (∀ w : Command, ∀ r ∈ opcodeTable, r.fits w = true → ∃ i, decode w = .ok i ∧ i.mnemonic = r.mnemonic) ∧
  (∀ w : Command, (∀ r ∈ opcodeTable, r.fits w = false) → ∃ e, decode w = .error e)

/-- 30_encoding.md R123: one word of each command, written out from the field positions. -/
def Obligations.DecodeReadsWrittenOutWords : Prop :=
  decode 0b0001000000100100_0000000000000001#32 = .ok (.wr 36 1) ∧
  decode 0b0010001111111111_0000000000000000#32 = .ok (.rd 1023) ∧
  decode 0b0011000000000000_0000000000000000#32 = .ok .adv ∧
  decode 0b0100000000000000_0000000000000000#32 = .ok .rst ∧
  decode 0b0101000000000011_0000000000000001#32 = .ok (.mute 3 true) ∧
  decode 0b0110000000000001_0000000010000000#32 = .ok (.pcmw 0x0100 0x80)

/-! ## The step -/

/-- 30_encoding.md R120: the step performs the first word presented, by the command it decodes to, and the word is then
consumed; a state with no word presented stays as it is (60_exceptions.md R453; the idle step is the model's choice, log
entry 7). -/
def Obligations.StepRunsDecodedCommand : Prop :=
  (∀ (s : State) (w : Command) (rest : List Command) (i : Instr), s.stream = w :: rest → decode w = .ok i →
    step s = exec i s ∧ ∃ t, step s = .next t ∧ t.stream = rest) ∧
  (∀ s : State, s.stream = [] → step s = .next s)

/-- 60_exceptions.md R441, 30_encoding.md R124: a word with opcode 0 or 7 to 15, or with a must-be-zero bit of its valid
opcode set, changes nothing of the block, returns nothing and sets the refusal mark; no command reads or clears it. That the
run goes on, the word consumed, is the model's reading (log entry 8). -/
def Obligations.RefusedWordChangesNothing : Prop :=
  (∀ (s : State) (w : Command) (rest : List Command), s.stream = w :: rest →
    (w >>> 28 = 0#32 ∨ 7#32 ≤ w >>> 28 ∨
      (w >>> 28 = 1#32 ∧ w &&& 0x0C00FF00#32 ≠ 0#32) ∨ (w >>> 28 = 2#32 ∧ w &&& 0x0C00FFFF#32 ≠ 0#32) ∨
      (w >>> 28 = 3#32 ∧ w &&& 0x0FFFFFFF#32 ≠ 0#32) ∨ (w >>> 28 = 4#32 ∧ w &&& 0x0FFFFFFF#32 ≠ 0#32) ∨
      (w >>> 28 = 5#32 ∧ w &&& 0x0FF0FFFE#32 ≠ 0#32) ∨ (w >>> 28 = 6#32 ∧ w &&& 0x0F000000#32 ≠ 0#32)) →
    ∃ t, step s = .next t ∧ SameBlock s t ∧ t.stream = rest ∧ t.response = .nothing ∧ t.refusalMark = true) ∧
  (∀ (i : Instr) (s : State), ∃ t, exec i s = .next t ∧ t.refusalMark = s.refusalMark) ∧
  (∀ (i : Instr) (s : State) (m : Bool) (t : State), exec i s = .next t →
    exec i { s with refusalMark := m } = .next { t with refusalMark := m })

/-! ## WRITE and READ -/

/-- 40_host_commands.md R162, R163, 30_encoding.md R125: WRITE stores the whole byte `DATA` at the addressed byte and
changes no other byte; of the transient state it changes at most `KEYPEND`, `DLY` and `EGS`, and these only in the
channel of a `FLAGS0` byte whose gate bit changes. That the response is
nothing afterwards is the model's choice (log entry 9). -/
def Obligations.WriteStoresOneByte : Prop :=
  ∀ (s : State) (addr data : Nat), Memory.wf s.rb = true → addr < 1024 → data < 256 →
    ∃ t, exec (.wr addr data) s = .next t ∧
      (Memory.read t.rb (addr / 64 % 9 * 64 + addr % 64)).toNat = data ∧
      (∀ a, a ≠ addr / 64 % 9 * 64 + addr % 64 → Memory.read t.rb a = Memory.read s.rb a) ∧
      t.pcm = s.pcm ∧ t.mute = s.mute ∧ t.glob = s.glob ∧ PortAfter s t .nothing ∧
      (∀ c : ChanId, (addr % 64 ≠ 36 ∨ c.val ≠ addr / 64 % 9 ∨
          (Memory.read s.rb (addr / 64 % 9 * 64 + addr % 64)).getLsbD 0 = decide (data % 2 = 1)) →
        t.chan c = s.chan c) ∧
      (∀ c : ChanId, ∃ ops, t.chan c = { s.chan c with ops := ops } ∧ ∀ k : OpId, ∃ egs pend dly,
        (t.chan c).op k = { (s.chan c).op k with egs := egs, keyPend := pend, dly := dly })

/-- 42_envelope.md R231, R232: a WRITE that raises the gate bit latches a key-on on the channel's four operators and loads
each onset delay from the `DELAY` field; `EGS` and `ATT` stay. -/
def Obligations.KeyOnLatchesAttack : Prop :=
  ∀ (s : State) (addr data : Nat) (c : ChanId), Memory.wf s.rb = true → addr < 1024 → data < 256 →
    addr % 64 = 36 → c.val = addr / 64 % 9 →
    (Memory.read s.rb (c.val * 64 + 36)).getLsbD 0 = false → data % 2 = 1 →
    ∃ t, exec (.wr addr data) s = .next t ∧ ∀ k : OpId,
      let d := (Memory.read s.rb (c.val * 64 + k.val * 8 + 4)).toNat / 32
      ((t.chan c).op k).keyPend = true ∧ ((t.chan c).op k).dly.toNat = (if 0 < d then 256 * 2 ^ d else 0) ∧
        ((t.chan c).op k).egs = ((s.chan c).op k).egs ∧ ((t.chan c).op k).att = ((s.chan c).op k).att

/-- 42_envelope.md R233: a WRITE that clears the gate bit puts the channel's four operators in RELEASE at once, whatever
their state, cancels a pending key-on, and does not change `ATT`. -/
def Obligations.KeyOffReleasesAtOnce : Prop :=
  ∀ (s : State) (addr data : Nat) (c : ChanId), Memory.wf s.rb = true → addr < 1024 → data < 256 →
    addr % 64 = 36 → c.val = addr / 64 % 9 →
    (Memory.read s.rb (c.val * 64 + 36)).getLsbD 0 = true → data % 2 = 0 →
    ∃ t, exec (.wr addr data) s = .next t ∧ ∀ k : OpId,
      ((t.chan c).op k).egs = .release ∧ ((t.chan c).op k).keyPend = false ∧ ((t.chan c).op k).dly = 0 ∧
        ((t.chan c).op k).att = ((s.chan c).op k).att

/-- 40_host_commands.md R166: a READ returns the byte the WRITE stored, with any commands between them that do not write
that byte (an ADVANCE where the byte is none of 10_state.md R38). -/
def Obligations.WriteThenReadReturnsByte : Prop :=
  ∀ (s : State) (addr data : Nat) (between : List Instr), Memory.wf s.rb = true → addr < 1024 → data < 256 →
    (∀ i ∈ between, leavesByte (byteIndex addr) i) →
    ∃ t, execAll (.wr addr data :: (between ++ [.rd addr])) s = .next t ∧
      t.response = .byte (BitVec.ofNat 8 data)

/-- 30_encoding.md R126: an address from 576 to 1023 aliases byte `((ADDR div 64) mod 9) × 64 + (ADDR mod 64)`, for WRITE
and for READ; 576 aliases byte 0 and 1023 aliases byte 447. -/
def Obligations.AddressesAbove575Alias : Prop :=
  (∀ (s : State) (addr data : Nat), 576 ≤ addr → addr ≤ 1023 →
    addr / 64 % 9 * 64 + addr % 64 < 576 ∧
    (∃ t, exec (.wr addr data) s = .next t ∧ exec (.wr (addr / 64 % 9 * 64 + addr % 64) data) s = .next t) ∧
    (∃ t, exec (.rd addr) s = .next t ∧ exec (.rd (addr / 64 % 9 * 64 + addr % 64)) s = .next t)) ∧
  576 / 64 % 9 * 64 + 576 % 64 = 0 ∧ 1023 / 64 % 9 * 64 + 1023 % 64 = 447

/-- 40_host_commands.md R164: READ returns the stored byte and writes no state. -/
def Obligations.ReadReturnsStoredByte : Prop :=
  ∀ (s : State) (addr : Nat), addr < 1024 →
    ∃ t, exec (.rd addr) s = .next t ∧ SameBlock s t ∧
      PortAfter s t (.byte (Memory.read s.rb (addr / 64 % 9 * 64 + addr % 64)))

/-- 30_encoding.md R135, 20_memory.md R93: the two WRITEs of `wrch16` set the 16-bit channel field, low byte at the lower
offset, and no byte but these two. -/
def Obligations.WideWriteSetsSixteenBitField : Prop :=
  ∀ (s : State) (c : ChanId) (j v : Nat), Memory.wf s.rb = true → j < 31 → v < 65536 →
    ∃ t, execAll (expand (.wrch16 c.val j v)) s = .next t ∧
      (Memory.read t.rb (c.val * 64 + 32 + j)).toNat = v % 256 ∧
      (Memory.read t.rb (c.val * 64 + 32 + j + 1)).toNat = v / 256 ∧ chWord t.rb c j = v ∧
      (∀ a, a ≠ c.val * 64 + 32 + j → a ≠ c.val * 64 + 32 + j + 1 → Memory.read t.rb a = Memory.read s.rb a)

/-! ## SETMUTE, PCMWRITE and RESET -/

/-- 40_host_commands.md R168, 30_encoding.md R128: SETMUTE sets the one mute flag; for a channel number from 9 on it
changes nothing and is not refused. That the response is nothing afterwards is the model's
choice (log entry 9). -/
def Obligations.SetMuteChangesOneFlag : Prop :=
  ∀ (s : State) (ch : Nat) (m : Bool), ch < 16 →
    ∃ t, exec (.mute ch m) s = .next t ∧ PortAfter s t .nothing ∧
      t.rb = s.rb ∧ t.pcm = s.pcm ∧ t.chans = s.chans ∧ t.glob = s.glob ∧
      (∀ c : ChanId, t.mute[c] = if c.val = ch then m else s.mute[c]) ∧ (9 ≤ ch → t.mute = s.mute)

/-- 40_host_commands.md R169: PCMWRITE stores `DATA` at `PADDR` modulo `PCM_SIZE` and changes nothing else. That the
response is nothing afterwards is the model's choice (log entry 9). -/
def Obligations.PcmWriteStoresOneByte : Prop :=
  ∀ (s : State) (paddr data : Nat), Memory.wf s.pcm = true → paddr < 65536 → data < 256 →
    ∃ t, exec (.pcmw paddr data) s = .next t ∧ PortAfter s t .nothing ∧
      (Memory.read t.pcm (paddr % 2 ^ params.pcmBits)).toNat = data ∧
      (∀ a, a ≠ paddr % 2 ^ params.pcmBits → Memory.read t.pcm a = Memory.read s.pcm a) ∧
      t.rb = s.rb ∧ t.chans = s.chans ∧ t.mute = s.mute ∧ t.glob = s.glob

/-- 70_reset_and_hazards.md R471, R472: the state after RESET, from any state. That the response is nothing
afterwards is the model's choice (log entry 9), that the command port is left alone its reading (log entry 12). -/
def Obligations.ResetRestoresResetValues : Prop :=
  ∀ s : State, ∃ t, exec .rst s = .next t ∧ PortAfter s t .nothing ∧
    (∀ a, Memory.read t.rb a = 0) ∧
    (∀ (c : ChanId) (k : OpId), (t.chan c).op k =
      { phase := 0, wrap := false, att := params.attMax, egs := .release, keyPend := false, dly := 0,
        lfsr32 := params.seed32 c k, lfsr6 := params.seed6 c k, val := 0, prevOut := 0 }) ∧
    (∀ c : ChanId, (t.chan c).fb1 = 0 ∧ (t.chan c).fb2 = 0 ∧ (t.chan c).flow = 0 ∧ (t.chan c).fband = 0 ∧
      (t.chan c).fhigh = 0 ∧ (t.chan c).swtFreq = 0 ∧ (t.chan c).swtVol = 0 ∧ (t.chan c).swtCut = 0 ∧
      (t.chan c).rstCnt = 0 ∧ (t.chan c).pcmFrac = 0 ∧ (t.chan c).prevRaw = 0) ∧
    t.glob = { amCnt := 0, pmCnt := 0, amVal := 0, pmVal := 0, envCnt := 0, hx1l := 0, hy1l := 0, hx1r := 0, hy1r := 0 } ∧
    (∀ c : ChanId, t.mute[c] = if params.resetClearsMute then false else s.mute[c]) ∧
    (params.resetClearsPcm = true → ∀ a, Memory.read t.pcm a = 0) ∧
    (params.resetClearsPcm = false → t.pcm = s.pcm)

/-- 70_reset_and_hazards.md R474: two RESETs leave the state that one leaves; where RESET clears PCM memory and the mute
flags, the state after it is the same whatever came before. -/
def Obligations.ResetTwiceIsResetOnce : Prop :=
  (∀ s : State, ∃ t u, exec .rst s = .next t ∧ exec .rst t = .next u ∧ SameBlock t u) ∧
  (∀ s s' : State, ∃ t t', exec .rst s = .next t ∧ exec .rst s' = .next t' ∧
    t'.rb = t.rb ∧ t'.chans = t.chans ∧ t'.glob = t.glob ∧
    (params.resetClearsPcm = true → t'.pcm = t.pcm) ∧ (params.resetClearsMute = true → t'.mute = t.mute))

/-! ## ADVANCE: the whole block -/

/-- 40_host_commands.md R170, 47_mixer.md R423: right after reset, with no register written, ADVANCE returns (0, 0). That
the reset state is power-on and one RESET is the model's choice (log entry 11). -/
def Obligations.AdvanceFromResetIsSilent : Prop :=
  ∃ t, exec .adv State.reset = .next t ∧ t.response = .stereo 0 0 ∧ t.rb = [] ∧
    (∀ c : ChanId, (t.chan c).prevRaw = 0) ∧ t.glob.hx1l = 0 ∧ t.glob.hy1l = 0 ∧ t.glob.hx1r = 0 ∧ t.glob.hy1r = 0

/-- 45_lfo.md R340 to R342, 42_envelope.md R237: ADVANCE steps both LFO counters and `ENVCNT` by one and sets the AM and PM
values from the new counters, whatever the registers and the mute flags; PCM memory and the mute flags stay. -/
def Obligations.AdvanceStepsLfoAndEnvelopeCounter : Prop :=
  ∀ s : State, ∃ t, exec .adv s = .next t ∧
    t.glob.amCnt = (s.glob.amCnt + 1) % 13440 ∧
    t.glob.amVal = params.amTri (t.glob.amCnt / 64) * params.amd params.lfoAmdSel / 8 ∧
    t.glob.pmCnt = (s.glob.pmCnt + 1) % 8192 ∧
    t.glob.pmVal = params.pmWave (t.glob.pmCnt / 1024) * params.pmd params.lfoPmdSel / 128 ∧
    t.glob.envCnt = s.glob.envCnt + 1 ∧
    t.pcm = s.pcm ∧ t.mute = s.mute ∧ t.stream = s.stream.tail ∧ t.refusalMark = s.refusalMark ∧
    ∃ left right, t.response = .stereo left right

/-- 45_lfo.md R345: `AMCNT` returns to its value after exactly 13440 ADVANCEs and `PMCNT` after exactly 8192. -/
def Obligations.LfoCountersHaveTheirPeriods : Prop :=
  ∀ (s : State) (n : Nat), s.glob.amCnt < 13440 → s.glob.pmCnt < 8192 →
    ∃ t, execAll (List.replicate n .adv) s = .next t ∧
      (t.glob.amCnt = s.glob.amCnt ↔ 13440 ∣ n) ∧ (t.glob.pmCnt = s.glob.pmCnt ↔ 8192 ∣ n)

/-- 10_state.md R38: the register bytes ADVANCE may write, and no others: `FREQ`, `VOL`, `CUTOFF`, `PCMPOS`, bit 5 (`UP`) of
each `AMT` byte and bit 0 (`PHRESET`) of `FLAGS1`. -/
def Obligations.AdvanceWritesOwnedBytesOnly : Prop :=
  ∀ s : State, Memory.wf s.rb = true → ∃ t, exec .adv s = .next t ∧
    (∀ a, (∀ c : ChanId, ∀ j ∈ [0x00, 0x01, 0x02, 0x05, 0x06, 0x07, 0x0A, 0x0B, 0x12, 0x16, 0x1A],
        a ≠ c.val * 64 + 32 + j) → Memory.read t.rb a = Memory.read s.rb a) ∧
    (∀ c : ChanId, sameButBit 0 (Memory.read s.rb (c.val * 64 + 32 + 0x05)) (Memory.read t.rb (c.val * 64 + 32 + 0x05)) ∧
      ∀ j ∈ [0x12, 0x16, 0x1A],
        sameButBit 5 (Memory.read s.rb (c.val * 64 + 32 + j)) (Memory.read t.rb (c.val * 64 + 32 + j)))

/-- 46_channel.md R361, R373, R381: a channel that is not in PCM mode, with no sweep enabled and no one-shot reset requested,
keeps all its 64 register bytes and its sweep timers through an ADVANCE. -/
def Obligations.EnginesOffKeepChannelBytes : Prop :=
  ∀ (s : State) (c : ChanId), fPcm s.rb c = false → (∀ e : Sweep, fSweepEn s.rb c e = false) →
    fPhReset s.rb c = false →
    ∃ t, exec .adv s = .next t ∧ (∀ a, a / 64 = c.val → Memory.read t.rb a = Memory.read s.rb a) ∧
      ∀ e : Sweep, sweepTimer e (t.chan c) = sweepTimer e (s.chan c)

/-! ## PCM playback -/

/-- 46_channel.md R361, R365: a channel in PCM mode does not evaluate its operators: their state and the history hold (with
no phase reset firing). Its raw sample is the signed byte at `PCMPOS` before the advance, scaled, and becomes
`PREVRAW`. -/
def Obligations.PcmModeHoldsOperators : Prop :=
  ∀ (s : State) (c : ChanId), fPcm s.rb c = true → ∃ t, exec .adv s = .next t ∧
    (t.chan c).prevRaw = s8 (Memory.read s.pcm (fPcmPos s.rb c % 2 ^ params.pcmBits)).toNat * 2 ^ params.pcmShift ∧
    (t.chan c).fb1 = (s.chan c).fb1 ∧ (t.chan c).fb2 = (s.chan c).fb2 ∧
    (NoPhaseReset s c → ∀ k : OpId, (t.chan c).op k = (s.chan c).op k)

/-- 46_channel.md R362, R363: the fractional position gains `FREQ`, the position takes as many steps as it holds thresholds,
capped and the rest dropped, and each step loops or holds at the boundary and else counts up modulo 65536. Where the sum
leaves the 32 bits of `PCMFRAC` the value `x` it holds is free, and the rest is computed from it (the model's choice, log
entry 4). -/
def Obligations.PcmPositionAdvances : Prop :=
  ∀ (s : State) (c : ChanId), Memory.wf s.rb = true → fPcm s.rb c = true → ∃ t, exec .adv s = .next t ∧
    ∃ x < 2 ^ 32, ((s.chan c).pcmFrac.toNat + fFreq s.rb c < 2 ^ 32 → x = (s.chan c).pcmFrac.toNat + fFreq s.rb c) ∧
    (t.chan c).pcmFrac.toNat = x % params.pcmThresh ∧
    fPcmPos t.rb c =
      (fun p => if p = fPcmBnd s.rb c then (if fPcmLoop s.rb c then fPcmRst s.rb c else p) else (p + 1) % 65536)^[
        min (x / params.pcmThresh) params.pcmMaxStep] (fPcmPos s.rb c)

/-! ## Phase -/

/-- 41_phase.md R207: an evaluation without hard sync adds the step to the accumulator modulo 2^32 and records the carry out
of bit 31 in `WRAP` (no phase reset following in the same ADVANCE). -/
def Obligations.PhaseAdvancesByStep : Prop :=
  ∀ (s : State) (c : ChanId) (k : OpId), fPcm s.rb c = false → NoPhaseReset s c → syncFires s c k = false →
    ∃ t, exec .adv s = .next t ∧
      let step := (phaseStep params s.rb (advanceGlobals params s.glob) c k).toNat
      ((t.chan c).op k).phase.toNat = (((s.chan c).op k).phase.toNat + step) % 2 ^ 32 ∧
      ((t.chan c).op k).wrap = decide (2 ^ 32 ≤ ((s.chan c).op k).phase.toNat + step)

/-- 41_phase.md R203, R204, R205, R210: the step in ratio mode and in fixed mode, before reduction modulo 2^32. The fixed-mode
frequency is `(8 + round(MUL × 247 / 15)) << DT`; its unit is the parameter P40. -/
def Obligations.PhaseStepFormula : Prop :=
  (∀ (rb : Memory) (g : Globals) (c : ChanId) (k : OpId), fFix rb c k = false →
    let f := fFreq rb c
    let s1 : Int := max 0 (((f * 16000 + 1) / 3 : Nat) + params.dtStep (params.keycode f) (fDt rb c k))
    ((phaseStep params rb g c k).toNat : Int) =
      (s1 + vibrato rb g c k s1) * params.mulX2 (fMul rb c k) / 2 % 2 ^ 32) ∧
  (∀ (rb : Memory) (g : Globals) (c : ChanId) (k : OpId), fFix rb c k = true →
    let s0 : Int := params.fixedStep (fixedFreq (fMul rb c k) (fDt rb c k))
    ((phaseStep params rb g c k).toNat : Int) = (s0 + vibrato rb g c k s0) % 2 ^ 32) ∧
  (∀ m < 16, ∀ dt < 8, ∃ r : Nat, fixedFreq m dt = (8 + r) * 2 ^ dt ∧ 2 * m * 247 < (2 * r + 1) * 15 ∧
    2 * r * 15 < 2 * m * 247 + 15 ∧ 8 ≤ fixedFreq m dt ∧ fixedFreq m dt ≤ 32640)

/-- 41_phase.md R200: the base step is the nearest integer to `f × 16000 / 3`, with no tie, and its listed values. -/
def Obligations.BaseStepRoundsToNearest : Prop :=
  (∀ f : Nat, 2 * (3 * baseStep f) < 2 * (f * 16000) + 3 ∧ 2 * (f * 16000) < 2 * (3 * baseStep f) + 3) ∧
  baseStep 0 = 0 ∧ baseStep 1 = 5333 ∧ baseStep 65535 = 349520000

/-- 41_phase.md R206: the vibrato term, zero unless `PM` is set, `floor(s × pmv / 2^17)` with full or half depth by `LFOD`; it
is at most `s / 1024 + 1` in magnitude and leaves the step non-negative. -/
def Obligations.VibratoStaysWithinBound : Prop :=
  ∀ (rb : Memory) (g : Globals) (c : ChanId) (k : OpId) (s : Int), -128 ≤ g.pmVal → g.pmVal ≤ 128 → 0 ≤ s →
    (fPm rb c k = false → vibrato rb g c k s = 0) ∧
    (fPm rb c k = true → vibrato rb g c k s = s * (if fLfod rb c k then g.pmVal else g.pmVal / 2) / 2 ^ 17) ∧
    |vibrato rb g c k s| ≤ s / 1024 + 1 ∧ 0 ≤ s + vibrato rb g c k s

/-- 44_modulation.md R315, R319 (Scenario D): with `SYNC` set on operator `k` and its preceding operator's wrap recorded by the
previous ADVANCE, this ADVANCE leaves the phase at 0, no wrap, and both noise registers at their seeds. -/
def Obligations.HardSyncZeroesPhase : Prop :=
  ∀ (s : State) (c : ChanId) (k : OpId), fPcm s.rb c = false → fSync s.rb c k = true →
    ((s.chan c).op (if k = 0 then 3 else k - 1)).wrap = true →
    ∃ t, exec .adv s = .next t ∧ ((t.chan c).op k).phase = 0 ∧ ((t.chan c).op k).wrap = false ∧
      ((t.chan c).op k).lfsr32 = params.seed32 c k ∧ ((t.chan c).op k).lfsr6 = params.seed6 c k

/-! ## Noise -/

/-- 43_waveform.md R277, R278: an evaluation without hard sync shifts `LFSR32` down by one with the parity of bits 0, 2, 3 and
5 entering at bit 31, and clocks `LFSR6` once per sixth of the cycle the accumulator enters, whatever `WAVE` selects. A
clock of `LFSR6` shifts it down by one with the parity of bit 0 and the tap's bit entering at bit 5. That `WPAR[1:0]`
selects the tap under every `WAVE` is the model's choice (log entry 22). -/
def Obligations.NoiseRegistersClock : Prop :=
  (∀ (t : Nat) (x : BitVec 6), (∀ i < 5, (clock6 t x).getLsbD i = x.getLsbD (i + 1)) ∧
    (clock6 t x).getLsbD 5 = (x.getLsbD 0 ^^ x.getLsbD t)) ∧
  (∀ (rb : Memory) (c : ChanId) (k : OpId), noiseTap params rb c k = params.pnTap (fWpar rb c k % 4)) ∧
  ∀ (s : State) (c : ChanId) (k : OpId), fPcm s.rb c = false → NoPhaseReset s c → syncFires s c k = false →
    ∃ t, exec .adv s = .next t ∧
      let old := (s.chan c).op k
      let new := (t.chan c).op k
      let step := (phaseStep params s.rb (advanceGlobals params s.glob) c k).toNat
      (∀ i < 31, new.lfsr32.getLsbD i = old.lfsr32.getLsbD (i + 1)) ∧
      (new.lfsr32.getLsbD 31 =
        (old.lfsr32.getLsbD 0 ^^ old.lfsr32.getLsbD 2 ^^ old.lfsr32.getLsbD 3 ^^ old.lfsr32.getLsbD 5)) ∧
      new.lfsr6 = (clock6 (noiseTap params s.rb c k))^[
        (old.phase.toNat + step) * 6 / 2 ^ 32 - old.phase.toNat * 6 / 2 ^ 32] old.lfsr6

/-- 43_waveform.md R277, R278: both noise maps are bijections that fix 0. -/
def Obligations.NoiseMapsAreBijections : Prop :=
  Function.Bijective clock32 ∧ clock32 0 = 0 ∧
  ∀ t, 1 ≤ t → t ≤ 5 → Function.Bijective (clock6 t) ∧ clock6 t 0 = 0

/-- 43_waveform.md R278: the clock count of the periodic noise lies in 0 to 6 and is the number of sixth boundaries between the
old and the new accumulator value. -/
def Obligations.PeriodicNoiseClockCount : Prop :=
  ∀ old step : BitVec 32,
    let n := clocks6 old (old + step) (decide (2 ^ 32 ≤ old.toNat + step.toNat))
    n ≤ 6 ∧ n = (old.toNat + step.toNat) * 6 / 2 ^ 32 - old.toNat * 6 / 2 ^ 32

/-! ## Envelope -/

/-- 42_envelope.md R244: the attenuation stays within 0 to `ATT_MAX`; an evaluation only lowers it in ATTACK and only raises it
in the other states; nothing but an evaluation and RESET changes it. -/
def Obligations.EnvelopeStaysInBounds : Prop :=
  (∀ (s : State) (c : ChanId) (k : OpId), ((s.chan c).op k).att ≤ params.attMax →
    ∃ t, exec .adv s = .next t ∧ ((t.chan c).op k).att ≤ params.attMax ∧
      let o := (s.chan c).op k
      let evaluated := if o.keyPend = true ∧ o.dly = 0 then EnvState.attack else o.egs
      (fPcm s.rb c = true → ((t.chan c).op k).att = o.att) ∧
      (evaluated = .attack → ((t.chan c).op k).att ≤ o.att) ∧
      (evaluated ≠ .attack → o.att ≤ ((t.chan c).op k).att)) ∧
  (∀ (s : State) (i : Instr) (c : ChanId) (k : OpId), i ≠ .adv → i ≠ .rst →
    ∃ t, exec i s = .next t ∧ ((t.chan c).op k).att = ((s.chan c).op k).att) ∧
  (∀ (s : State) (c : ChanId) (k : OpId), ∃ t, exec .rst s = .next t ∧ ((t.chan c).op k).att = params.attMax)

/-- 42_envelope.md R234 to R236, R238, R240: an evaluation in ATTACK, entered by a latched key-on with no delay left or under
way already (a new key-on waiting its delay or not), runs the attack update, with `ENVCNT` already incremented, and then the
transitions; a waiting key-on counts its delay down. -/
def Obligations.KeyOnEntersAttack : Prop :=
  ∀ (s : State) (c : ChanId) (k : OpId), fPcm s.rb c = false →
    ((((s.chan c).op k).keyPend = true ∧ ((s.chan c).op k).dly = 0) ∨ ((s.chan c).op k).egs = .attack) →
    ∃ t, exec .adv s = .next t ∧
      let o := (s.chan c).op k
      let base : Int := 2 * fAr s.rb c k
      let rate : Nat := if base = 0 then 0 else
        (min (params.rateMax : Int) (max 0 (base + params.ks (params.keycode (fFreq s.rb c)) (fKsr s.rb c k)))).toNat
      let att' := if params.rateInstant ≤ rate then 0
        else o.att - params.atk o.att (params.envInc rate (s.glob.envCnt + 1).toNat)
      (((t.chan c).op k).keyPend = true ↔ o.keyPend = true ∧ o.dly ≠ 0) ∧
      ((t.chan c).op k).dly.toNat = (if o.keyPend = true then o.dly.toNat - 1 else o.dly.toNat) ∧
      ((t.chan c).op k).att = att' ∧
      ((t.chan c).op k).egs =
        if att' ≠ 0 then EnvState.attack
        else if params.slAtt (fSl s.rb c k) ≤ 0 then .sustain else .decay

/-- 42_envelope.md R234: a latched key-on with an onset delay of `m` samples stays latched for `m` ADVANCEs, the counter falling
by one at each, and is served by the next one (`PCM` clear throughout, since no ADVANCE writes `FLAGS0`). -/
def Obligations.OnsetDelayLastsItsCount : Prop :=
  ∀ (s : State) (c : ChanId) (k : OpId) (m : Nat), fPcm s.rb c = false → ((s.chan c).op k).keyPend = true →
    ((s.chan c).op k).dly.toNat = m →
    (∀ n ≤ m, ∃ t, execAll (List.replicate n .adv) s = .next t ∧
      ((t.chan c).op k).keyPend = true ∧ ((t.chan c).op k).dly.toNat = m - n) ∧
    (∃ t, execAll (List.replicate (m + 1) .adv) s = .next t ∧ ((t.chan c).op k).keyPend = false)

/-- 42_envelope.md R235, R236, R239, R240: in DECAY, SUSTAIN and RELEASE, with no key-on latched or one that waits its
delay, an evaluation adds the increment of the state's rate, clamped at `ATT_MAX`, and DECAY hands over to SUSTAIN at the
sustain level; a waiting key-on stays latched and counts its delay down (R234). -/
def Obligations.EnvelopeRisesByIncrement : Prop :=
  ∀ (s : State) (c : ChanId) (k : OpId), fPcm s.rb c = false →
    (((s.chan c).op k).keyPend = false ∨ ((s.chan c).op k).dly ≠ 0) →
    ((s.chan c).op k).egs ≠ .attack →
    ∃ t, exec .adv s = .next t ∧
      let o := (s.chan c).op k
      let base : Int :=
        match o.egs with
        | .attack => 2 * fAr s.rb c k
        | .decay => 2 * fDr s.rb c k
        | .sustain => 2 * fSr s.rb c k
        | .release => if fRr s.rb c k = 0 then 0 else 4 * fRr s.rb c k + 2
      let rate : Nat := if base = 0 then 0 else
        (min (params.rateMax : Int) (max 0 (base + params.ks (params.keycode (fFreq s.rb c)) (fKsr s.rb c k)))).toNat
      ((t.chan c).op k).keyPend = o.keyPend ∧
      ((t.chan c).op k).dly.toNat = (if o.keyPend = true then o.dly.toNat - 1 else o.dly.toNat) ∧
      ((t.chan c).op k).att = min params.attMax (o.att + params.envInc rate (s.glob.envCnt + 1).toNat) ∧
      ((t.chan c).op k).egs =
        if o.egs = .decay ∧ params.slAtt (fSl s.rb c k) ≤ ((t.chan c).op k).att then .sustain else o.egs

/-- 42_envelope.md R236, R245: a base rate of 0 never moves the attenuation, whatever the key scaling: `AR` = 0 in ATTACK and
`RR` = 0 in RELEASE. -/
def Obligations.ZeroRateNeverMovesEnvelope : Prop :=
  ∀ (s : State) (c : ChanId) (k : OpId), ((s.chan c).op k).att ≤ params.attMax → ((s.chan c).op k).keyPend = false →
    (((s.chan c).op k).egs = .attack ∧ fAr s.rb c k = 0 ∨ ((s.chan c).op k).egs = .decay ∧ fDr s.rb c k = 0 ∨
      ((s.chan c).op k).egs = .sustain ∧ fSr s.rb c k = 0 ∨ ((s.chan c).op k).egs = .release ∧ fRr s.rb c k = 0) →
    ∃ t, exec .adv s = .next t ∧ ((t.chan c).op k).att = ((s.chan c).op k).att ∧
      (((s.chan c).op k).egs = .attack → ((s.chan c).op k).att ≠ 0 → ((t.chan c).op k).egs = .attack) ∧
      (((s.chan c).op k).egs = .release → ((t.chan c).op k).egs = .release)

/-! ## Operator values -/

/-- 44_modulation.md R310 to R314, 43_waveform.md R270, R285, 45_lfo.md R343: the value an evaluation leaves is the waveform at the
index of the new phase plus the modulation input (the preceding operator's value of this ADVANCE, or operator 0's
averaged history), scaled by the gain of the attenuation sum, and negated by ring modulation. That the key-scale
level reads `FREQ` itself is the model's reading (log entry 23). -/
def Obligations.OperatorValueFollowsPipeline : Prop :=
  ∀ (s : State) (c : ChanId) (k : OpId), fPcm s.rb c = false → NoPhaseReset s c →
    ∃ t, exec .adv s = .next t ∧
      let o := (t.chan c).op k
      let am := if fAm s.rb c k then (if fLfod s.rb c k then t.glob.amVal else t.glob.amVal / 2) else 0
      let source : Int := if k = 0 then ((s.chan c).fb1 + (s.chan c).fb2) / 2 else ((t.chan c).op (k - 1)).val
      let pmin : Int := if fMod s.rb c k = 0 then 0 else source / 2 ^ params.modShift (fMod s.rb c k)
      let p10 : Nat := ((((o.phase.toNat / 2 ^ 22 : Nat) : Int) + pmin) % 1024).toNat
      let tot := min params.attMax
        (o.att + am + 8 * fTl s.rb c k + params.kslAtt (fFreq s.rb c) (fKsl s.rb c k))
      let value : Int := rawWave params s.rb s.pcm c k o p10 * params.lin tot / 4096
      let reference : Int := if k = 0 then ((s.chan c).op 3).val else ((t.chan c).op (k - 1)).val
      o.val = if fRing s.rb c k = true ∧ reference < 0 then -value else value

/-- 44_modulation.md R316, R317, R319: the channel's raw sample, kept in `PREVRAW`, is the sum of the operators' values shifted
right by `7 − OUT`, nothing for `OUT` = 0; the value that counts is blended with the previous one by the distance past an
edge, where an evaluation that stepped flags one. At distance 0 the blended value is the previous one, and as the distance
approaches the step it approaches the present one, up to 2 units and 1/128 of their difference (the model's reading of the
linear blend, log entry 2). -/
def Obligations.ChannelSumOfOutLevels : Prop :=
  (∀ (prev value : Int) (step : Nat), 0 < step → params.blend prev value 0 step = prev) ∧
  (∀ (prev value : Int) (d step : Nat), d < step →
    128 * step * |params.blend prev value d step - value| ≤ |value - prev| * (128 * (step - d) + step) + 256 * step) ∧
  ∀ (s : State) (c : ChanId), fPcm s.rb c = false →
    ∃ t, exec .adv s = .next t ∧
      let blended : OpId → Int := fun k =>
        let old := ((s.chan c).op k).phase
        let step := phaseStep params s.rb (advanceGlobals params s.glob) c k
        match (if syncFires s c k then none
          else edge s.rb c k old (old + step) (decide (2 ^ 32 ≤ old.toNat + step.toNat))) with
        | none => ((t.chan c).op k).val
        | some d => params.blend ((s.chan c).op k).prevOut ((t.chan c).op k).val d step.toNat
      let part : OpId → Int := fun k => if fOut s.rb c k = 0 then 0 else blended k / 2 ^ (7 - fOut s.rb c k)
      (t.chan c).prevRaw = part 0 + part 1 + part 2 + part 3

/-- 44_modulation.md R312, R317, R318: an evaluation shifts operator 0's history by its new value and sets every operator's
interpolation reference to its new value. -/
def Obligations.FeedbackHistoryShifts : Prop :=
  ∀ (s : State) (c : ChanId), fPcm s.rb c = false → ∃ t, exec .adv s = .next t ∧
    (t.chan c).fb2 = (s.chan c).fb1 ∧ (t.chan c).fb1 = ((t.chan c).op 0).val ∧
    ∀ k : OpId, ((t.chan c).op k).prevOut = ((t.chan c).op k).val

/-- 43_waveform.md R280, R285, R288, R290: an operator with the reserved waveform, or whose envelope and total level alone reach
`ATT_MAX`, has the value 0. -/
def Obligations.SilencedOperatorHasValueZero : Prop :=
  ∀ (s : State) (c : ChanId) (k : OpId), fPcm s.rb c = false →
    ∃ t, exec .adv s = .next t ∧
      (fWave s.rb c k = 6 ∨ params.attMax ≤ ((t.chan c).op k).att + 8 * fTl s.rb c k → ((t.chan c).op k).val = 0)

/-- 43_waveform.md R289, R276: which edges an evaluation flags, `x` being the accumulator before reduction modulo 2^32. The
saw's edge is phase 0; the pulse's are phase 0 and its threshold, neither when it is constant nor when one step passes both;
no other wave has one. A flag carries the distance past the edge, which is below the step. -/
def Obligations.EdgeDistanceBelowStep : Prop :=
  ∀ (rb : Memory) (c : ChanId) (k : OpId) (old step : BitVec 32),
    let x := old.toNat + step.toNat
    let flag := edge rb c k old (old + step) (decide (2 ^ 32 ≤ x))
    let threshold := if fWpar rb c k / 8 = 1 then fWpar rb c k % 8 * 128 else fDuty rb c * 4
    let e := threshold * 2 ^ 22
    let passes : Prop := (old.toNat < e ∧ e ≤ x) ∨ e + 2 ^ 32 ≤ x
    (∀ d, flag = some d → d < step.toNat) ∧
    (fWave rb c k = 2 → flag = if 2 ^ 32 ≤ x then some (x - 2 ^ 32) else none) ∧
    (fWave rb c k = 3 → threshold = 0 ∨ 1024 ≤ threshold → flag = none) ∧
    (fWave rb c k = 3 → 0 < threshold → threshold < 1024 →
      (2 ^ 32 ≤ x → ¬ passes → flag = some (x - 2 ^ 32)) ∧ (¬ 2 ^ 32 ≤ x → passes → flag = some (x - e)) ∧
      (2 ^ 32 ≤ x → passes → flag = none) ∧ (¬ 2 ^ 32 ≤ x → ¬ passes → flag = none)) ∧
    (fWave rb c k ≠ 2 → fWave rb c k ≠ 3 → flag = none)

/-- 43_waveform.md R272: the skew warp maps 0 to 1023 into itself, each half-cycle into itself, never falls, and is
the identity with no skew. -/
def Obligations.WarpKeepsHalfCycles : Prop :=
  (∀ p < 1024, warp params p 0 = p) ∧
  (∀ p < 512, ∀ sk < 4, warp params p sk < 512 ∧ 512 ≤ warp params (p + 512) sk ∧ warp params (p + 512) sk < 1024) ∧
  (∀ p q sk, p ≤ q → q < 1024 → sk < 4 → warp params p sk ≤ warp params q sk)

/-- 43_waveform.md R271, R273 to R278, R280, R281, R283: the raw sample of each `WAVE`, with the sub-fields of `WPAR` (skew
and rectifiers, quantization and inversion, eighths, none), and landmark values: the unskewed sine and triangle at the
quarters of the cycle, the saw's start and middle, the pulse on both sides of its threshold, and the PCM window. -/
def Obligations.WaveformLandmarks : Prop :=
  (∀ (rb pcm : Memory) (c : ChanId) (k : OpId) (o : OpState) (p10 : Nat),
    let v := rawWave params rb pcm c k o p10
    let wpar := fWpar rb c k
    let amp : Int := params.waveAmp
    let w := warp params p10 (wpar % 4)
    let rectified : Int → Int := fun x => if wpar / 4 % 2 = 1 then max x 0 else if wpar / 8 = 1 then |x| else x
    let zeroed := if wpar % 4 = 0 then 0 else if wpar % 4 = 1 then 4 else if wpar % 4 = 2 then 6 else 8
    let saw : Int := Int.tdiv ((((p10 - p10 % 2 ^ zeroed : Nat) : Int) - 512) * amp) 512
    let threshold := if wpar / 8 = 1 then wpar % 8 * 128 else fDuty rb c * 4
    (fWave rb c k = 0 → v = rectified (params.sine w)) ∧
    (fWave rb c k = 1 → v = rectified (if w < 256 then Int.tdiv (w * amp) 256
      else if w < 768 then Int.tdiv ((512 - w) * amp) 256 else Int.tdiv ((w - 1024) * amp) 256)) ∧
    (fWave rb c k = 2 → v = if wpar / 4 % 2 = 1 then -saw else saw) ∧
    (fWave rb c k = 3 → v = if p10 < threshold then amp else -amp) ∧
    (fWave rb c k = 4 → v = if o.lfsr32.getLsbD 0 then amp else -amp) ∧
    (fWave rb c k = 5 → v = if o.lfsr6.getLsbD 0 then amp else -amp) ∧
    (fWave rb c k = 6 → v = 0) ∧
    (fWave rb c k = 7 → v =
      s8 (Memory.read pcm ((fPcmRst rb c + p10) % 2 ^ params.pcmBits)).toNat * 2 ^ params.pcmwShift)) ∧
  sineWave params 0 0 = 0 ∧ sineWave params 0 256 = params.waveAmp ∧ sineWave params 0 512 = 0 ∧
  sineWave params 0 768 = -params.waveAmp ∧
  triangleWave params 0 0 = 0 ∧ triangleWave params 0 256 = params.waveAmp ∧ triangleWave params 0 512 = 0 ∧
  triangleWave params 0 768 = -params.waveAmp ∧
  sawWave params 0 0 = -params.waveAmp ∧ sawWave params 0 512 = 0 ∧ sawWave params 4 0 = params.waveAmp ∧
  (∀ duty p10 : Nat, p10 < duty * 4 → pulseWave params 0 duty p10 = params.waveAmp) ∧
  (∀ duty p10 : Nat, duty * 4 ≤ p10 → pulseWave params 0 duty p10 = -params.waveAmp) ∧
  (∀ (pcm : Memory) (base p10 : Nat), pcmWave params pcm base p10 =
    s8 (Memory.read pcm ((base + p10) % 2 ^ params.pcmBits)).toNat * 2 ^ params.pcmwShift)

/-! ## Phase resets -/

/-- 46_channel.md R381, R383, R370, 43_waveform.md R282: a requested one-shot reset is served by the next ADVANCE, in PCM mode as well: bit 0 of
`FLAGS1` alone is cleared, all four operators have phase 0, no wrap and seeded noise registers, and with `FLTRESET` the
filter state is 0. -/
def Obligations.OneShotPhaseReset : Prop :=
  ∀ (s : State) (c : ChanId), Memory.wf s.rb = true → fPhReset s.rb c = true → ∃ t, exec .adv s = .next t ∧
    Memory.read t.rb (c.val * 64 + 32 + 0x05) = Memory.read s.rb (c.val * 64 + 32 + 0x05) &&& 0xFE#8 ∧
    (∀ k : OpId, ((t.chan c).op k).phase = 0 ∧ ((t.chan c).op k).wrap = false ∧
      ((t.chan c).op k).lfsr32 = params.seed32 c k ∧ ((t.chan c).op k).lfsr6 = params.seed6 c k) ∧
    (fFltReset s.rb c = true → (t.chan c).flow = 0 ∧ (t.chan c).fband = 0 ∧ (t.chan c).fhigh = 0)

/-- 46_channel.md R382, R383: the periodic countdown reloads from `RESTIMER` when idle at 0, counts down by one, resets the
operators when it reaches 0, and holds with `TIMERSYNC` clear. With no one-shot request and the countdown off or short of
0, no reset fires: the operators and the filter state stay as the source and the output stages left them. -/
def Obligations.PeriodicPhaseReset : Prop :=
  ∀ (s : State) (c : ChanId), ∃ t, exec .adv s = .next t ∧
    let cnt := (s.chan c).rstCnt.toNat
    let left := (channelSample params c s).1.chan c
    (fTimerSync s.rb c = false → (t.chan c).rstCnt = (s.chan c).rstCnt) ∧
    (fTimerSync s.rb c = true →
      (t.chan c).rstCnt.toNat = (if cnt = 0 then max (fResTimer s.rb c) 1 else cnt) - 1 ∧
      ((t.chan c).rstCnt = 0 →
        (∀ k : OpId, ((t.chan c).op k).phase = 0 ∧ ((t.chan c).op k).wrap = false ∧
          ((t.chan c).op k).lfsr32 = params.seed32 c k ∧ ((t.chan c).op k).lfsr6 = params.seed6 c k) ∧
        (fFltReset s.rb c = true → (t.chan c).flow = 0 ∧ (t.chan c).fband = 0 ∧ (t.chan c).fhigh = 0))) ∧
    (fPhReset s.rb c = false → fTimerSync s.rb c = false ∨ (t.chan c).rstCnt ≠ 0 →
      (∀ k : OpId, (t.chan c).op k = left.op k) ∧
      (t.chan c).flow = left.flow ∧ (t.chan c).fband = left.fband ∧ (t.chan c).fhigh = left.fhigh)

/-! ## Sweeps -/

/-- 46_channel.md R373, R374: an enabled engine's timer reloads from `max(SPEED, 1)` when idle at 0 and counts down by one; a
disabled one holds. The target and the `AMT` byte stay as they are unless the timer reaches 0. -/
def Obligations.SweepTimersCountDown : Prop :=
  ∀ (s : State) (c : ChanId) (e : Sweep), ∃ t, exec .adv s = .next t ∧
    let cnt := (sweepTimer e (s.chan c)).toNat
    (fSweepEn s.rb c e = false → sweepTimer e (t.chan c) = sweepTimer e (s.chan c)) ∧
    (fSweepEn s.rb c e = true →
      (sweepTimer e (t.chan c)).toNat = (if cnt = 0 then max (fSpeed s.rb c e) 1 else cnt) - 1) ∧
    (fSweepEn s.rb c e = false ∨ sweepTimer e (t.chan c) ≠ 0 →
      sweepValue t.rb c e = sweepValue s.rb c e ∧ fAmt t.rb c e = fAmt s.rb c e)

/-- 46_channel.md R376, R377: a firing with `WRAPF` and `BOUNCE` clear moves the target by `MAG` in the direction `UP`, no further
than the bound where it lies ahead and else the end of the range. -/
def Obligations.SweepClampsAtLimit : Prop :=
  ∀ (s : State) (c : ChanId) (e : Sweep), Memory.wf s.rb = true → SweepFires s c e → fBounce s.rb c e = false →
    fWrapF s.rb c e = false → ∃ t, exec .adv s = .next t ∧
    let v := sweepValue s.rb c e
    let lo : Int := if e = .vol then -128 else 0
    let hi : Int := if e = .vol then 127 else 65535
    let bound : Int := if e = .vol then s8 (fBound s.rb c e) else 256 * fBound s.rb c e
    sweepValue t.rb c e =
      (if fUp s.rb c e then min (if v ≤ bound then bound else hi) (v + fMag s.rb c e)
       else max (if bound ≤ v then bound else lo) (v - fMag s.rb c e)) ∧
    fAmt t.rb c e = fAmt s.rb c e

/-- 46_channel.md R378: a firing with `WRAPF` set and `BOUNCE` clear rolls the target over in its width; the bound is ignored. -/
def Obligations.SweepWrapsInWidth : Prop :=
  ∀ (s : State) (c : ChanId) (e : Sweep), Memory.wf s.rb = true → SweepFires s c e → fBounce s.rb c e = false →
    fWrapF s.rb c e = true → ∃ t, exec .adv s = .next t ∧
    let v := sweepValue s.rb c e
    let moved : Int := if fUp s.rb c e then v + fMag s.rb c e else v - fMag s.rb c e
    sweepValue t.rb c e = (if e = .vol then (moved + 128) % 256 - 128 else moved % 65536) ∧
    fAmt t.rb c e = fAmt s.rb c e

/-- 46_channel.md R376, R379: a firing with `BOUNCE` set, whatever `WRAPF`, reflects a target that would pass the limit about it,
clamped to the range, and inverts `UP` in the stored `AMT` byte; else the target moves and `AMT` stays. -/
def Obligations.SweepBouncesAtLimit : Prop :=
  ∀ (s : State) (c : ChanId) (e : Sweep), Memory.wf s.rb = true → SweepFires s c e → fBounce s.rb c e = true →
    ∃ t, exec .adv s = .next t ∧
    let v := sweepValue s.rb c e
    let lo : Int := if e = .vol then -128 else 0
    let hi : Int := if e = .vol then 127 else 65535
    let bound : Int := if e = .vol then s8 (fBound s.rb c e) else 256 * fBound s.rb c e
    let lim := if fUp s.rb c e then (if v ≤ bound then bound else hi) else (if bound ≤ v then bound else lo)
    let moved : Int := if fUp s.rb c e then v + fMag s.rb c e else v - fMag s.rb c e
    ((fUp s.rb c e = true ∧ lim < moved ∨ fUp s.rb c e = false ∧ moved < lim) →
      sweepValue t.rb c e = min hi (max lo (2 * lim - moved)) ∧
      Memory.read t.rb (c.val * 64 + 32 + (sweepBase e + 2)) =
        Memory.read s.rb (c.val * 64 + 32 + (sweepBase e + 2)) ^^^ 0x20#8) ∧
    (¬(fUp s.rb c e = true ∧ lim < moved ∨ fUp s.rb c e = false ∧ moved < lim) →
      sweepValue t.rb c e = moved ∧ fAmt t.rb c e = fAmt s.rb c e)

/-- 46_channel.md R384 (Scenario B): a volume of `v`, swept down by 1 at every ADVANCE with bound 0, reads `v − n` after `n`
ADVANCEs, then 0, and stays 0. -/
def Obligations.VolumeSweepDownToBound : Prop :=
  ∀ (s : State) (c : ChanId) (v n : Nat), Memory.wf s.rb = true → v ≤ 127 →
    (Memory.read s.rb (c.val * 64 + 32 + 0x02)).toNat = v → fSweepEn s.rb c .vol = true →
    fSpeed s.rb c .vol = 1 → fAmt s.rb c .vol = 1 → fBound s.rb c .vol = 0 → (s.chan c).swtVol = 0 →
    ∃ t, execAll (List.replicate n .adv) s = .next t ∧ (Memory.read t.rb (c.val * 64 + 32 + 0x02)).toNat = v - n

/-! ## Mute, filter and output -/

/-- 46_channel.md R372: the mute flags decide nothing in an ADVANCE but the filter state and the outputs: the register bank, the
rest of the transient state, PCM memory, the LFO and `ENVCNT` come out the same; a muted channel's filter state is 0. -/
def Obligations.MuteTouchesFilterOnly : Prop :=
  ∀ (s : State) (v : Vector Bool 9), ∃ t u, exec .adv s = .next t ∧ exec .adv { s with mute := v } = .next u ∧
    u.rb = t.rb ∧ u.pcm = t.pcm ∧ (∀ c : ChanId, (u.chan c).clearFilter = (t.chan c).clearFilter) ∧
    u.glob.amVal = t.glob.amVal ∧ u.glob.pmVal = t.glob.pmVal ∧ u.glob.envCnt = t.glob.envCnt ∧
    (∀ c : ChanId, v[c] = true → (u.chan c).flow = 0 ∧ (u.chan c).fband = 0 ∧ (u.chan c).fhigh = 0) ∧
    (∀ c : ChanId, v[c] = s.mute[c] → u.chan c = t.chan c)

/-- 46_channel.md R367, R368, R369: on a channel that is not muted and whose filter no phase reset clears, the filter state
holds with no filter output selected, and with one selected it takes the two-integrator update of the ring-modulated,
volume-scaled sample; the low and the band state of a running filter stay within one bound, whatever the input. -/
def Obligations.FilterBypassHoldsAndClipBounds : Prop :=
  ∃ b : Int, ∀ (s : State) (c : ChanId), ∃ t, exec .adv s = .next t ∧
    let selected : Prop := fFlp s.rb c = true ∨ fFhp s.rb c = true ∨ fFbp s.rb c = true
    let ch := s.chan c
    let raw := (t.chan c).prevRaw
    let ringed :=
      if fCring s.rb c then raw * (s.chan (if c = 8 then 0 else c + 1)).prevRaw / 2 ^ params.ringShift else raw
    let x := Int.tdiv (ringed * fVol s.rb c) 128
    let f := params.svfF (fCutoff s.rb c)
    let low := params.svfClip (ch.flow + f * ch.fband / 65536)
    let high := x * params.svfPregain (fReson s.rb c) / 256 - low - params.svfQ (fReson s.rb c) * ch.fband / 256
    (s.mute[c] = false → NoPhaseReset s c ∨ fFltReset s.rb c = false →
      (¬ selected → (t.chan c).flow = ch.flow ∧ (t.chan c).fband = ch.fband ∧ (t.chan c).fhigh = ch.fhigh) ∧
      (selected → (t.chan c).flow = low ∧ (t.chan c).fhigh = high ∧
        (t.chan c).fband = params.svfClip (ch.fband + f * high / 65536))) ∧
    (selected → |(t.chan c).flow| ≤ b ∧ |(t.chan c).fband| ≤ b)

/-- 47_mixer.md R420 to R422: on each side the new input is the sum of the nine channels' contributions (where no partial sum
leaves the 64-bit accumulator; beyond that it is free, log entry 5), and the output is the new input less the previous one
plus the leaky term of the previous output, returned saturated to 32 bits and kept unsaturated (where it fits the 64-bit
state; what `HY1` holds beyond that is free, log entry 6). -/
def Obligations.OutputIsBlockedAndSaturated : Prop :=
  ∀ s : State, ∃ t left right, exec .adv s = .next t ∧ t.response = .stereo left right ∧
    let ls := channels.map fun c => (channelSample params c s).2.left
    let rs := channels.map fun c => (channelSample params c s).2.right
    let yl := t.glob.hx1l.toInt - s.glob.hx1l.toInt + params.hpfR * s.glob.hy1l.toInt / 65536
    let yr := t.glob.hx1r.toInt - s.glob.hx1r.toInt + params.hpfR * s.glob.hy1r.toInt / 65536
    ((∀ n, -2 ^ 63 ≤ (ls.take n).sum ∧ (ls.take n).sum < 2 ^ 63) → t.glob.hx1l.toInt = ls.sum) ∧
    ((∀ n, -2 ^ 63 ≤ (rs.take n).sum ∧ (rs.take n).sum < 2 ^ 63) → t.glob.hx1r.toInt = rs.sum) ∧
    left.toInt = min (2 ^ 31 - 1) (max (-2 ^ 31) yl) ∧ right.toInt = min (2 ^ 31 - 1) (max (-2 ^ 31) yr) ∧
    (-2 ^ 63 ≤ yl → yl < 2 ^ 63 → t.glob.hy1l.toInt = yl) ∧ (-2 ^ 63 ≤ yr → yr < 2 ^ 63 → t.glob.hy1r.toInt = yr)

/-- 46_channel.md R364, R366, R367, R371, R372: channel ring modulation multiplies by the next channel's previous raw sample,
channel 8's next being channel 0; volume divides by 128 toward zero, so −128 inverts and 0 silences; the filter's output is
the sum of the selected accumulators, or its input with none selected; a muted channel contributes 0 and another the
filter's output panned. -/
def Obligations.ChannelOutputFormula : Prop :=
  (∀ (s : State) (c : ChanId) (raw : Int), channelRing params c s raw =
    if fCring s.rb c then raw * (s.chan (if c = 8 then 0 else c + 1)).prevRaw / 2 ^ params.ringShift else raw) ∧
  (∀ x : Int, applyVolume (-128) x = -x ∧ applyVolume 0 x = 0) ∧
  (∀ vol x : Int, -128 ≤ vol → vol ≤ 127 → |applyVolume vol x| ≤ |x|) ∧
  (∀ (s : State) (c : ChanId) (raw : Int), s.mute[c] = true →
    (channelOutput params c s raw).2 = { raw := raw, left := 0, right := 0 }) ∧
  (∀ (s : State) (c : ChanId) (raw : Int), s.mute[c] = false →
    let after := (channelOutput params c s raw).1.chan c
    let y :=
      if fFlp s.rb c = false ∧ fFhp s.rb c = false ∧ fFbp s.rb c = false then
        Int.tdiv (channelRing params c s raw * fVol s.rb c) 128
      else (if fFlp s.rb c then after.flow else 0) + (if fFhp s.rb c then after.fhigh else 0) +
        (if fFbp s.rb c then after.fband else 0)
    (channelOutput params c s raw).2 =
      { raw := raw, left := y * params.panL (fPan s.rb c) / 2 ^ params.panShift,
        right := y * params.panR (fPan s.rb c) / 2 ^ params.panShift })

/-! ## Invariants and isolation -/

/-- 10_state.md R41, R45, 60_exceptions.md R449: every step keeps the ranges of the state and the canonical form of both byte
stores. -/
def Obligations.InvariantKeptByEveryStep : Prop :=
  ∀ s t : State, State.Inv params s → step s = .next t → State.Inv params t

/-- 43_waveform.md R277 to R279: once the noise registers hold non-zero values, no step brings one of them to 0. -/
def Obligations.NoiseRegistersNeverDie : Prop :=
  ∀ s t : State, State.NoiseAlive s → step s = .next t → State.NoiseAlive t

/-- The reset state has both invariants, and RESET from the power-on state (70_reset_and_hazards.md R470) gives it (that reset is
the power-on state with one RESET performed is the model's choice, log entry 11). -/
def Obligations.ResetStateMeetsInvariants : Prop :=
  State.Inv params State.reset ∧ State.NoiseAlive State.reset ∧
  ∃ t, exec .rst State.powerOn = .next t ∧ SameBlock State.reset t

/-- 46_channel.md R360, R364, 44_modulation.md R310: what an ADVANCE makes of a channel depends on that channel's registers, its
transient state, its mute flag, PCM memory, the counters and the next channel's previous raw sample alone. -/
def Obligations.ChannelsAreIsolated : Prop :=
  ∀ (s s' : State) (c : ChanId), Memory.wf s.rb = true → Memory.wf s'.rb = true → ChannelAgrees c s s' →
    ∃ t t', exec .adv s = .next t ∧ exec .adv s' = .next t' ∧ t'.chan c = t.chan c ∧
      ∀ a, a / 64 = c.val → Memory.read t'.rb a = Memory.read t.rb a

/-- 10_state.md R32, 30_encoding.md R132: bits and bytes that no field with an effect uses change no output and no transient
state of an ADVANCE, and stay without effect. -/
def Obligations.UnusedBitsHaveNoEffect : Prop :=
  ∀ (s : State) (rb' : Memory), Memory.wf s.rb = true → Memory.wf rb' = true → AgreeOnUsedBits s.rb rb' →
    ∃ t t', exec .adv s = .next t ∧ exec .adv (s.setRb rb') = .next t' ∧ t'.response = t.response ∧
      t'.chans = t.chans ∧ t'.glob = t.glob ∧ AgreeOnUsedBits t.rb t'.rb

end Statements
end

