-- ==== Sys2Proof/Laws/Operators.lean ====
section
/-! SUPPORT. One operator through `voice` and through the channel step: each operator is evaluated once, from its own state
before, and what follows in the same ADVANCE changes it by the phase reset action only. -/

namespace Sys2Proof.Machine

/-! ## One evaluation -/

/-- What an evaluation leaves of the operator it evaluates. -/
theorem evalOperator_op_same (P : Params) (rb pcm : Memory) (g : Globals) (c : ChanId) (snap : VoiceSnapshot)
    (acc : ChanState × Int) (k : OpId) (o : OpState) (ho : acc.1.op k = o) :
    ∃ v, (evalOperator P rb pcm g c snap acc k).1.op k =
      { envEval P rb g c k (moveOperator P rb g c snap k o).op with val := v, prevOut := v } ∧
      v = operatorValue P rb pcm g c k acc.1 snap.v3p (envEval P rb g c k (moveOperator P rb g c snap k o).op) := by
  subst ho
  refine ⟨_, ?_, rfl⟩
  simp only [evalOperator, recordValue_op, if_true]

/-- An evaluation leaves the other operators alone. -/
theorem evalOperator_op_ne (P : Params) (rb pcm : Memory) (g : Globals) (c : ChanId) (snap : VoiceSnapshot)
    (acc : ChanState × Int) (j k : OpId) (h : j ≠ k) : (evalOperator P rb pcm g c snap acc k).1.op j = acc.1.op j := by
  simp only [evalOperator, recordValue_op, if_neg h]

/-- `voice` evaluates operator `k` from its state before: all but its value is the envelope evaluation of its step A. -/
theorem voice_op (P : Params) (rb pcm : Memory) (g : Globals) (c : ChanId) (ch : ChanState) (k : OpId) :
    ∃ v, (voice P rb pcm g c ch).1.op k =
      { envEval P rb g c k (moveOperator P rb g c (snapshot ch) k (ch.op k)).op with val := v, prevOut := v } := by
  have hne := fun (acc : ChanState × Int) (j k : OpId) (h : j ≠ k) =>
    evalOperator_op_ne P rb pcm g c (snapshot ch) acc j k h
  have hself := fun (acc : ChanState × Int) (k : OpId) (ho : acc.1.op k = ch.op k) =>
    evalOperator_op_same P rb pcm g c (snapshot ch) acc k (ch.op k) ho
  simp only [voice, operators, List.foldl]
  generalize hf : evalOperator P rb pcm g c (snapshot ch) = f at hne hself
  match k with
  | 0 =>
    obtain ⟨v, h, _⟩ := hself (ch, 0) 0 rfl
    exact ⟨v, by rw [hne _ 0 3 (by decide), hne _ 0 2 (by decide), hne _ 0 1 (by decide), h]⟩
  | 1 =>
    obtain ⟨v, h, _⟩ := hself (f (ch, 0) 0) 1 (hne _ 1 0 (by decide))
    exact ⟨v, by rw [hne _ 1 3 (by decide), hne _ 1 2 (by decide), h]⟩
  | 2 =>
    obtain ⟨v, h, _⟩ := hself (f (f (ch, 0) 0) 1) 2 (by rw [hne _ 2 1 (by decide), hne _ 2 0 (by decide)])
    exact ⟨v, by rw [hne _ 2 3 (by decide), h]⟩
  | 3 =>
    obtain ⟨v, h, _⟩ := hself (f (f (f (ch, 0) 0) 1) 2) 3
      (by rw [hne _ 3 2 (by decide), hne _ 3 1 (by decide), hne _ 3 0 (by decide)])
    exact ⟨v, h⟩

/-! ## The rest of the channel step -/

/-- The stages after the source leave the operators alone. -/
theorem channelOutput_op (P : Params) (c : ChanId) (s : State) (raw : Int) (k : OpId) :
    ((channelOutput P c s raw).1.chan c).op k = (s.chan c).op k := by
  simp only [channelOutput, State.setChan_chan_same, mutePan, filterStage]
  split <;> split <;> rfl

theorem sweeps_op (c : ChanId) (s : State) (k : OpId) : ((sweeps c s).chan c).op k = (s.chan c).op k := by
  have h : ∀ (s : State) (e : Sweep), ((sweep c s e).chan c).op k = (s.chan c).op k := by
    intro s e
    simp only [sweep]; split
    · split <;> simp
    · rfl
  simp only [sweeps, List.foldl, h]

/-- The phase resets apply the reset action to an operator or leave it. -/
theorem phaseResets_op (P : Params) (c : ChanId) (s : State) (k : OpId) :
    ((phaseResets P c s).chan c).op k = (s.chan c).op k ∨
      ((phaseResets P c s).chan c).op k = reseed P c k { (s.chan c).op k with phase := 0, wrap := false } := by
  simp only [phaseResets, State.setRb_chan, State.setChan_chan_same, phaseResetAction]
  generalize (if fTimerSync s.rb c = true then _ else _ : BitVec 16) = cnt
  split
  · right
    split
    · rw [ChanState.clearFilter_op, ChanState.mapOps_op]; rfl
    · rw [ChanState.mapOps_op]; rfl
  · left; rfl

/-- A countdown ticks to 0 exactly where it expires. -/
theorem countdown_eq_zero_iff (period : Nat) (h : period < 65536) (t : BitVec 16) :
    countdown period t = 0 ↔ expires period t := by
  have h0 : (0 : BitVec 16).toNat = 0 := rfl
  have h1 : (1 : BitVec 16).toNat = 1 := rfl
  have ht := t.isLt
  simp only [countdown, expires, ← BitVec.toNat_inj, BitVec.toNat_sub, h0, h1]
  split
  · rw [BitVec.toNat_ofNat]; omega
  · omega

/-- Where no reset fires they leave it. -/
theorem phaseResets_op_of_quiet (P : Params) (c : ChanId) (s : State) (k : OpId) (h : NoPhaseReset s c) :
    ((phaseResets P c s).chan c).op k = (s.chan c).op k := by
  obtain ⟨h1, h2⟩ := h
  have hp : (fTimerSync s.rb c && decide
      ((if fTimerSync s.rb c then countdown (fResTimer s.rb c) (s.chan c).rstCnt else (s.chan c).rstCnt) = 0)) = false := by
    rcases h2 with h2 | h2
    · simp [h2]
    · rw [← countdown_eq_zero_iff (fResTimer s.rb c) (rbNat16_lt _ _)] at h2
      cases fTimerSync s.rb c
      · rfl
      · simpa only [if_true, Bool.true_and, decide_eq_false_iff_not] using h2
  simp only [phaseResets, State.setRb_chan, State.setChan_chan_same, h1, hp, Bool.or_self]
  rfl

/-- An operator's attenuation after a channel step in voice mode is that of its one evaluation. -/
theorem channelStep_op_att (P : Params) (c : ChanId) (s : State) (k : OpId) (h : fPcm s.rb c = false) :
    (((channelStep P c s).1.chan c).op k).att = (((voice P s.rb s.pcm s.glob c (s.chan c)).1).op k).att := by
  have hs : (channelSource P c s).1.chan c = (voice P s.rb s.pcm s.glob c (s.chan c)).1 := by
    simp only [channelSource, h, Bool.false_eq_true, if_false, State.setChan_chan_same]
  simp only [channelStep]
  rcases phaseResets_op P c (sweeps c (channelOutput P c (channelSource P c s).1 (channelSource P c s).2).1) k with e | e
  · rw [e, sweeps_op, channelOutput_op, hs]
  · rw [e, reseed_att, sweeps_op, channelOutput_op, hs]

end Sys2Proof.Machine
end

