-- ==== Sys2Proof/Tests/Slice0.lean ====
section
/-! SUPPORT. Tests. Expected values are the spec's own: 95_test_vectors.md (named by vector), or the rule named. Tests of
the arithmetic run the operations under the Reference Configuration, as the vectors do; the witnesses of the statements
are about the uninterpreted instance. -/

namespace Sys2Proof.Tests

open Sys2Proof Sys2Proof.Machine

/-! ## WellFormed smoke test: an ill-formed command for each check (30_encoding.md R134) -/

theorem test_wf_wr_addr : (Instr.wr 1024 0).wellFormed = false := by decide
theorem test_wf_wr_data : (Instr.wr 0 256).wellFormed = false := by decide
theorem test_wf_rd_addr : (Instr.rd 1024).wellFormed = false := by decide
theorem test_wf_mute_ch : (Instr.mute 16 true).wellFormed = false := by decide
theorem test_wf_pcmw_paddr : (Instr.pcmw 65536 0).wellFormed = false := by decide
theorem test_wf_pcmw_data : (Instr.pcmw 0 256).wellFormed = false := by decide

/-! ## Decoding: words written out from the encodings (30_encoding.md R123; EC-1 to EC-30) -/

theorem test_decode_wr : decode 0b0001000000100000_0000000011010110#32 = .ok (.wr 32 0xD6) := by decide
theorem test_decode_rd : decode 0b0010001111111111_0000000000000000#32 = .ok (.rd 1023) := by decide
theorem test_decode_adv : decode 0b0011000000000000_0000000000000000#32 = .ok .adv := by decide
theorem test_decode_rst : decode 0b0100000000000000_0000000000000000#32 = .ok .rst := by decide
theorem test_decode_mute : decode 0b0101000000000011_0000000000000001#32 = .ok (.mute 3 true) := by decide
theorem test_decode_mute_off : decode 0b0101000000001001_0000000000000000#32 = .ok (.mute 9 false) := by decide
theorem test_decode_pcmw : decode 0b0110000000010010_0011010001111111#32 = .ok (.pcmw 0x1234 0x7F) := by decide
theorem test_decode_pcmw_top : decode 0x60FFFF80#32 = .ok (.pcmw 0xFFFF 0x80) := by decide

theorem test_decode_reserved :
    [0x00000000#32, 0x70000000#32, 0xF0000000#32].map decode = List.replicate 3 (.error .reservedOpcode) := by decide

theorem test_decode_must_be_zero :
    [0x14000000#32, 0x10000100#32, 0x20000001#32, 0x30000001#32, 0x40010000#32, 0x50000002#32, 0x51000000#32,
      0x61000000#32].map decode = List.replicate 8 (.error .mustBeZero) := by decide

theorem test_decodeTableWord : decodeTableWord 32 0x1258005A = some (.wr 600 0x5A) := by decide

/-! ## Listings (30_encoding.md R134, R135) -/

theorem test_line : assembleWords "  wr 36, 0x01 ; gate on".toList = some [0x10240001#32] := by decide
theorem test_line_range : assembleLine "wr 1024, 0".toList = none := by decide
theorem test_line_pseudo : assembleLine "wrch16 0, 0x00, 0x1CD6".toList = some [.wr 32 0xD6, .wr 33 0x1C] := by decide

/-! ## One step of each command -/

/-- A state with this register bank. -/
def bank (rb : Memory) : State := State.powerOn.setRb rb

/-- A state with this register bank and this operator as channel 0's operator 0. -/
def bankOp (rb : Memory) (o : OpState) : State := (bank rb).setChan 0 ((State.powerOn.chan 0).setOp 0 o)

/-- EC-40: a rising gate edge latches a key-on, `DELAY` = 1 loading 512 (EN-41). -/
theorem test_wr_key_on : (((writeRegister 36 1 (bank [(4, 0x20)])).chan 0).op 0).dly = 512 := by decide

/-- EC-43: no gate edge from 0 to 0. -/
theorem test_wr_no_edge : (((writeRegister 36 2 (bank [])).chan 0).op 0).keyPend = false := by decide

/-- EC-5: 600 aliases byte 24. -/
theorem test_rd_alias : readRegister 600 (bank [(24, 0x5A)]) = 0x5A := by decide

/-- EC-10. -/
theorem test_mute_sets : (setMute 3 true State.powerOn).mute[3] = true := by decide

/-- EC-11. -/
theorem test_mute_above : (setMute 9 true State.powerOn).mute = noMute := by decide

/-- EC-13. -/
theorem test_pcmw : Memory.read (writePcm .rc 0xFFFF 0x80 State.powerOn).pcm 0xFFFF = 0x80 := by decide +kernel

/-- RS-2: operator (1, 2) after RESET. -/
theorem test_rst_seeds : (((bank [(5, 0x77)]).resetBlock .rc).chan 1).op 2 =
    { phase := 0, wrap := false, att := 1023, egs := .release, keyPend := false, dly := 0,
      lfsr32 := 0x00070007, lfsr6 := 7, val := 0, prevOut := 0 } := by decide +kernel

/-- MN-1 at ADVANCE 1: `MUL` 1, `AR` 31, `OUT` 7, `FREQ` 0x1CD6, `VOL` 127, key-on latched after RESET. -/
theorem test_adv_sine : (advanceCommand .rc (writeRegister 36 1 ((State.resetWith .rc).setRb
    [(0, 1), (2, 31), (7, 7), (32, 0xD6), (33, 0x1C), (34, 127)]))).response = .stereo 444 444 := by decide +kernel

/-- CP-17 at its second firing: a volume of 1 swept down by 2 with bounce about 0 reads 1, and `AMT` 0xA2. -/
theorem test_adv_bounce : (fun rb => (Memory.read rb 34, Memory.read rb 54)) (advanceCommand .rc ((State.resetWith .rc).setRb
    [(34, 1), (37, 0x20), (52, 1), (54, 0x82)])).rb = (1, 0xA2) := by decide +kernel

/-! ## Vectors of the shared operations -/

/-- PH-9, PH-13, PH-22: base step, ratio-mode steps. -/
theorem test_phase_step : baseStep 0xFFFF = 349520000 ∧
    phaseStep .rc [(0, 15), (32, 0xD6), (33, 0x1C)] .zero 0 0 = 590560005 ∧
    phaseStep .rc [(0, 15), (32, 0xFF), (33, 0xFF)] .zero 0 0 = 947832704 := by decide +kernel

/-- PH-31 and PH-46: vibrato in ratio and in fixed mode. -/
theorem test_vibrato :
    phaseStep .rc [(0, 0x41), (2, 0x80), (32, 0xD6), (33, 0x1C)] { Globals.zero with pmVal := -128 } 0 0 = 39332219 ∧
    phaseStep .rc [(0, 0x4F), (2, 0x80), (3, 0xE0), (6, 8)] { Globals.zero with pmVal := 128 } 0 0 = 174250000 := by
  decide +kernel

/-- WV-3, WV-8, WV-21 and WV-37, one index each. -/
theorem test_waves : sineWave .rc 2 384 = 7567 ∧ triangleWave .rc 1 128 = 6143 ∧ sawWave .rc 1 255 = -4351 ∧
    pulseWave .rc 15 0 1019 = -8191 := by decide +kernel

/-- WV-51 and WV-54. -/
theorem test_noise : clock32 0x00010001#32 = 0x80008000#32 ∧ clock6Times 2 5 1 = 34 := by decide

/-- CP-1 at n = 2, and the clip value of 30000. -/
theorem test_filter : (fun ch => (ch.flow, ch.fband, ch.fhigh)) (svfUpdate .rc 0x4000 0 10000
    { State.powerOn.chan 0 with flow := 0, fband := 2500, fhigh := 10000 }) = (625, 4218, 6875) ∧
    rcSvfClip 30000 = 25932 := by decide +kernel

/-- MX-2 and MX-4. -/
theorem test_mixer : dcOutput .rc 0 10000 10000 = -13 ∧ sat32 (-2 ^ 31 - 5) = -2147483648 := by decide +kernel

/-! ## Witnesses: the premises of each statement hold together of concrete states and operands -/

theorem witness_DecodeInvertsEncode :
    [Instr.wr 1023 255, .rd 0, .adv, .rst, .mute 15 true, .pcmw 65535 255].all Instr.wellFormed = true := by decide

theorem witness_EncodeInvertsDecode : decode 0x50030001#32 = .ok (.mute 3 true) := by decide

theorem witness_DecodeAcceptsExactlyTableRows :
    decode 0x50030001#32 = .ok (.mute 3 true) ∧ (∀ r ∈ opcodeTable, r.fits 0#32 = false) ∧
    ∀ r ∈ opcodeTable, r.fits r.pattern = true := by decide

theorem witness_StepRunsDecodedCommand :
    (State.powerOn.withFetchWord 32 0x30000000).stream = 0x30000000#32 :: [] ∧ decode 0x30000000#32 = .ok .adv ∧
    State.powerOn.stream = [] := by decide

/-- One word for each clause: opcodes 0, 7 and 15, and a must-be-zero bit of each valid opcode. -/
theorem witness_RefusedWordChangesNothing :
    (State.powerOn.withFetchWord 32 0).stream = 0#32 :: [] ∧ 0#32 >>> 28 = 0#32 ∧ 7#32 ≤ 0x70000000#32 >>> 28 ∧
    7#32 ≤ 0xF0000000#32 >>> 28 ∧
    (0x10000100#32 >>> 28 = 1#32 ∧ 0x10000100#32 &&& 0x0C00FF00#32 ≠ 0#32) ∧
    (0x20000001#32 >>> 28 = 2#32 ∧ 0x20000001#32 &&& 0x0C00FFFF#32 ≠ 0#32) ∧
    (0x38000000#32 >>> 28 = 3#32 ∧ 0x38000000#32 &&& 0x0FFFFFFF#32 ≠ 0#32) ∧
    (0x40010000#32 >>> 28 = 4#32 ∧ 0x40010000#32 &&& 0x0FFFFFFF#32 ≠ 0#32) ∧
    (0x50000002#32 >>> 28 = 5#32 ∧ 0x50000002#32 &&& 0x0FF0FFFE#32 ≠ 0#32) ∧
    (0x61000000#32 >>> 28 = 6#32 ∧ 0x61000000#32 &&& 0x0F000000#32 ≠ 0#32) := by decide

theorem witness_commands_read_no_mark : exec (.rd 0) State.powerOn = .next (State.powerOn.complete (.byte 0)) := by rfl

/-- Both ends of the address range, and a `FLAGS0` byte with and without an edge. -/
theorem witness_WriteStoresOneByte :
    Memory.wf (bank [(36, 1)]).rb = true ∧ 0 < 1024 ∧ 1023 < 1024 ∧ 255 < 256 ∧ 1023 % 64 ≠ 36 ∧ 36 % 64 = 36 ∧
    (Memory.read (bank [(36, 1)]).rb (36 / 64 % 9 * 64 + 36 % 64)).getLsbD 0 = decide (3 % 2 = 1) := by decide

/-- Channel 0 and channel 8, the latter also by its address in the aliased range. -/
theorem witness_KeyOnLatchesAttack :
    Memory.wf (bank []).rb = true ∧ 36 % 64 = 36 ∧ (0 : ChanId).val = 36 / 64 % 9 ∧ 548 % 64 = 36 ∧
    (8 : ChanId).val = 548 / 64 % 9 ∧ (Memory.read (bank []).rb ((0 : ChanId).val * 64 + 36)).getLsbD 0 = false ∧
    (Memory.read (bank []).rb ((8 : ChanId).val * 64 + 36)).getLsbD 0 = false ∧ 1 % 2 = 1 ∧ 255 % 2 = 1 := by decide

theorem witness_KeyOffReleasesAtOnce :
    Memory.wf (bank [(36, 1), (548, 255)]).rb = true ∧ (0 : ChanId).val = 36 / 64 % 9 ∧ (8 : ChanId).val = 548 / 64 % 9 ∧
    (Memory.read (bank [(36, 1), (548, 255)]).rb ((0 : ChanId).val * 64 + 36)).getLsbD 0 = true ∧
    (Memory.read (bank [(36, 1), (548, 255)]).rb ((8 : ChanId).val * 64 + 36)).getLsbD 0 = true ∧ 254 % 2 = 0 := by decide

theorem witness_WriteThenReadReturnsByte :
    Memory.wf (bank []).rb = true ∧ 1023 < 1024 ∧ 255 < 256 ∧
    ∀ i ∈ [Instr.rd 0, .mute 0 true, .pcmw 0 1, .wr 1 2, .adv], leavesByte (byteIndex 1023) i := by
  refine ⟨by decide, by decide, by decide, ?_⟩
  intro i hi
  simp only [List.mem_cons, List.not_mem_nil, or_false] at hi
  rcases hi with rfl | rfl | rfl | rfl | rfl
  · trivial
  · trivial
  · trivial
  · show byteIndex 1 ≠ byteIndex 1023
    decide
  · show ∀ c : ChanId, ∀ j ∈ advanceOwned, byteIndex 1023 ≠ chByteIndex c j
    decide

theorem witness_AddressesAbove575Alias : 576 ≤ 576 ∧ 1023 ≤ 1023 := by decide

theorem witness_ReadReturnsStoredByte : 0 < 1024 ∧ 1023 < 1024 := by decide

theorem witness_WideWriteSetsSixteenBitField :
    Memory.wf (bank []).rb = true ∧ 0 < 31 ∧ 30 < 31 ∧ 65535 < 65536 := by decide

theorem witness_SetMuteChangesOneFlag : 8 < 16 ∧ 9 < 16 ∧ 15 < 16 ∧ 9 ≤ 9 := by decide

theorem witness_PcmWriteStoresOneByte : Memory.wf State.powerOn.pcm = true ∧ 65535 < 65536 ∧ 255 < 256 := by decide

theorem witness_LfoCountersHaveTheirPeriods :
    State.powerOn.glob.amCnt < 13440 ∧ State.powerOn.glob.pmCnt < 8192 ∧ 13439 < 13440 ∧ 8191 < 8192 := by decide

theorem witness_AdvanceWritesOwnedBytesOnly : Memory.wf (bank [(37, 0x71)]).rb = true := by decide

theorem witness_EnginesOffKeepChannelBytes :
    fPcm (bank [(32, 1)]).rb 0 = false ∧ (∀ e : Sweep, fSweepEn (bank [(32, 1)]).rb 0 e = false) ∧
    fPhReset (bank [(32, 1)]).rb 0 = false :=
  ⟨by decide, fun e => by cases e <;> decide, by decide⟩

/-- A quiet PCM channel: the position at its boundary (0 at 0), and before it. -/
theorem witness_PcmModeHoldsOperators :
    fPcm (bank [(36, 2)]).rb 0 = true ∧ NoPhaseReset (bank [(36, 2)]) 0 := ⟨by decide, by decide, by decide⟩

theorem witness_PcmPositionAdvances :
    Memory.wf (bank [(36, 2)]).rb = true ∧ fPcm (bank [(36, 2)]).rb 0 = true ∧
    Memory.wf (bank [(36, 2), (44, 5)]).rb = true ∧ fPcm (bank [(36, 2), (44, 5)]).rb 0 = true := by decide

/-- 46_channel.md R362: half rate (CP-32), and a sum that does not fit the u32. -/
theorem test_fracSum : (fracSum 16384 16384).toNat = 32768 ∧
    fracSum 0xFFFFFFFF 1 = Config.fracOverflow 0xFFFFFFFF 1 := ⟨by decide, rfl⟩

theorem witness_PhaseAdvancesByStep :
    fPcm (bank [(32, 1)]).rb 0 = false ∧ NoPhaseReset (bank [(32, 1)]) 0 ∧ syncFires (bank [(32, 1)]) 0 0 = false :=
  ⟨by decide, ⟨by decide, by decide⟩, by decide⟩

theorem witness_PhaseStepFormula : fFix [] 0 0 = false ∧ fFix [(6, 8)] 0 0 = true ∧ 15 < 16 ∧ 7 < 8 := by decide

theorem witness_VibratoStaysWithinBound :
    fPm [] 0 0 = false ∧ fPm [(0, 0x40)] 0 0 = true ∧ -128 ≤ ({ Globals.zero with pmVal := -128 } : Globals).pmVal ∧
    ({ Globals.zero with pmVal := 128 } : Globals).pmVal ≤ 128 ∧ (0 : Int) ≤ 0 := by decide

/-- Operator 0 synced by operator 3, and operator 1 by operator 0. -/
theorem witness_HardSyncZeroesPhase :
    let s := (bank [(7, 0x80), (15, 0x80)]).setChan 0
      (((State.powerOn.chan 0).setOp 0 { OpState.atPowerOn with wrap := true }).setOp 3
        { OpState.atPowerOn with wrap := true })
    fPcm s.rb 0 = false ∧ fSync s.rb 0 0 = true ∧ ((s.chan 0).op (if (0 : OpId) = 0 then 3 else 0 - 1)).wrap = true ∧
    fSync s.rb 0 1 = true ∧ ((s.chan 0).op (if (1 : OpId) = 0 then 3 else 1 - 1)).wrap = true := by decide

theorem witness_NoiseRegistersClock :
    fPcm (bank [(32, 1)]).rb 8 = false ∧ NoPhaseReset (bank [(32, 1)]) 8 ∧ syncFires (bank [(32, 1)]) 8 3 = false :=
  ⟨by decide, ⟨by decide, by decide⟩, by decide⟩

theorem witness_NoiseMapsAreBijections : 1 ≤ 1 ∧ 1 ≤ 5 ∧ 5 ≤ 5 := by decide

/-- An operator at full level, evaluated in ATTACK, in another state, and in PCM mode. -/
theorem witness_EnvelopeStaysInBounds :
    (((bank []).chan 0).op 0).att ≤ params.attMax ∧ (((bank []).chan 0).op 0).egs = .attack ∧
    (((bankOp [] { OpState.atPowerOn with egs := .release }).chan 0).op 0).att ≤ params.attMax ∧
    (((bankOp [] { OpState.atPowerOn with egs := .release }).chan 0).op 0).egs ≠ .attack ∧
    fPcm (bank [(36, 2)]).rb 0 = true ∧ Instr.rd 0 ≠ .adv ∧ Instr.rd 0 ≠ .rst :=
  ⟨Nat.zero_le _, by decide, Nat.zero_le _, by decide, by decide, by decide, by decide⟩

/-- A key-on served now, an attack under way, and one under way while a new key-on waits. -/
theorem witness_KeyOnEntersAttack :
    let s := bankOp [(2, 31)] { OpState.atPowerOn with keyPend := true, egs := .release }
    let s' := bankOp [(2, 31)] { OpState.atPowerOn with att := 5 }
    let s'' := bankOp [(2, 31)] { OpState.atPowerOn with att := 5, keyPend := true, dly := 512 }
    fPcm s.rb 0 = false ∧ ((s.chan 0).op 0).keyPend = true ∧ ((s.chan 0).op 0).dly = 0 ∧
    fPcm s'.rb 0 = false ∧ ((s'.chan 0).op 0).egs = .attack ∧
    fPcm s''.rb 0 = false ∧ ((s''.chan 0).op 0).egs = .attack ∧ ((s''.chan 0).op 0).dly ≠ 0 := by decide

theorem witness_OnsetDelayLastsItsCount :
    let s := bankOp [] { OpState.atPowerOn with keyPend := true, dly := 512 }
    fPcm s.rb 0 = false ∧ ((s.chan 0).op 0).keyPend = true ∧ ((s.chan 0).op 0).dly.toNat = 512 ∧ 512 ≤ 512 := by decide

/-- With no key-on latched, and with one that waits. -/
theorem witness_EnvelopeRisesByIncrement :
    let s := bankOp [(3, 31)] { OpState.atPowerOn with egs := .decay }
    let s' := bankOp [(3, 31)] { OpState.atPowerOn with egs := .sustain, keyPend := true, dly := 1 }
    fPcm s.rb 0 = false ∧ ((s.chan 0).op 0).keyPend = false ∧ ((s.chan 0).op 0).egs ≠ .attack ∧
    fPcm s'.rb 0 = false ∧ ((s'.chan 0).op 0).dly ≠ 0 ∧ ((s'.chan 0).op 0).egs ≠ .attack := by decide

/-- One operator for each clause: ATTACK, DECAY, SUSTAIN, RELEASE with all rates 0. -/
theorem witness_ZeroRateNeverMovesEnvelope (e : EnvState) :
    let s := bankOp [] { OpState.atPowerOn with egs := e }
    ((s.chan 0).op 0).att ≤ params.attMax ∧ ((s.chan 0).op 0).keyPend = false ∧ ((s.chan 0).op 0).egs = e ∧
    fAr s.rb 0 0 = 0 ∧ fDr s.rb 0 0 = 0 ∧ fSr s.rb 0 0 = 0 ∧ fRr s.rb 0 0 = 0 := by
  cases e <;> exact ⟨Nat.zero_le _, by decide⟩

theorem witness_OperatorValueFollowsPipeline :
    fPcm (bank [(7, 0x7F)]).rb 0 = false ∧ NoPhaseReset (bank [(7, 0x7F)]) 0 := ⟨by decide, by decide, by decide⟩

theorem witness_ChannelSumOfOutLevels : fPcm (bank [(6, 2), (7, 7)]).rb 0 = false := by decide

theorem witness_FeedbackHistoryShifts : fPcm (bank [(7, 0x38)]).rb 0 = false := by decide

theorem witness_SilencedOperator_wave : fPcm (bank [(6, 6)]).rb 0 = false ∧ fWave (bank [(6, 6)]).rb 0 0 = 6 := by decide

/-- The second clause: a released operator at `ATT_MAX` is there after the ADVANCE too. -/
theorem witness_SilencedOperator_attenuation :
    let s := bankOp [] { OpState.atPowerOn with att := params.attMax, egs := .release }
    fPcm s.rb 0 = false ∧ ∃ t, exec .adv s = .next t ∧ params.attMax ≤ ((t.chan 0).op 0).att + 8 * fTl s.rb 0 0 := by
  intro s
  refine ⟨by decide, _, exec_adv s, ?_⟩
  obtain ⟨u, hu, hc, _⟩ := advance_channel params s 0
  have hp : fPcm u.rb 0 = false := by
    have h : fPcm s.rb 0 = false := by decide
    simp only [fPcm, fFlags0, hu.bytes.chByte flags0Offset (by decide)] at h ⊢
    exact h
  obtain ⟨v, hv⟩ := voice_op params u.rb u.pcm u.glob 0 (u.chan 0) 0
  have ha : ((advance params s).1.chan 0).op 0 = ((channelStep params 0 u).1.chan 0).op 0 := by rw [hc]; rfl
  have ho : (u.chan 0).op 0 = { OpState.atPowerOn with att := params.attMax, egs := .release } := by rw [hu.chan]; rfl
  rw [advanceCommand_chan, ha, channelStep_op_att params 0 u 0 hp, hv]
  have hmove : ∀ snap, (moveOperator params u.rb u.glob 0 snap 0 ((u.chan 0).op 0)).op.att = params.attMax ∧
      (moveOperator params u.rb u.glob 0 snap 0 ((u.chan 0).op 0)).op.egs = .release ∧
      (moveOperator params u.rb u.glob 0 snap 0 ((u.chan 0).op 0)).op.keyPend = false := by
    intro snap; rw [ho]; simp only [moveOperator]; split <;> exact ⟨rfl, rfl, rfl⟩
  obtain ⟨h1, h2, h3⟩ := hmove (snapshot (u.chan 0))
  generalize (moveOperator params u.rb u.glob 0 (snapshot (u.chan 0)) 0 ((u.chan 0).op 0)).op = o at h1 h2 h3
  show params.attMax ≤ (envEval params u.rb u.glob 0 0 o).att + _
  have hpend : envPending o = o := by simp only [envPending, h3, Bool.false_eq_true, if_false]
  simp only [envEval, hpend]
  obtain ⟨e, he⟩ := envTransitions_eq params (fSl u.rb 0 0) (envUpdate params (envRate params u.rb 0 0 o.egs)
    u.glob.envCnt.toNat o)
  rw [he]
  simp only [envUpdate, h2, h1]
  exact le_trans (by simp) (Nat.le_add_right _ _)

/-- A saw's edge at phase 0; a pulse's at phase 0 alone, at its threshold alone, and both passed in one step. -/
theorem witness_EdgeDistanceBelowStep :
    edge [(6, 2)] 0 0 0xFFFFFFFF#32 (0xFFFFFFFF#32 + 2#32) (decide (2 ^ 32 ≤ (0xFFFFFFFF#32).toNat + (2#32).toNat)) = some 1 ∧
    edge [(6, 0xC3)] 0 0 0xFFFFFFFF#32 (0xFFFFFFFF#32 + 2#32) (decide (2 ^ 32 ≤ (0xFFFFFFFF#32).toNat + (2#32).toNat)) =
      some 1 ∧
    edge [(6, 0xC3)] 0 0 0x7FFFFFFF#32 (0x7FFFFFFF#32 + 2#32) (decide (2 ^ 32 ≤ (0x7FFFFFFF#32).toNat + (2#32).toNat)) =
      some 1 ∧
    edge [(6, 0xC3)] 0 0 0x7FFFFFFF#32 (0x7FFFFFFF#32 + 0x90000000#32)
      (decide (2 ^ 32 ≤ (0x7FFFFFFF#32).toNat + (0x90000000#32).toNat)) = none ∧
    fWave [(6, 0xC3)] 0 0 = 3 ∧ fWave [(6, 2)] 0 0 = 2 ∧ fWave [] 0 0 = 0 ∧
    fWpar [(6, 0xC3)] 0 0 / 8 = 1 ∧ fWpar [(6, 0xC3)] 0 0 % 8 * 128 = 512 ∧ fWpar [(6, 0x83)] 0 0 % 8 * 128 = 0 := by decide

theorem witness_WarpKeepsHalfCycles : 1023 < 1024 ∧ 511 < 512 ∧ 3 < 4 ∧ 511 ≤ 512 := by decide

/-- One bank for each `WAVE`. -/
theorem witness_WaveformLandmarks :
    3 < 1 * 4 ∧ 1 * 4 ≤ 4 ∧ ∀ w : Fin 8, fWave [(6, BitVec.ofNat 8 w.val)] 0 0 = w.val := by decide

theorem witness_OneShotPhaseReset :
    Memory.wf (bank [(37, 3)]).rb = true ∧ fPhReset (bank [(37, 3)]).rb 0 = true ∧
    fFltReset (bank [(37, 3)]).rb 0 = true := by decide

/-- Off, expiring, and on but short of 0, where no reset fires. -/
theorem witness_PeriodicPhaseReset :
    fTimerSync (bank []).rb 0 = false ∧ fTimerSync (bank [(37, 0xA)]).rb 0 = true ∧
    fFltReset (bank [(37, 0xA)]).rb 0 = true ∧ countdown (fResTimer (bank [(37, 0xA)]).rb 0) 0 = 0 ∧
    fPhReset (bank [(37, 8), (60, 2)]).rb 0 = false ∧ NoPhaseReset (bank [(37, 8), (60, 2)]) 0 ∧
    countdown (fResTimer (bank [(37, 8), (60, 2)]).rb 0) ((bank [(37, 8), (60, 2)]).chan 0).rstCnt ≠ 0 :=
  ⟨by decide, by decide, by decide, by decide, by decide, ⟨by decide, by decide⟩, by decide⟩

theorem witness_SweepTimersCountDown (e : Sweep) :
    fSweepEn (bank []).rb 0 e = false ∧ fSweepEn (bank [(37, 0x70)]).rb 0 e = true := by cases e <;> decide

/-- The timers idle at 0 with `SPEED` 0, and about to expire at 1. -/
theorem witness_SweepClampsAtLimit (e : Sweep) :
    let s := bank [(37, 0x70), (50, 0x3F), (54, 0x3F), (58, 0x1F)]
    Memory.wf s.rb = true ∧ SweepFires s 0 e ∧ SweepFires (s.setChan 0 (setSweepTimer e 1 (s.chan 0))) 0 e ∧
    fBounce s.rb 0 e = false ∧ fWrapF s.rb 0 e = false := by
  cases e <;>
    exact ⟨by decide, ⟨by decide, .inr ⟨by decide, by decide⟩⟩, ⟨by decide, .inl (by decide)⟩, by decide, by decide⟩

theorem witness_SweepWrapsInWidth (e : Sweep) :
    let s := bank [(37, 0x70), (50, 0x41), (54, 0x61), (58, 0x5F)]
    Memory.wf s.rb = true ∧ SweepFires s 0 e ∧ fBounce s.rb 0 e = false ∧ fWrapF s.rb 0 e = true := by
  cases e <;> exact ⟨by decide, ⟨by decide, .inr ⟨by decide, by decide⟩⟩, by decide, by decide⟩

/-- A crossing below the bound 0, and a value that stays at it. -/
theorem witness_SweepBouncesAtLimit (e : Sweep) :
    let s := bank [(37, 0x70), (50, 0x81), (54, 0x81), (58, 0x81)]
    Memory.wf s.rb = true ∧ SweepFires s 0 e ∧ fBounce s.rb 0 e = true ∧ fUp s.rb 0 e = false ∧
    sweepValue s.rb 0 e - fMag s.rb 0 e < 0 ∧ ¬ sweepValue s.rb 0 e - fMag [(50, 0x80), (54, 0x80), (58, 0x80)] 0 e < 0 := by
  cases e <;> exact ⟨by decide, ⟨by decide, .inr ⟨by decide, by decide⟩⟩, by decide, by decide, by decide, by decide⟩

theorem witness_VolumeSweepDownToBound :
    let s := bank [(34, 3), (37, 0x20), (52, 1), (54, 1)]
    Memory.wf s.rb = true ∧ 3 ≤ 127 ∧ (Memory.read s.rb ((0 : ChanId).val * 64 + 32 + 0x02)).toNat = 3 ∧
    fSweepEn s.rb 0 .vol = true ∧ fSpeed s.rb 0 .vol = 1 ∧ fAmt s.rb 0 .vol = 1 ∧ fBound s.rb 0 .vol = 0 ∧
    (s.chan 0).swtVol = 0 := by decide

theorem witness_MuteTouchesFilterOnly :
    (noMute.set 3 true)[(3 : ChanId)] = true ∧ (noMute.set 3 true)[(4 : ChanId)] = State.powerOn.mute[(4 : ChanId)] := by
  decide

/-- A bypassed and a running filter, the latter also with `FLTRESET` clear and a phase reset requested. -/
theorem witness_FilterBypassHoldsAndClipBounds :
    (fFlp (bank []).rb 0 = false ∧ fFhp (bank []).rb 0 = false ∧ fFbp (bank []).rb 0 = false) ∧
    (bank []).mute[(0 : ChanId)] = false ∧ NoPhaseReset (bank []) 0 ∧ fFbp (bank [(36, 0x20)]).rb 0 = true ∧
    (bank [(36, 0x20)]).mute[(0 : ChanId)] = false ∧ NoPhaseReset (bank [(36, 0x20)]) 0 ∧
    fPhReset (bank [(36, 0x20), (37, 1)]).rb 0 = true ∧ fFltReset (bank [(36, 0x20), (37, 1)]).rb 0 = false :=
  ⟨by decide, by decide, ⟨by decide, by decide⟩, by decide, by decide, ⟨by decide, by decide⟩, by decide, by decide⟩

/-- From the power-on state, whose DC blocker is at 0, the output of the left and of the right side fits 64 bits. -/
theorem witness_OutputIsBlockedAndSaturated :
    ∃ t, exec .adv State.powerOn = .next t ∧
      (let yl := t.glob.hx1l.toInt - State.powerOn.glob.hx1l.toInt + params.hpfR * State.powerOn.glob.hy1l.toInt / 65536;
        -2 ^ 63 ≤ yl ∧ yl < 2 ^ 63) ∧
      (let yr := t.glob.hx1r.toInt - State.powerOn.glob.hx1r.toInt + params.hpfR * State.powerOn.glob.hy1r.toInt / 65536;
        -2 ^ 63 ≤ yr ∧ yr < 2 ^ 63) := by
  refine ⟨_, exec_adv _, ?_⟩
  generalize advanceCommand params State.powerOn = t
  have h : ∀ x : BitVec 64, -2 ^ 63 ≤ x.toInt - (0#64).toInt + params.hpfR * (0#64).toInt / 65536 ∧
      x.toInt - (0#64).toInt + params.hpfR * (0#64).toInt / 65536 < 2 ^ 63 := by
    intro x
    have h1 := x.toInt_lt
    have h2 := x.le_toInt
    simp only [BitVec.toInt_zero, Int.mul_zero, Int.zero_ediv, Int.sub_zero, Int.add_zero]
    constructor <;> omega
  exact ⟨h _, h _⟩

/-- With every channel muted each contribution is 0, so every partial sum fits, on both sides. -/
theorem witness_OutputIsBlockedAndSaturated_sum :
    let s : State := { State.powerOn with mute := Vector.replicate 9 true }
    (∀ n, ((channels.map fun c => (channelSample params c s).2.left).take n).sum = 0) ∧
    ∀ n, ((channels.map fun c => (channelSample params c s).2.right).take n).sum = 0 := by
  intro s
  have hm : ∀ c : ChanId, ((channelSource params c (s.beforeChannels params)).1.mute)[c] = true := by
    intro c
    rw [(channelSource_frame params c (s.beforeChannels params)).mute]
    exact Vector.getElem_replicate _
  have h : ∀ c : ChanId, (channelSample params c s).2.left = 0 ∧ (channelSample params c s).2.right = 0 := by
    intro c
    simp only [channelSample, channelOutput, hm, mutePan, if_true, and_self]
  have hsum : ∀ (f : ChanId → Int), (∀ c, f c = 0) → ∀ n, ((channels.map f).take n).sum = 0 := by
    intro f hf n
    rw [funext hf, List.map_const', List.take_replicate, List.sum_replicate, smul_zero]
  exact ⟨hsum _ fun c => (h c).1, hsum _ fun c => (h c).2⟩

/-- Both choices of P41 and of P42 are admissible. -/
theorem witness_ResetRestoresResetValues :
    (∃ P : Params, P.resetClearsPcm = true ∧ P.resetClearsMute = true) ∧
    ∃ P : Params, P.resetClearsPcm = false ∧ P.resetClearsMute = false :=
  ⟨⟨.rc, rfl, rfl⟩, ⟨{ resetClearsPcm := false, resetClearsMute := false }, rfl, rfl⟩⟩

theorem witness_ChannelOutputFormula :
    (setMute 0 true State.powerOn).mute[(0 : ChanId)] = true ∧ State.powerOn.mute[(0 : ChanId)] = false ∧
    (-128 : Int) ≤ 127 ∧ fFlp State.powerOn.rb 0 = false ∧ fFhp State.powerOn.rb 0 = false ∧
    fFbp State.powerOn.rb 0 = false ∧ (bank [(36, 0x38)]).mute[(0 : ChanId)] = false ∧
    fFlp (bank [(36, 0x38)]).rb 0 = true ∧ fFhp (bank [(36, 0x38)]).rb 0 = true ∧ fFbp (bank [(36, 0x38)]).rb 0 = true := by
  decide

theorem witness_InvariantKeptByEveryStep : State.Inv params State.powerOn ∧ step State.powerOn = .next State.powerOn := by
  have hop : ∀ c k, ((State.powerOn.chan c).op k) = OpState.atPowerOn := by decide
  have hfrac : ∀ c, (State.powerOn.chan c).pcmFrac = 0 := by decide
  refine ⟨⟨by decide, by decide, by decide, rfl, fun c k => ?_, fun c => ?_, by decide, by decide, by decide⟩, rfl⟩
  · rw [hop]; exact ⟨Nat.zero_le _, by decide⟩
  · rw [hfrac]; exact params.pcmThresh_pos

/-- A state with every noise register at 1. -/
theorem witness_NoiseRegistersNeverDie :
    let o : OpState := { OpState.atPowerOn with lfsr32 := 1, lfsr6 := 1 }
    let ch : ChanState := .zeroWith #v[o, o, o, o]
    let s : State := { State.powerOn with chans := #v[ch, ch, ch, ch, ch, ch, ch, ch, ch] }
    State.NoiseAlive s ∧ step s = .next s := by
  refine ⟨?_, rfl⟩
  show ∀ c k, _ ≠ _ ∧ _ ≠ _
  decide

/-- Two states that differ in another channel's bytes and transient state. -/
theorem witness_ChannelsAreIsolated :
    let s := bank [(0, 1)]
    let s' := (bank [(0, 1), (64, 2)]).setChan 2 { State.powerOn.chan 2 with fb1 := 5 }
    Memory.wf s.rb = true ∧ Memory.wf s'.rb = true ∧ ChannelAgrees 0 s s' := by
  refine ⟨by decide, by decide, ⟨?_, by decide, by decide, by decide, rfl, rfl, rfl, rfl⟩⟩
  intro a ha
  have h : a ≠ 64 := by rintro rfl; exact absurd ha (by decide)
  show Memory.read [(0, 1), (64, 2)] a = Memory.read [(0, 1)] a
  simp only [Memory.read, if_neg h]

/-- Two banks that differ in `TLX` and `RSVD0`. -/
theorem witness_UnusedBitsHaveNoEffect :
    Memory.wf (bank [(1, 0x05)]).rb = true ∧ Memory.wf [(1, 0x85#8), (62, 0xFF#8)] = true ∧
    AgreeOnUsedBits (bank [(1, 0x05)]).rb [(1, 0x85#8), (62, 0xFF#8)] := by
  refine ⟨by decide, by decide, fun a => ?_⟩
  show Memory.read [(1, 0x85#8), (62, 0xFF#8)] a &&& usedMask a = Memory.read [(1, 0x05#8)] a &&& usedMask a
  by_cases h1 : a = 1
  · subst h1; decide
  · by_cases h2 : a = 62
    · subst h2; decide
    · simp only [Memory.read, if_neg h1, if_neg h2]

end Sys2Proof.Tests
end

/-! ## Every step keeps the ranges of the state (10_state.md R41, R43, R45, 60_exceptions.md R449) -/

namespace Sys2Proof.Machine

section Invariant
variable {P : Params} {s t : State}

theorem State.Inv.chans (h : State.Inv P s) (c : ChanId) : (s.chan c).Inv P := ⟨h.ops c, h.frac c⟩

/-- The ranges speak of the block alone, not of the command port. -/
theorem State.Inv.of_sameBlock (h : State.Inv P s) (ht : SameBlock s t) : State.Inv P t := by
  have hchan : ∀ c, t.chan c = s.chan c := fun c => by simp only [State.chan, ht.chans]
  exact
    { rb_wf := by rw [ht.rb]; exact h.rb_wf
      rb_below := by rw [ht.rb]; exact h.rb_below
      pcm_wf := by rw [ht.pcm]; exact h.pcm_wf
      pcm_below := by rw [ht.pcm]; exact h.pcm_below
      ops := fun c k => by rw [hchan]; exact h.ops c k
      frac := fun c => by rw [hchan]; exact h.frac c
      amCnt := by rw [ht.glob]; exact h.amCnt
      pmCnt := by rw [ht.glob]; exact h.pmCnt
      pmVal := by rw [ht.glob]; exact h.pmVal }

theorem writeRegister_chan_inv (addr : Nat) (b : Byte) (h : State.Inv P s) (d : ChanId) :
    ((writeRegister addr b s).chan d).Inv P := by
  by_cases hd : isFlags0 addr = true ∧ d = addrChan addr
  · obtain ⟨hf, rfl⟩ := hd
    rw [writeRegister_chan_flags0 addr b s hf]
    exact gateEdge_inv P _ _ _ _ _ (h.chans _)
  · rw [writeRegister_chan_ne addr b s d (by simpa [or_iff_not_imp_left] using hd)]
    exact h.chans d

theorem writeRegister_inv (addr : Nat) (b : Byte) (h : State.Inv P s) : State.Inv P (writeRegister addr b s) where
  rb_wf := by rw [writeRegister_rb]; exact Memory.write_wf _ h.rb_wf _ _
  rb_below := by rw [writeRegister_rb]; exact Memory.write_below _ _ h.rb_below _ (byteIndex_lt addr) _
  pcm_wf := by rw [writeRegister_pcm]; exact h.pcm_wf
  pcm_below := by rw [writeRegister_pcm]; exact h.pcm_below
  ops := fun c => (writeRegister_chan_inv addr b h c).ops
  frac := fun c => (writeRegister_chan_inv addr b h c).frac
  amCnt := by rw [writeRegister_glob]; exact h.amCnt
  pmCnt := by rw [writeRegister_glob]; exact h.pmCnt
  pmVal := by rw [writeRegister_glob]; exact h.pmVal

theorem setMute_inv (n : Nat) (m : Bool) (h : State.Inv P s) : State.Inv P (setMute n m s) := by
  obtain ⟨v, hv⟩ := setMute_eq n m s
  rw [hv]
  exact { h with }

/-- The address of a PCMWRITE is reduced into PCM memory, so the store stays within its space. -/
theorem writePcm_inv (paddr : Nat) (b : Byte) (h : State.Inv P s) : State.Inv P (writePcm P paddr b s) :=
  { h with
    pcm_wf := Memory.write_wf _ h.pcm_wf _ _
    pcm_below := Memory.write_below _ _ h.pcm_below _ (Nat.mod_lt _ (Nat.two_pow_pos _)) _ }

theorem OpState.afterReset_inv (P : Params) (c : ChanId) (k : OpId) : (OpState.afterReset P c k).Inv P :=
  ⟨le_rfl, Nat.zero_le _⟩

theorem chansAfterReset_pcmFrac (P : Params) (c : ChanId) : ((chansAfterReset P)[c]).pcmFrac = 0 := by
  fin_cases c <;> rfl

theorem resetBlock_inv (h : State.Inv P s) : State.Inv P (s.resetBlock P) where
  rb_wf := rfl
  rb_below := rfl
  pcm_wf := by rw [State.resetBlock_pcm]; split <;> [rfl; exact h.pcm_wf]
  pcm_below := by rw [State.resetBlock_pcm]; split <;> [rfl; exact h.pcm_below]
  ops := fun c k => by
    rw [State.chan, State.resetBlock_chans, chansAfterReset_op]
    exact OpState.afterReset_inv P c k
  frac := fun c => by
    rw [State.chan, State.resetBlock_chans, chansAfterReset_pcmFrac]
    exact P.pcmThresh_pos
  amCnt := by rw [State.resetBlock_glob]; decide
  pmCnt := by rw [State.resetBlock_glob]; decide
  pmVal := by rw [State.resetBlock_glob]; decide

/-- The LFO step leaves both counters within their periods and `PMVAL` within its bound, whatever they were. -/
theorem advanceGlobals_range (P : Params) (g : Globals) :
    (advanceGlobals P g).amCnt < 13440 ∧ (advanceGlobals P g).pmCnt < 8192 ∧
      -128 ≤ (advanceGlobals P g).pmVal ∧ (advanceGlobals P g).pmVal ≤ 128 := by
  have hpm : (g.pmCnt + 1) % 8192 < 8192 := Nat.mod_lt _ (by decide)
  exact ⟨Nat.mod_lt _ (by decide), hpm, P.pm_bound _ (by omega)⟩

theorem advance_chan_inv (h : State.Inv P s) (c : ChanId) : ((advance P s).1.chan c).Inv P := by
  have hrun := runChannels_inv P channels { s with glob := advanceGlobals P s.glob } h.chans c
  rw [advance_chan]
  obtain ⟨raw, hraw⟩ := commitRaws_chan (runChannels P channels { s with glob := advanceGlobals P s.glob }).2
    (runChannels P channels { s with glob := advanceGlobals P s.glob }).1 c
  rw [hraw]
  exact ⟨hrun.ops, hrun.frac⟩

theorem advance_inv (h : State.Inv P s) : State.Inv P (advance P s).1 := by
  have hf := advance_frame P s
  obtain ⟨hamCnt, hpmCnt, -, hpmVal, -⟩ := advance_glob P s
  obtain ⟨ham, hpm, hval⟩ := advanceGlobals_range P s.glob
  exact
    { rb_wf := hf.wf h.rb_wf
      rb_below := hf.below h.rb_below
      pcm_wf := by rw [hf.pcm]; exact h.pcm_wf
      pcm_below := by rw [hf.pcm]; exact h.pcm_below
      ops := fun c => (advance_chan_inv h c).ops
      frac := fun c => (advance_chan_inv h c).frac
      amCnt := by rw [hamCnt]; exact ham
      pmCnt := by rw [hpmCnt]; exact hpm
      pmVal := by rw [hpmVal]; exact hval }

/-- Every command keeps the ranges: its meaning on the block does, and completing it changes the port alone. -/
theorem exec_inv (i : Instr) (h : State.Inv params s) (he : exec i s = .next t) : State.Inv params t := by
  have hdone : ∀ (u : State) (r : Response), State.Inv params u → State.Inv params (u.complete r) :=
    fun u r hu => hu.of_sameBlock (u.complete_sameBlock r)
  cases i with
  | wr addr data =>
    rw [exec_wr] at he
    cases he
    exact hdone _ _ (writeRegister_inv addr _ h)
  | rd addr =>
    rw [exec_rd] at he
    cases he
    exact hdone _ _ h
  | adv =>
    rw [exec_adv, advanceCommand_eq] at he
    cases he
    exact hdone _ _ (advance_inv h)
  | rst =>
    rw [exec_rst] at he
    cases he
    exact hdone _ _ (resetBlock_inv h)
  | mute ch m =>
    rw [exec_mute] at he
    cases he
    exact hdone _ _ (setMute_inv ch m h)
  | pcmw paddr data =>
    rw [exec_pcmw] at he
    cases he
    exact hdone _ _ (writePcm_inv paddr _ h)

end Invariant

/-- Settles O56, by the cases of a step: an idle step changes nothing, a refused word the command port only, and every
command keeps the ranges. -/
theorem invariantKeptByEveryStep : Obligations.InvariantKeptByEveryStep := by
  unfold Obligations.InvariantKeptByEveryStep
  intro s t h hst
  rcases step_cases s t hst with ⟨_, rfl⟩ | ⟨w, rest, e, _, _, rfl⟩ | ⟨w, rest, i, _, _, he⟩
  · exact h
  · exact h.of_sameBlock s.refuseWord_sameBlock
  · exact exec_inv i h he

end Sys2Proof.Machine

/-! ## The register bits an ADVANCE writes (10_state.md R38) -/

namespace Sys2Proof.Machine

/-! ### Bytes that differ in one bit -/

theorem sameButBit_refl (i : Nat) (a : Byte) : sameButBit i a a := fun _ _ => rfl

theorem sameButBit_trans {i : Nat} {a b c : Byte} (h1 : sameButBit i a b) (h2 : sameButBit i b c) : sameButBit i a c :=
  fun j hj => (h1 j hj).trans (h2 j hj)

/-- Numbers equal below bit `i` and above it differ in no other bit. -/
theorem testBit_eq_of_ne {v w i j : Nat} (hlow : v % 2 ^ i = w % 2 ^ i) (hhigh : v / 2 ^ (i + 1) = w / 2 ^ (i + 1))
    (hj : j ≠ i) : v.testBit j = w.testBit j := by
  rcases Nat.lt_or_gt_of_ne hj with h | h
  · have := congrArg (·.testBit j) hlow
    simpa [Nat.testBit_mod_two_pow, h] using this
  · have := congrArg (·.testBit (j - (i + 1))) hhigh
    simpa [Nat.testBit_div_two_pow, Nat.sub_add_cancel h] using this

theorem sameButBit_ofNat {i v : Nat} (b : Byte) (hlow : b.toNat % 2 ^ i = v % 2 ^ i)
    (hhigh : b.toNat / 2 ^ (i + 1) = v / 2 ^ (i + 1)) : sameButBit i b (BitVec.ofNat 8 v) := by
  intro j hj
  rw [← BitVec.testBit_toNat, testBit_eq_of_ne hlow hhigh hj, BitVec.getLsbD_ofNat]
  by_cases h8 : j < 8
  · simp [h8]
  · rw [← testBit_eq_of_ne hlow hhigh hj, BitVec.testBit_toNat, BitVec.getLsbD_of_ge _ _ (by omega)]
    simp

theorem sameButBit_clearBit_zero (b : Byte) : sameButBit 0 b (BitVec.ofNat 8 (clearBit b.toNat 0)) := by
  refine sameButBit_ofNat b (by omega) ?_
  simp only [clearBit, bit, decide_eq_true_eq]
  split <;> omega

theorem sameButBit_flipBit_five (b : Byte) : sameButBit 5 b (BitVec.ofNat 8 (flipBit b.toNat 5)) := by
  apply sameButBit_ofNat <;> simp only [flipBit, bit, decide_eq_true_eq] <;> split <;> omega

/-! ### Each stage of a channel step -/

/-- The channel register offset of a sweep's `AMT` byte (10_state.md R37). -/
def amtOffset (e : Sweep) : Nat := sweepBase e + 2

/-- The register bank changed in channel `c`'s `FLAGS1` by bit 0 and in its `AMT` bytes by bit 5 at most. -/
structure FlagFrame (c : ChanId) (rb rb' : Memory) : Prop where
  flags1 : sameButBit 0 (Memory.read rb (chByteIndex c flags1Offset)) (Memory.read rb' (chByteIndex c flags1Offset))
  amt : ∀ e,
    sameButBit 5 (Memory.read rb (chByteIndex c (amtOffset e))) (Memory.read rb' (chByteIndex c (amtOffset e)))

section FlagFrame
variable {c : ChanId} {rb r s t : Memory}

theorem FlagFrame.refl (c : ChanId) (rb : Memory) : FlagFrame c rb rb :=
  ⟨sameButBit_refl _ _, fun _ => sameButBit_refl _ _⟩

theorem FlagFrame.trans (h1 : FlagFrame c r s) (h2 : FlagFrame c s t) : FlagFrame c r t :=
  ⟨sameButBit_trans h1.flags1 h2.flags1, fun e => sameButBit_trans (h1.amt e) (h2.amt e)⟩

/-- A bank that reads alike on the channel's bytes. -/
theorem FlagFrame.of_chanBytes (h : ChanBytes c rb r) : FlagFrame c rb r := by
  have hread : ∀ j < 32, Memory.read r (chByteIndex c j) = Memory.read rb (chByteIndex c j) :=
    fun j hj => h _ (by simp only [chByteIndex]; omega)
  refine ⟨?_, fun e => ?_⟩
  · rw [hread _ (by decide)]; exact sameButBit_refl _ _
  · rw [hread _ (by cases e <;> decide)]; exact sameButBit_refl _ _

/-- A write of another byte of the channel. -/
theorem FlagFrame.write_other (rb : Memory) (j : Nat) (b : Byte) (hj : j ∉ [0x05, 0x12, 0x16, 0x1A]) :
    FlagFrame c rb (Memory.write rb (chByteIndex c j) b) := by
  have hread : ∀ i ∈ [0x05, 0x12, 0x16, 0x1A],
      Memory.read (Memory.write rb (chByteIndex c j) b) (chByteIndex c i) = Memory.read rb (chByteIndex c i) := by
    intro i hi
    refine Memory.read_write_other _ _ _ _ fun h => hj ?_
    rwa [← show i = j by simp only [chByteIndex] at h; omega]
  refine ⟨?_, fun e => ?_⟩
  · rw [hread _ (by decide)]; exact sameButBit_refl _ _
  · rw [hread _ (by cases e <;> decide)]; exact sameButBit_refl _ _

theorem FlagFrame.write16_other (rb : Memory) (j v : Nat) (hj : j ∉ [0x05, 0x12, 0x16, 0x1A])
    (hj' : j + 1 ∉ [0x05, 0x12, 0x16, 0x1A]) : FlagFrame c rb (rbWrite16 rb (chByteIndex c j) v) :=
  (FlagFrame.write_other rb j _ hj).trans (FlagFrame.write_other _ (j + 1) _ hj')

/-- Serving the one-shot request clears bit 0 of `FLAGS1` (46_channel.md R381). -/
theorem FlagFrame.clear_phReset (h : Memory.wf rb = true) :
    FlagFrame c rb (Memory.write rb (chByteIndex c flags1Offset) (BitVec.ofNat 8 (clearBit (fFlags1 rb c) 0))) := by
  refine ⟨?_, fun e => ?_⟩
  · rw [Memory.read_write_same _ h]; exact sameButBit_clearBit_zero _
  · rw [Memory.read_write_other _ _ _ _ (by cases e <;> simp [chByteIndex, amtOffset, sweepBase, flags1Offset])]
    exact sameButBit_refl _ _

/-- A bounce flips bit 5 of one `AMT` byte (46_channel.md R379). -/
theorem FlagFrame.flip_up {v : Nat} (h : Memory.wf rb = true) (e : Sweep) (hv : fAmt rb c e = v) :
    FlagFrame c rb (Memory.write rb (chByteIndex c (amtOffset e)) (BitVec.ofNat 8 (flipBit v 5))) := by
  subst hv
  refine ⟨?_, fun e' => ?_⟩
  · rw [Memory.read_write_other _ _ _ _ (by cases e <;> simp [chByteIndex, amtOffset, sweepBase, flags1Offset])]
    exact sameButBit_refl _ _
  · rw [Memory.read_write _ h]
    split
    · next he => rw [he]; exact sameButBit_flipBit_five _
    · exact sameButBit_refl _ _

end FlagFrame

section Stages
variable (P : Params) (c : ChanId) (s : State)

theorem pcmSteps_flags (n : Nat) (rb : Memory) : FlagFrame c rb (pcmSteps c n rb) := by
  induction n generalizing rb with
  | zero => exact FlagFrame.refl c rb
  | succ n ih => exact (FlagFrame.write16_other rb 0x0A _ (by decide) (by decide)).trans (ih _)

theorem storeTarget_flags (e : Sweep) (t : Int) (rb : Memory) : FlagFrame c rb (storeTarget e c t rb) := by
  cases e
  · exact FlagFrame.write16_other rb 0x00 _ (by decide) (by decide)
  · exact FlagFrame.write_other rb 0x02 _ (by decide)
  · exact FlagFrame.write16_other rb 0x06 _ (by decide) (by decide)

/-- Storing a sweep's target leaves its `AMT` byte alone. -/
theorem storeTarget_fAmt (e : Sweep) (t : Int) (rb : Memory) : fAmt (storeTarget e c t rb) c e = fAmt rb c e := by
  simp only [fAmt, chByte, rbNat]
  cases e <;> simp only [storeTarget, sweepBase, chByteIndex]
  · rw [rbWrite16_read_other _ _ _ _ (by omega) (by omega)]
  · rw [Memory.read_write_other _ _ _ _ (by omega)]
  · rw [rbWrite16_read_other _ _ _ _ (by omega) (by omega)]

theorem sweepFire_flags (e : Sweep) (rb : Memory) (h : Memory.wf rb = true) : FlagFrame c rb (sweepFire e c rb) := by
  simp only [sweepFire]
  split
  · split
    · exact (storeTarget_flags c e _ rb).trans
        (FlagFrame.flip_up ((storeTarget_frame e c _ rb).wf h) e (storeTarget_fAmt c e _ rb))
    · exact storeTarget_flags c e _ rb
  · split <;> exact storeTarget_flags c e _ rb

theorem channelSource_flags : FlagFrame c s.rb (channelSource P c s).1.rb := by
  simp only [channelSource]
  split
  · exact pcmSteps_flags c _ s.rb
  · exact FlagFrame.refl c s.rb

@[simp] theorem channelOutput_rb (raw : Int) : (channelOutput P c s raw).1.rb = s.rb := rfl

theorem sweep_flags (e : Sweep) (h : Memory.wf s.rb = true) : FlagFrame c s.rb (sweep c s e).rb := by
  simp only [sweep]
  split
  · split
    · exact sweepFire_flags c e s.rb h
    · exact FlagFrame.refl c s.rb
  · exact FlagFrame.refl c s.rb

theorem sweeps_flags (h : Memory.wf s.rb = true) : FlagFrame c s.rb (sweeps c s).rb := by
  have h1 := (sweep_frame c s .freq).rb.wf h
  have h2 := (sweep_frame c _ .vol).rb.wf h1
  exact ((sweep_flags c s .freq h).trans (sweep_flags c _ .vol h1)).trans (sweep_flags c _ .cut h2)

theorem phaseResets_flags (h : Memory.wf s.rb = true) : FlagFrame c s.rb (phaseResets P c s).rb := by
  simp only [phaseResets, State.setRb_rb]
  split
  · exact FlagFrame.clear_phReset h
  · exact FlagFrame.refl c s.rb

theorem channelStep_flags (h : Memory.wf s.rb = true) : FlagFrame c s.rb (channelStep P c s).1.rb := by
  have hsource := (channelSource_frame P c s).rb.wf h
  have hout := channelOutput_rb P c (channelSource P c s).1 (channelSource P c s).2
  simp only [channelStep]
  generalize (channelOutput P c (channelSource P c s).1 (channelSource P c s).2).1 = u at hout
  rw [← hout] at hsource
  have hsweeps := (sweeps_frame c u).rb.wf hsource
  refine (channelSource_flags P c s).trans ?_
  rw [← hout]
  exact (sweeps_flags c u hsource).trans (phaseResets_flags P c _ hsweeps)

/-- An ADVANCE runs each channel's step on that channel's bytes as they stood before it. -/
theorem advance_flags (h : Memory.wf s.rb = true) : FlagFrame c s.rb (advance P s).1.rb := by
  obtain ⟨u, hu, _, hbytes⟩ := advance_channel P s c
  exact ((FlagFrame.of_chanBytes hu.bytes).trans (channelStep_flags P c u (hu.wf h))).trans
    (FlagFrame.of_chanBytes hbytes)

end Stages

/-- Settles O21, by the frame of ADVANCE for the bytes it does not own and `advance_flags` for the two kinds of byte it
owns in one bit only. -/
theorem advanceWritesOwnedBytesOnly : Obligations.AdvanceWritesOwnedBytesOnly := by
  unfold Obligations.AdvanceWritesOwnedBytesOnly
  intro s hwf
  refine ⟨_, exec_adv s, fun a ha => ?_, fun c => ?_⟩
  · rw [advanceCommand_rb]
    exact (advance_frame params s).read a ha
  · rw [advanceCommand_rb]
    obtain ⟨hflags1, hamt⟩ := advance_flags params c s hwf
    refine ⟨hflags1, fun j hj => ?_⟩
    obtain ⟨e, rfl⟩ : ∃ e, j = amtOffset e := by
      simp only [List.mem_cons, List.not_mem_nil, or_false] at hj
      rcases hj with rfl | rfl | rfl
      · exact ⟨.freq, rfl⟩
      · exact ⟨.vol, rfl⟩
      · exact ⟨.cut, rfl⟩
    exact hamt e

end Sys2Proof.Machine

/-! ## The bits no field with an effect uses (10_state.md R32, 30_encoding.md R132) -/

namespace Sys2Proof.Machine

/-! ### Banks that agree on the used bits of a channel -/

/-- The banks agree on channel `c`'s 64 bytes but for bits without effect. -/
def UsedBitsAgree (c : ChanId) (rb rb' : Memory) : Prop :=
  ∀ a, a / 64 = c.val → Memory.read rb' a &&& usedMask a = Memory.read rb a &&& usedMask a

theorem usedMask_opByteIndex (c : ChanId) (k : OpId) (r : Nat) (hr : r < 8) :
    usedMask (opByteIndex c k r) = if r = 1 then 0x7F#8 else 0xFF#8 := by
  have hk := k.isLt
  rw [usedMask, if_pos (by simp only [opByteIndex]; omega)]
  simp only [show opByteIndex c k r % 8 = r by simp only [opByteIndex]; omega]

theorem usedMask_chByteIndex (c : ChanId) (j : Nat) (hj : j < 32) :
    usedMask (chByteIndex c j) = usedMask (32 + j) := by
  have hmod : chByteIndex c j % 64 = (32 + j) % 64 := by simp only [chByteIndex]; omega
  have hpos : ¬ (32 + j) % 64 < 32 := by omega
  simp only [usedMask, hmod, if_neg hpos]

/-- Agreement on a byte's low seven bits. -/
theorem and_0x7F_eq_iff (b b' : Byte) : b' &&& 0x7F#8 = b &&& 0x7F#8 ↔ b'.toNat % 128 = b.toNat % 128 := by
  have hmask : ∀ v, v &&& 127 = v % 128 := fun v => Nat.and_two_pow_sub_one_eq_mod v 7
  rw [← BitVec.toNat_inj]
  simp only [BitVec.toNat_and, BitVec.toNat_ofNat, Nat.reducePow, Nat.reduceMod, hmask]

/-! ### Every field with an effect reads alike -/

section Fields
variable {c : ChanId} {rb rb' : Memory} (h : UsedBitsAgree c rb rb')
include h

/-- A byte that is used whole reads alike. -/
theorem UsedBitsAgree.read_eq {a : Nat} (ha : a / 64 = c.val) (hm : usedMask a = 0xFF#8) :
    Memory.read rb' a = Memory.read rb a := by
  have := h a ha
  rwa [hm, show (0xFF#8) = BitVec.allOnes 8 from rfl, BitVec.and_allOnes, BitVec.and_allOnes] at this

/-- A used bit reads alike. -/
theorem UsedBitsAgree.bit_eq {a i : Nat} (ha : a / 64 = c.val) (hm : (usedMask a).getLsbD i = true) :
    bit (rbNat rb' a) i = bit (rbNat rb a) i := by
  have := congrArg (·.getLsbD i) (h a ha)
  simpa only [bit_eq_testBit, rbNat, BitVec.testBit_toNat, BitVec.getLsbD_and, hm, Bool.and_true] using this

/-- Every operator byte but the one of `TL` and `TLX`. -/
theorem UsedBitsAgree.opByte (k : OpId) (r : Nat) (hr : r ∈ [0, 2, 3, 4, 5, 6, 7]) :
    opByte rb' c k r = opByte rb c k r := by
  have hk := k.isLt
  have hlt : r < 8 ∧ r ≠ 1 := by revert r; decide
  simp only [Machine.opByte, rbNat]
  rw [h.read_eq (by simp only [opByteIndex]; omega) (by rw [usedMask_opByteIndex c k r hlt.1, if_neg hlt.2])]

/-- Every channel byte but the flag bytes and the reserved ones. -/
theorem UsedBitsAgree.chByte (j : Nat) (hj : j < 30 ∧ j ≠ flags0Offset ∧ j ≠ flags1Offset) :
    chByte rb' c j = chByte rb c j := by
  simp only [flags0Offset, flags1Offset] at hj
  have hmask : usedMask (chByteIndex c j) = 0xFF#8 := by
    rw [usedMask_chByteIndex c j (by omega), usedMask, if_neg (by omega), if_neg (by omega), if_neg (by omega),
      if_neg (by omega)]
  simp only [Machine.chByte, rbNat]
  rw [h.read_eq (by simp only [chByteIndex]; omega) hmask]

/-- Every 16-bit field. -/
theorem UsedBitsAgree.chWord (j : Nat) (hj : j ∈ [0x00, 0x06, 0x0A, 0x0C, 0x0E, 0x10, 0x14, 0x18, 0x1C]) :
    chWord rb' c j = chWord rb c j := by
  have hne : (j < 30 ∧ j ≠ flags0Offset ∧ j ≠ flags1Offset) ∧
      (j + 1 < 30 ∧ j + 1 ≠ flags0Offset ∧ j + 1 ≠ flags1Offset) := by revert j; decide
  exact congrArg₂ (fun x y => x + 256 * y) (h.chByte j hne.1) (h.chByte (j + 1) hne.2)

theorem UsedBitsAgree.flags0_bit (i : Nat) (hi : i < 6) : bit (fFlags0 rb' c) i = bit (fFlags0 rb c) i := by
  refine h.bit_eq (by simp only [chByteIndex, flags0Offset]; omega) ?_
  rw [usedMask_chByteIndex c _ (by decide)]
  interval_cases i <;> rfl

theorem UsedBitsAgree.flags1_bit (i : Nat) (hi : i < 7) : bit (fFlags1 rb' c) i = bit (fFlags1 rb c) i := by
  refine h.bit_eq (by simp only [chByteIndex, flags1Offset]; omega) ?_
  rw [usedMask_chByteIndex c _ (by decide)]
  interval_cases i <;> rfl

section Operator
variable (k : OpId)

theorem UsedBitsAgree.fTl : fTl rb' c k = fTl rb c k := by
  have hk := k.isLt
  have hbyte := h (opByteIndex c k 1) (by simp only [opByteIndex]; omega)
  rw [usedMask_opByteIndex c k 1 (by decide), if_pos rfl, and_0x7F_eq_iff] at hbyte
  simpa only [Machine.fTl, Machine.opByte, bits, rbNat, Nat.pow_zero, Nat.div_one, Nat.reduceSub, Nat.reduceAdd,
    Nat.reducePow] using hbyte

theorem UsedBitsAgree.fMul : fMul rb' c k = fMul rb c k := congrArg (bits · 3 0) (h.opByte k 0 (by decide))
theorem UsedBitsAgree.fKsr : fKsr rb' c k = fKsr rb c k := congrArg (bits · 5 4) (h.opByte k 0 (by decide))
theorem UsedBitsAgree.fPm : fPm rb' c k = fPm rb c k := congrArg (bit · 6) (h.opByte k 0 (by decide))
theorem UsedBitsAgree.fAm : fAm rb' c k = fAm rb c k := congrArg (bit · 7) (h.opByte k 0 (by decide))
theorem UsedBitsAgree.fAr : fAr rb' c k = fAr rb c k := congrArg (bits · 4 0) (h.opByte k 2 (by decide))
theorem UsedBitsAgree.fKsl : fKsl rb' c k = fKsl rb c k := congrArg (bits · 6 5) (h.opByte k 2 (by decide))
theorem UsedBitsAgree.fLfod : fLfod rb' c k = fLfod rb c k := congrArg (bit · 7) (h.opByte k 2 (by decide))
theorem UsedBitsAgree.fDr : fDr rb' c k = fDr rb c k := congrArg (bits · 4 0) (h.opByte k 3 (by decide))
theorem UsedBitsAgree.fDt : fDt rb' c k = fDt rb c k := congrArg (bits · 7 5) (h.opByte k 3 (by decide))
theorem UsedBitsAgree.fSr : fSr rb' c k = fSr rb c k := congrArg (bits · 4 0) (h.opByte k 4 (by decide))
theorem UsedBitsAgree.fRr : fRr rb' c k = fRr rb c k := congrArg (bits · 3 0) (h.opByte k 5 (by decide))
theorem UsedBitsAgree.fSl : fSl rb' c k = fSl rb c k := congrArg (bits · 7 4) (h.opByte k 5 (by decide))
theorem UsedBitsAgree.fWave : fWave rb' c k = fWave rb c k := congrArg (bits · 2 0) (h.opByte k 6 (by decide))
theorem UsedBitsAgree.fFix : fFix rb' c k = fFix rb c k := congrArg (bit · 3) (h.opByte k 6 (by decide))
theorem UsedBitsAgree.fWpar : fWpar rb' c k = fWpar rb c k := congrArg (bits · 7 4) (h.opByte k 6 (by decide))
theorem UsedBitsAgree.fOut : fOut rb' c k = fOut rb c k := congrArg (bits · 2 0) (h.opByte k 7 (by decide))
theorem UsedBitsAgree.fMod : fMod rb' c k = fMod rb c k := congrArg (bits · 5 3) (h.opByte k 7 (by decide))
theorem UsedBitsAgree.fRing : fRing rb' c k = fRing rb c k := congrArg (bit · 6) (h.opByte k 7 (by decide))
theorem UsedBitsAgree.fSync : fSync rb' c k = fSync rb c k := congrArg (bit · 7) (h.opByte k 7 (by decide))

end Operator

theorem UsedBitsAgree.fFreq : fFreq rb' c = fFreq rb c := h.chWord 0x00 (by decide)
theorem UsedBitsAgree.fVol : fVol rb' c = fVol rb c := congrArg s8 (h.chByte 0x02 (by decide))
theorem UsedBitsAgree.fPan : fPan rb' c = fPan rb c := congrArg s8 (h.chByte 0x03 (by decide))
theorem UsedBitsAgree.fCutoff : fCutoff rb' c = fCutoff rb c := h.chWord 0x06 (by decide)
theorem UsedBitsAgree.fDuty : fDuty rb' c = fDuty rb c := h.chByte 0x08 (by decide)
theorem UsedBitsAgree.fReson : fReson rb' c = fReson rb c := h.chByte 0x09 (by decide)
theorem UsedBitsAgree.fPcmPos : fPcmPos rb' c = fPcmPos rb c := h.chWord 0x0A (by decide)
theorem UsedBitsAgree.fPcmBnd : fPcmBnd rb' c = fPcmBnd rb c := h.chWord 0x0C (by decide)
theorem UsedBitsAgree.fPcmRst : fPcmRst rb' c = fPcmRst rb c := h.chWord 0x0E (by decide)
theorem UsedBitsAgree.fResTimer : fResTimer rb' c = fResTimer rb c := h.chWord 0x1C (by decide)

theorem UsedBitsAgree.fPcm : fPcm rb' c = fPcm rb c := h.flags0_bit 1 (by decide)
theorem UsedBitsAgree.fCring : fCring rb' c = fCring rb c := h.flags0_bit 2 (by decide)
theorem UsedBitsAgree.fFlp : fFlp rb' c = fFlp rb c := h.flags0_bit 3 (by decide)
theorem UsedBitsAgree.fFhp : fFhp rb' c = fFhp rb c := h.flags0_bit 4 (by decide)
theorem UsedBitsAgree.fFbp : fFbp rb' c = fFbp rb c := h.flags0_bit 5 (by decide)
theorem UsedBitsAgree.fPhReset : fPhReset rb' c = fPhReset rb c := h.flags1_bit 0 (by decide)
theorem UsedBitsAgree.fFltReset : fFltReset rb' c = fFltReset rb c := h.flags1_bit 1 (by decide)
theorem UsedBitsAgree.fPcmLoop : fPcmLoop rb' c = fPcmLoop rb c := h.flags1_bit 2 (by decide)
theorem UsedBitsAgree.fTimerSync : fTimerSync rb' c = fTimerSync rb c := h.flags1_bit 3 (by decide)

section Sweeps
variable (e : Sweep)

theorem UsedBitsAgree.fSweepEn : fSweepEn rb' c e = fSweepEn rb c e := by
  cases e <;> exact h.flags1_bit _ (by decide)

theorem UsedBitsAgree.fSpeed : fSpeed rb' c e = fSpeed rb c e := h.chWord _ (by cases e <;> decide)
theorem UsedBitsAgree.fAmt : fAmt rb' c e = fAmt rb c e := h.chByte _ (by cases e <;> decide)
theorem UsedBitsAgree.fMag : fMag rb' c e = fMag rb c e := congrArg (bits · 4 0) (h.fAmt e)
theorem UsedBitsAgree.fUp : fUp rb' c e = fUp rb c e := congrArg (bit · 5) (h.fAmt e)
theorem UsedBitsAgree.fWrapF : fWrapF rb' c e = fWrapF rb c e := congrArg (bit · 6) (h.fAmt e)
theorem UsedBitsAgree.fBounce : fBounce rb' c e = fBounce rb c e := congrArg (bit · 7) (h.fAmt e)
theorem UsedBitsAgree.fBound : fBound rb' c e = fBound rb c e := h.chByte _ (by cases e <;> decide)

theorem UsedBitsAgree.sweepValue : sweepValue rb' c e = sweepValue rb c e := by
  cases e
  · exact congrArg Int.ofNat h.fFreq
  · exact h.fVol
  · exact congrArg Int.ofNat h.fCutoff

end Sweeps
end Fields

/-! ### The voice reads used bits alone -/

/-- The global state agrees on what a channel step reads of it. -/
structure CountersAgree (g g' : Globals) : Prop where
  amVal : g'.amVal = g.amVal
  pmVal : g'.pmVal = g.pmVal
  envCnt : g'.envCnt = g.envCnt

section Voice
variable {c : ChanId} {rb rb' : Memory} {g g' : Globals}

theorem phaseStep_congr (h : UsedBitsAgree c rb rb') (hg : CountersAgree g g') (P : Params) (k : OpId) :
    phaseStep P rb' g' c k = phaseStep P rb g c k := by
  simp only [phaseStep, fixedModeStep, ratioStep, vibrato, pmFactor, h.fFix, h.fMul, h.fDt, h.fPm, h.fLfod, h.fFreq,
    hg.pmVal]

theorem moveOperator_congr (h : UsedBitsAgree c rb rb') (hg : CountersAgree g g') (P : Params) (snap : VoiceSnapshot)
    (k : OpId) (o : OpState) : moveOperator P rb' g' c snap k o = moveOperator P rb g c snap k o := by
  simp only [moveOperator, stepMove, noiseTap, phaseStep_congr h hg, h.fSync, h.fWpar]

theorem envEval_congr (h : UsedBitsAgree c rb rb') (hg : CountersAgree g g') (P : Params) (k : OpId) (o : OpState) :
    envEval P rb' g' c k o = envEval P rb g c k o := by
  have hbase : ∀ e, baseRate rb' c k e = baseRate rb c k e := fun e => by
    cases e <;> simp only [baseRate, h.fAr, h.fDr, h.fSr, h.fRr]
  simp only [envEval, envRate, hbase, h.fKsr, h.fSl, h.fFreq, hg.envCnt]

theorem rawWave_congr (h : UsedBitsAgree c rb rb') (P : Params) (pcm : Memory) (k : OpId) (o : OpState) (p10 : Nat) :
    rawWave P rb' pcm c k o p10 = rawWave P rb pcm c k o p10 := by
  simp only [rawWave, h.fWave, h.fWpar, h.fDuty, h.fPcmRst]

theorem attTotal_congr (h : UsedBitsAgree c rb rb') (hg : CountersAgree g g') (P : Params) (k : OpId) (att : Nat) :
    attTotal P rb' g' c k att = attTotal P rb g c k att := by
  simp only [attTotal, amTerm, h.fAm, h.fLfod, h.fTl, h.fKsl, h.fFreq, hg.amVal]

theorem operatorValue_congr (h : UsedBitsAgree c rb rb') (hg : CountersAgree g g') (P : Params) (pcm : Memory)
    (k : OpId) (ch : ChanState) (v3p : Int) (o : OpState) :
    operatorValue P rb' pcm g' c k ch v3p o = operatorValue P rb pcm g c k ch v3p o := by
  simp only [operatorValue, modInput, rawWave_congr h, attTotal_congr h hg, h.fMod, h.fRing]

theorem outValue_congr (h : UsedBitsAgree c rb rb') (P : Params) (k : OpId) (m : PhaseMove) (prevOut value : Int) :
    outValue P rb' c k m prevOut value = outValue P rb c k m prevOut value := by
  simp only [outValue, edge, h.fWave, h.fWpar, h.fDuty]

theorem voice_congr (h : UsedBitsAgree c rb rb') (hg : CountersAgree g g') (P : Params) (pcm : Memory)
    (ch : ChanState) : voice P rb' pcm g' c ch = voice P rb pcm g c ch := by
  have heval : evalOperator P rb' pcm g' c (snapshot ch) = evalOperator P rb pcm g c (snapshot ch) := by
    funext acc k
    simp only [evalOperator, moveOperator_congr h hg, envEval_congr h hg, operatorValue_congr h hg, outValue_congr h,
      h.fOut]
  simp only [voice, heval]

end Voice

/-! ### Register-bank writes keep the agreement -/

/-- Two banks in canonical form that agree on channel `c`'s used bits. -/
structure BanksAgree (c : ChanId) (rb rb' : Memory) : Prop where
  wf : Memory.wf rb = true
  wf' : Memory.wf rb' = true
  used : UsedBitsAgree c rb rb'

section Writes
variable {c : ChanId} {rb rb' : Memory}

theorem BanksAgree.write (h : BanksAgree c rb rb') (a : Nat) (b b' : Byte) (hb : b' &&& usedMask a = b &&& usedMask a) :
    BanksAgree c (Memory.write rb a b) (Memory.write rb' a b') := by
  refine ⟨Memory.write_wf _ h.wf _ _, Memory.write_wf _ h.wf' _ _, fun x hx => ?_⟩
  rw [Memory.read_write _ h.wf, Memory.read_write _ h.wf']
  split
  · next hxa => rw [hxa, hb]
  · exact h.used x hx

theorem BanksAgree.write16 (h : BanksAgree c rb rb') (a v : Nat) :
    BanksAgree c (rbWrite16 rb a v) (rbWrite16 rb' a v) :=
  (h.write a _ _ rfl).write (a + 1) _ _ rfl

theorem BanksAgree.pcmSteps (h : BanksAgree c rb rb') (n : Nat) :
    BanksAgree c (pcmSteps c n rb) (pcmSteps c n rb') := by
  induction n generalizing rb rb' with
  | zero => exact h
  | succ n ih =>
    refine ih ?_
    simp only [pcmStep, h.used.fPcmPos, h.used.fPcmBnd, h.used.fPcmRst, h.used.fPcmLoop]
    exact h.write16 _ _

theorem BanksAgree.storeTarget (h : BanksAgree c rb rb') (e : Sweep) (t : Int) :
    BanksAgree c (storeTarget e c t rb) (storeTarget e c t rb') := by
  cases e
  · exact h.write16 _ _
  · exact h.write _ _ _ rfl
  · exact h.write16 _ _

theorem BanksAgree.sweepFire (h : BanksAgree c rb rb') (e : Sweep) :
    BanksAgree c (sweepFire e c rb) (sweepFire e c rb') := by
  simp only [Machine.sweepFire, h.used.sweepValue, h.used.fBound, h.used.fUp, h.used.fMag, h.used.fBounce,
    h.used.fWrapF, h.used.fAmt]
  by_cases hbounce : fBounce rb c e = true
  · simp only [if_pos hbounce]
    split
    · exact (h.storeTarget e _).write _ _ _ rfl
    · exact h.storeTarget e _
  · simp only [if_neg hbounce]
    split <;> exact h.storeTarget e _

/-- Serving the one-shot request leaves each bank its own unused bit 7 of `FLAGS1`. -/
theorem BanksAgree.clear_phReset (h : BanksAgree c rb rb') :
    BanksAgree c (Memory.write rb (chByteIndex c flags1Offset) (BitVec.ofNat 8 (clearBit (fFlags1 rb c) 0)))
      (Memory.write rb' (chByteIndex c flags1Offset) (BitVec.ofNat 8 (clearBit (fFlags1 rb' c) 0))) := by
  have hmask : usedMask (chByteIndex c flags1Offset) = 0x7F#8 := usedMask_chByteIndex c _ (by decide)
  have hbyte : fFlags1 rb' c % 128 = fFlags1 rb c % 128 := by
    have := h.used (chByteIndex c flags1Offset) (by simp only [chByteIndex, flags1Offset]; omega)
    rwa [hmask, and_0x7F_eq_iff] at this
  refine h.write _ _ _ ?_
  rw [hmask, and_0x7F_eq_iff, BitVec.toNat_ofNat, BitVec.toNat_ofNat]
  simp only [clearBit, bit, decide_eq_true_eq]
  split <;> split <;> omega

end Writes

/-! ### The channel step -/

/-- The states agree on all that channel `c`'s step reads, but for register bits without effect. -/
structure StepAgrees (c : ChanId) (s s' : State) : Prop where
  banks : BanksAgree c s.rb s'.rb
  chan : s'.chan c = s.chan c
  prevRaw : (s'.chan (c + 1)).prevRaw = (s.chan (c + 1)).prevRaw
  pcm : s'.pcm = s.pcm
  mute : s'.mute[c] = s.mute[c]
  counters : CountersAgree s.glob s'.glob

theorem nextChannel_ne : ∀ c : ChanId, c + 1 ≠ c := by decide

section Stages
variable {c : ChanId} {s s' : State} (P : Params)

/-- Work on channel `c` alone keeps the agreement if it keeps it on the channel's bytes and its transient state. -/
theorem StepAgrees.of_frame {t t' : State} (h : StepAgrees c s s') (ht : ChanFrame c s t) (ht' : ChanFrame c s' t')
    (hb : BanksAgree c t.rb t'.rb) (hc : t'.chan c = t.chan c) : StepAgrees c t t' where
  banks := hb
  chan := hc
  prevRaw := by rw [ht'.chan _ (nextChannel_ne c), ht.chan _ (nextChannel_ne c), h.prevRaw]
  pcm := by rw [ht'.pcm, ht.pcm, h.pcm]
  mute := by simp only [ht'.mute, ht.mute, h.mute]
  counters := by rw [ht'.glob, ht.glob]; exact h.counters

/-- In PCM mode the position steps in both banks; in voice mode both run the same `voice`. -/
theorem StepAgrees.channelSource (h : StepAgrees c s s') :
    StepAgrees c (channelSource P c s).1 (channelSource P c s').1 ∧
      (channelSource P c s').2 = (channelSource P c s).2 := by
  have hframe := h.of_frame (channelSource_frame P c s) (channelSource_frame P c s')
  have hused := h.banks.used
  by_cases hpcm : fPcm s.rb c = true
  · have hpcm' : fPcm s'.rb c = true := by rw [hused.fPcm, hpcm]
    simp only [Machine.channelSource, if_pos hpcm, if_pos hpcm'] at hframe ⊢
    refine ⟨hframe ?_ ?_, by rw [h.pcm, hused.fPcmPos]⟩
    · simp only [pcmAdvance, State.setRb_rb, h.chan, hused.fFreq]
      exact h.banks.pcmSteps _
    · simp only [pcmAdvance, State.setRb_chan, State.setChan_chan_same, h.chan, hused.fFreq]
  · have hpcm' : ¬ fPcm s'.rb c = true := by rw [hused.fPcm]; exact hpcm
    have hvoice : voice P s'.rb s'.pcm s'.glob c (s'.chan c) = voice P s.rb s.pcm s.glob c (s.chan c) := by
      rw [h.pcm, h.chan, voice_congr hused h.counters]
    simp only [Machine.channelSource, if_neg hpcm, if_neg hpcm', hvoice] at hframe ⊢
    exact ⟨hframe h.banks (by simp only [State.setChan_chan_same]), trivial⟩

theorem StepAgrees.channelOutput (h : StepAgrees c s s') (raw : Int) :
    StepAgrees c (channelOutput P c s raw).1 (channelOutput P c s' raw).1 ∧
      (channelOutput P c s' raw).2 = (channelOutput P c s raw).2 := by
  have hframe := h.of_frame (channelOutput_frame P c s raw) (channelOutput_frame P c s' raw)
  have hused := h.banks.used
  have hring : channelRing P c s' raw = channelRing P c s raw := by
    simp only [channelRing, hused.fCring, h.prevRaw]
  have hfilter : ∀ x, filterStage P s'.rb c x (s.chan c) = filterStage P s.rb c x (s.chan c) := fun x => by
    simp only [filterStage, hused.fFlp, hused.fFhp, hused.fFbp, hused.fCutoff, hused.fReson]
  refine ⟨hframe h.banks ?_, ?_⟩
  · simp only [Machine.channelOutput, State.setChan_chan_same, hring, hfilter, hused.fVol, hused.fPan, h.chan, h.mute]
  · simp only [Machine.channelOutput, hring, hfilter, hused.fVol, hused.fPan, h.chan, h.mute]

theorem StepAgrees.sweep (h : StepAgrees c s s') (e : Sweep) : StepAgrees c (sweep c s e) (sweep c s' e) := by
  have hframe := h.of_frame (sweep_frame c s e) (sweep_frame c s' e)
  have hused := h.banks.used
  simp only [Machine.sweep, hused.fSweepEn, hused.fSpeed, h.chan] at hframe ⊢
  by_cases hen : fSweepEn s.rb c e = true
  · simp only [if_pos hen] at hframe ⊢
    split at hframe
    · next hfire =>
      rw [if_pos hfire, if_pos hfire]
      exact hframe (h.banks.sweepFire e) (by simp only [State.setRb_chan, State.setChan_chan_same])
    · next hfire =>
      rw [if_neg hfire, if_neg hfire]
      exact hframe h.banks (by simp only [State.setChan_chan_same])
  · simp only [if_neg hen]
    exact h

theorem StepAgrees.phaseResets (h : StepAgrees c s s') : StepAgrees c (phaseResets P c s) (phaseResets P c s') := by
  have hframe := h.of_frame (phaseResets_frame P c s) (phaseResets_frame P c s')
  have hused := h.banks.used
  refine hframe ?_ ?_
  · simp only [Machine.phaseResets, State.setRb_rb, hused.fPhReset]
    split
    · exact h.banks.clear_phReset
    · exact h.banks
  · simp only [Machine.phaseResets, State.setRb_chan, State.setChan_chan_same, hused.fPhReset, hused.fTimerSync,
      hused.fResTimer, hused.fFltReset, h.chan]

/-- A channel's step keeps the agreement and returns the same raw sample and contributions. -/
theorem StepAgrees.channelStep (h : StepAgrees c s s') :
    StepAgrees c (channelStep P c s).1 (channelStep P c s').1 ∧ (channelStep P c s').2 = (channelStep P c s).2 := by
  obtain ⟨hsource, hraw⟩ := h.channelSource P
  obtain ⟨hout, hret⟩ := hsource.channelOutput P (Machine.channelSource P c s).2
  simp only [Machine.channelStep, hraw]
  exact ⟨(((hout.sweep .freq).sweep .vol).sweep .cut).phaseResets P, hret⟩

/-- Another channel's step, in both states, keeps the agreement of channel `c`. -/
theorem StepAgrees.channelStep_ne {d : ChanId} (h : StepAgrees c s s') (hcd : c ≠ d) :
    StepAgrees c (Machine.channelStep P d s).1 (Machine.channelStep P d s').1 := by
  have hf := channelStep_frame P d s
  have hf' := channelStep_frame P d s'
  exact
    { banks :=
        { wf := hf.rb.wf h.banks.wf
          wf' := hf'.rb.wf h.banks.wf'
          used := fun a ha => by
            rw [hf'.rb.chanBytes hcd a ha, hf.rb.chanBytes hcd a ha]
            exact h.banks.used a ha }
      chan := by rw [hf'.chan c hcd, hf.chan c hcd, h.chan]
      prevRaw := by rw [channelStep_prevRaw, channelStep_prevRaw, h.prevRaw]
      pcm := by rw [hf'.pcm, hf.pcm, h.pcm]
      mute := by simp only [hf'.mute, hf.mute, h.mute]
      counters := by rw [hf'.glob, hf.glob]; exact h.counters }

/-! ### The whole ADVANCE -/

theorem runChannels_congr (cs : List ChanId) (h : ∀ c, StepAgrees c s s') :
    (∀ c, StepAgrees c (runChannels P cs s).1 (runChannels P cs s').1) ∧
      (runChannels P cs s').2 = (runChannels P cs s).2 := by
  induction cs generalizing s s' with
  | nil => exact ⟨h, rfl⟩
  | cons d cs ih =>
    have hstep : ∀ c, StepAgrees c (channelStep P d s).1 (channelStep P d s').1 := fun c => by
      by_cases hcd : c = d
      · subst hcd; exact ((h c).channelStep P).1
      · exact (h c).channelStep_ne P hcd
    obtain ⟨hrest, houts⟩ := ih hstep
    simp only [runChannels, houts, ((h d).channelStep P).2]
    exact ⟨hrest, trivial⟩

theorem commitRaws_chan_congr {outs outs' : List (ChanId × ChanOut)} (ho : outs' = outs)
    (h : ∀ c, s'.chan c = s.chan c) (c : ChanId) : (commitRaws outs' s').chan c = (commitRaws outs s).chan c := by
  subst ho
  induction outs' generalizing s s' with
  | nil => exact h c
  | cons e outs ih =>
    refine ih fun d => ?_
    by_cases hd : d = e.1
    · subst hd; simp only [State.setChan_chan_same, h]
    · simp only [State.setChan_chan_ne _ _ _ _ hd, h]

theorem chans_eq_of_chan (h : ∀ c, s'.chan c = s.chan c) : s'.chans = s.chans :=
  Vector.ext fun i hi => h ⟨i, hi⟩

end Stages

section Advance
variable {P : Params} {s : State} {rb' : Memory}

/-- Changing unused bits of the register bank changes nothing that a channel's step reads. -/
theorem AgreeOnUsedBits.stepAgrees (h : AgreeOnUsedBits s.rb rb') (hwf : Memory.wf s.rb = true)
    (hwf' : Memory.wf rb' = true) (c : ChanId) : StepAgrees c s (s.setRb rb') :=
  ⟨⟨hwf, hwf', fun a _ => h a⟩, rfl, rfl, rfl, rfl, ⟨rfl, rfl, rfl⟩⟩

/-- The mixer runs on what the channel steps returned and on the counters stepped at the start. -/
theorem advance_mix (P : Params) (s : State) :
    ((advance P s).1.glob, (advance P s).2) =
      mix P ((runChannels P channels (s.beforeChannels P)).2.map fun e => e.2.left)
        ((runChannels P channels (s.beforeChannels P)).2.map fun e => e.2.right) (advanceGlobals P s.glob) := by
  have hglob := ((runChannels_frame P channels (s.beforeChannels P)).trans
    (commitRaws_frame (runChannels P channels (s.beforeChannels P)).2 _)).glob
  rw [State.beforeChannels_glob] at hglob
  rw [← hglob]
  rfl

/-- The bytes past the bank's 576 are written by no ADVANCE. -/
theorem advance_read_of_ge (P : Params) (s : State) (a : Nat) (ha : 576 ≤ a) :
    Memory.read (advance P s).1.rb a = Memory.read s.rb a := by
  refine (advance_frame P s).read a fun c j hj => ?_
  have hlt := chByteIndex_lt c j (by revert j; decide)
  omega

/-- Two ADVANCEs from states that differ in unused register bits at most. -/
theorem advance_setRb_congr (h : AgreeOnUsedBits s.rb rb') (hwf : Memory.wf s.rb = true) (hwf' : Memory.wf rb' = true) :
    (advance P (s.setRb rb')).1.chans = (advance P s).1.chans ∧
      (advance P (s.setRb rb')).1.glob = (advance P s).1.glob ∧
      (advance P (s.setRb rb')).2 = (advance P s).2 ∧
      AgreeOnUsedBits (advance P s).1.rb (advance P (s.setRb rb')).1.rb := by
  obtain ⟨hrun, houts⟩ := runChannels_congr P channels
    (AgreeOnUsedBits.stepAgrees (s := s.beforeChannels P) h hwf hwf')
  have hmix := advance_mix P (s.setRb rb')
  rw [show (s.setRb rb').beforeChannels P = (s.beforeChannels P).setRb rb' from rfl, houts, State.setRb_glob,
    ← advance_mix P s, Prod.mk.injEq] at hmix
  refine ⟨chans_eq_of_chan fun c => ?_, hmix.1, hmix.2, fun a => ?_⟩
  · rw [advance_chan, advance_chan]
    exact commitRaws_chan_congr houts (fun d => (hrun d).chan) c
  · by_cases ha : a < 576
    · rw [advance_rb, advance_rb]
      exact (hrun ⟨a / 64, by omega⟩).banks.used a rfl
    · rw [advance_read_of_ge P _ a (by omega), advance_read_of_ge P _ a (by omega)]
      exact h a

end Advance

/-- Settles O60, by `advance_setRb_congr`: every stage of an ADVANCE reads used bits alone. -/
theorem unusedBitsHaveNoEffect : Obligations.UnusedBitsHaveNoEffect := by
  unfold Obligations.UnusedBitsHaveNoEffect
  intro s rb' hwf hwf' h
  obtain ⟨hchans, hglob, hpair, hrb⟩ := advance_setRb_congr (P := params) h hwf hwf'
  refine ⟨_, _, exec_adv s, exec_adv _, ?_, ?_, ?_, ?_⟩
  · rw [advanceCommand_eq, advanceCommand_eq, State.complete_response, State.complete_response, hpair]
  · rw [advanceCommand_eq, advanceCommand_eq, State.complete_chans, State.complete_chans, hchans]
  · rw [advanceCommand_glob, advanceCommand_glob, hglob]
  · rw [advanceCommand_rb, advanceCommand_rb]
    exact hrb

end Sys2Proof.Machine

/-! ## The decoder and the encoder agree (30_encoding.md R122 to R124, R134) -/

namespace Sys2Proof

open Machine (bits bit)
open Laws.OpcodeField (opcode)

/-! ### The decoder, case by case -/

section DecodeCases
variable {w : Command} {i : Instr}

theorem decode_eq_ok_iff_fields :
    decode w = .ok i ↔ opcodeCommand w.toNat = some i ∧ reservedClear w.toNat = true := by
  unfold decode
  split
  · next h => simp [h]
  · next j h =>
    by_cases hr : reservedClear w.toNat = true
    · simp [h, hr]
    · simp [hr]

/-- A word that is accepted as no command is refused. -/
theorem exists_decode_error (h : ∀ i, decode w ≠ .ok i) : ∃ e, decode w = .error e := by
  cases hd : decode w with
  | error e => exact ⟨e, rfl⟩
  | ok i => exact absurd hd (h i)

end DecodeCases

/-! ### The opcode chooses the command and its must-be-zero bits -/

section Opcode
variable {n : Nat} {i : Instr}

/-- The command a number spells where its opcode is that of `i`: `i`'s kind, with the operands read from the number. -/
def operandsFrom (n : Nat) : Instr → Instr
  | .wr _ _ => .wr (addrField n) (dataField n)
  | .rd _ => .rd (addrField n)
  | .adv => .adv
  | .rst => .rst
  | .mute _ _ => .mute (chField n) (mField n)
  | .pcmw _ _ => .pcmw (paddrField n) (dataField n)

theorem opcodeCommand_of_opcode (h : opcField n = opcode i) : opcodeCommand n = some (operandsFrom n i) := by
  cases i <;> simp only [opcodeCommand, h, opcode, operandsFrom]

theorem opcode_of_opcodeCommand (h : opcodeCommand n = some i) : opcField n = opcode i := by
  unfold opcodeCommand at h
  split at h <;> cases h <;> assumption

theorem opcodeCommand_eq_some_iff : opcodeCommand n = some i ↔ opcField n = opcode i ∧ operandsFrom n i = i := by
  constructor
  · intro h
    have hop := opcode_of_opcodeCommand h
    exact ⟨hop, Option.some.inj ((opcodeCommand_of_opcode hop).symm.trans h)⟩
  · rintro ⟨hop, hi⟩
    rw [opcodeCommand_of_opcode hop, hi]

theorem opcode_range (i : Instr) : 1 ≤ opcode i ∧ opcode i ≤ 6 := by
  cases i <;> simp only [opcode] <;> decide

end Opcode

/-! ### The must-be-zero fields -/

/-- The must-be-zero fields of each opcode, by their highest and lowest bit (30_encoding.md R123). -/
def reservedFields : Nat → List (Nat × Nat)
  | 1 => [(27, 26), (15, 8)]
  | 2 => [(27, 26), (15, 0)]
  | 3 => [(27, 0)]
  | 4 => [(27, 0)]
  | 5 => [(27, 20), (15, 1)]
  | 6 => [(27, 24)]
  | _ => []

theorem reservedClear_iff (n : Nat) :
    reservedClear n = true ↔ ∀ f ∈ reservedFields (opcField n), bits n f.1 f.2 = 0 := by
  unfold reservedClear
  split <;> simp [reservedFields, *]

/-! ### The layout of a command word -/

/-- A number is the layout of a command exactly where it has the command's opcode and operands and no other bit: both
sides state the number's parts at the bit positions of R123, `M` as one of its two values. -/
theorem wellFormed_and_encodeNat_eq_iff (i : Instr) (n : Nat) (hn : n < 2 ^ 32) :
    (i.wellFormed = true ∧ encodeNat i = n) ↔
      opcField n = opcode i ∧ operandsFrom n i = i ∧ ∀ f ∈ reservedFields (opcode i), bits n f.1 f.2 = 0 := by
  cases i with
  | mute ch m =>
    cases m <;>
      simp only [Instr.wellFormed, encodeNat, opcode, operandsFrom, reservedFields, opcField, chField, mField, bits, bit,
        decide_eq_true_eq, decide_eq_false_iff_not, Instr.mute.injEq, List.mem_cons, List.not_mem_nil, or_false,
        forall_eq_or_imp, forall_eq, Bool.toNat_true, Bool.toNat_false] <;>
      omega
  | _ =>
    simp only [Instr.wellFormed, encodeNat, opcode, operandsFrom, reservedFields, opcField, addrField, dataField,
      paddrField, bits, Bool.and_eq_true, decide_eq_true_eq, Instr.wr.injEq, Instr.rd.injEq, Instr.pcmw.injEq,
      List.mem_cons, List.not_mem_nil, or_false, forall_eq_or_imp, forall_eq, true_and]
    omega

theorem encode_toNat (i : Instr) (h : i.wellFormed = true) : (encode i).toNat = encodeNat i := by
  cases i with
  | wr addr data => exact (Laws.OpcodeField.wr addr data h).1
  | rd addr => exact (Laws.OpcodeField.rd addr h).1
  | adv => exact (Laws.OpcodeField.adv h).1
  | rst => exact (Laws.OpcodeField.rst h).1
  | mute ch m => exact (Laws.OpcodeField.mute ch m h).1
  | pcmw paddr data => exact (Laws.OpcodeField.pcmw paddr data h).1

/-- The decoder accepts exactly the words of well-formed commands, each as its own command. -/
theorem decode_eq_ok_iff (w : Command) (i : Instr) : decode w = .ok i ↔ i.wellFormed = true ∧ encode i = w := by
  have hword : i.wellFormed = true → (encode i = w ↔ encodeNat i = w.toNat) := fun h => by
    rw [← BitVec.toNat_inj, encode_toNat i h]
  rw [and_congr_right hword, wellFormed_and_encodeNat_eq_iff i w.toNat w.isLt, decode_eq_ok_iff_fields,
    opcodeCommand_eq_some_iff, reservedClear_iff, and_assoc]
  exact and_congr_right fun hop => by rw [hop]

/-- Settles O1, by `decode_eq_ok_iff` read from right to left. -/
theorem decodeInvertsEncode : Obligations.DecodeInvertsEncode := by
  unfold Obligations.DecodeInvertsEncode
  exact fun i hwf => (decode_eq_ok_iff (encode i) i).2 ⟨hwf, rfl⟩

/-- Settles O2, by `decode_eq_ok_iff` read from left to right. -/
theorem encodeInvertsDecode : Obligations.EncodeInvertsDecode := by
  unfold Obligations.EncodeInvertsDecode
  exact fun w i hd => (decode_eq_ok_iff w i).1 hd

/-- Settles O4: each word is the encoding of its command, which is well-formed. -/
theorem decodeReadsWrittenOutWords : Obligations.DecodeReadsWrittenOutWords := by
  unfold Obligations.DecodeReadsWrittenOutWords
  simp only [decode_eq_ok_iff]
  decide

/-! ### Fields as masks -/

/-- The mask of the field from bit `f.1` down to bit `f.2`. -/
def fieldMask (f : Nat × Nat) : Command := BitVec.ofNat 32 ((2 ^ (f.1 - f.2 + 1) - 1) <<< f.2)

/-- The mask of the fields of a list. -/
def fieldsMask : List (Nat × Nat) → Command
  | [] => 0#32
  | f :: fs => fieldMask f ||| fieldsMask fs

theorem and_fieldMask_toNat (f : Nat × Nat) (hle : f.2 ≤ f.1) (hlt : f.1 < 32) (w : Command) :
    (w &&& fieldMask f).toNat = bits w.toNat f.1 f.2 * 2 ^ f.2 := by
  have hmask : (fieldMask f).toNat = (2 ^ (f.1 - f.2 + 1) - 1) <<< f.2 := by
    refine Nat.mod_eq_of_lt (lt_of_lt_of_le ?_ (Nat.pow_le_pow_right (by decide) (show f.1 + 1 ≤ 32 by omega)))
    rw [Nat.shiftLeft_eq, show f.1 + 1 = f.1 - f.2 + 1 + f.2 by omega, pow_add _ _ f.2]
    exact Nat.mul_lt_mul_of_pos_right (Nat.sub_lt (Nat.two_pow_pos _) Nat.one_pos) (Nat.two_pow_pos _)
  rw [BitVec.toNat_and, hmask, bits, ← Nat.shiftLeft_eq, ← Nat.shiftRight_eq_div_pow, ← Nat.and_two_pow_sub_one_eq_mod]
  refine Nat.eq_of_testBit_eq fun i => ?_
  simp only [Nat.testBit_and, Nat.testBit_shiftLeft, Nat.testBit_shiftRight]
  by_cases hi : f.2 ≤ i
  · simp [hi]
  · simp [hi]

theorem and_or_eq_iff (w p a b : Command) :
    w &&& (a ||| b) = p &&& (a ||| b) ↔ w &&& a = p &&& a ∧ w &&& b = p &&& b := by
  constructor
  · intro h
    have hpart : ∀ m, m &&& (a ||| b) = m → w &&& m = p &&& m := fun m hm => by
      rw [← hm, BitVec.and_comm m, ← BitVec.and_assoc, h, BitVec.and_assoc]
    refine ⟨hpart a ?_, hpart b ?_⟩
    · ext i; simpa using Or.inl
    · ext i; simpa using Or.inr
  · rintro ⟨ha, hb⟩
    rw [BitVec.and_or_distrib_left, BitVec.and_or_distrib_left, ha, hb]

/-- Two words agree under the mask of some fields exactly where each of the fields has the same value in both. -/
theorem and_fieldsMask_eq_iff (fs : List (Nat × Nat)) (hfs : ∀ f ∈ fs, f.2 ≤ f.1 ∧ f.1 < 32) (w p : Command) :
    w &&& fieldsMask fs = p &&& fieldsMask fs ↔
      ∀ f ∈ fs, bits w.toNat f.1 f.2 = bits p.toNat f.1 f.2 := by
  induction fs with
  | nil => simp [fieldsMask]
  | cons f fs ih =>
    obtain ⟨⟨hle, hlt⟩, hfs⟩ := List.forall_mem_cons.1 hfs
    have hf : w &&& fieldMask f = p &&& fieldMask f ↔ bits w.toNat f.1 f.2 = bits p.toNat f.1 f.2 := by
      rw [← BitVec.toNat_inj, and_fieldMask_toNat f hle hlt, and_fieldMask_toNat f hle hlt,
        Nat.mul_left_inj (Nat.two_pow_pos _).ne']
    rw [fieldsMask, and_or_eq_iff, hf, ih hfs, List.forall_mem_cons]

/-! ### The must-be-zero masks and the opcode table -/

theorem reservedFields_mem (k : Nat) : ∀ f ∈ reservedFields k, f.2 ≤ f.1 ∧ f.1 < 32 := by
  unfold reservedFields
  split <;> decide

theorem reservedClear_iff_mask (w : Command) :
    reservedClear w.toNat = true ↔ w &&& fieldsMask (reservedFields (opcField w.toNat)) = 0#32 := by
  have h := and_fieldsMask_eq_iff _ (reservedFields_mem (opcField w.toNat)) w 0#32
  rw [BitVec.zero_and] at h
  rw [h, reservedClear_iff]
  simp only [bits, BitVec.toNat_ofNat, Nat.zero_mod, Nat.zero_div]

/-- A row of the opcode table fits a word exactly where the word has the row's opcode and clear must-be-zero fields. -/
theorem fits_iff {r : OpcodeRow} (hr : r ∈ opcodeTable) (w : Command) :
    r.fits w = true ↔ opcField w.toNat = opcField r.pattern.toNat ∧ reservedClear w.toNat = true := by
  have htable : ∀ r ∈ opcodeTable, r.mask = fieldsMask ((31, 28) :: reservedFields (opcField r.pattern.toNat)) ∧
      r.pattern &&& r.mask = r.pattern ∧ reservedClear r.pattern.toNat = true := by decide
  obtain ⟨hmask, hpattern, hclear⟩ := htable r hr
  have hzero := (reservedClear_iff _).1 hclear
  calc r.fits w = true
    _ ↔ w &&& r.mask = r.pattern &&& r.mask := by rw [OpcodeRow.fits, beq_iff_eq, hpattern]
    _ ↔ opcField w.toNat = opcField r.pattern.toNat ∧
          ∀ f ∈ reservedFields (opcField r.pattern.toNat), bits w.toNat f.1 f.2 = bits r.pattern.toNat f.1 f.2 := by
      rw [hmask, and_fieldsMask_eq_iff _ (List.forall_mem_cons.2 ⟨by decide, reservedFields_mem _⟩),
        List.forall_mem_cons]
      rfl
    _ ↔ opcField w.toNat = opcField r.pattern.toNat ∧ reservedClear w.toNat = true := by
      refine and_congr_right fun hop => ?_
      rw [reservedClear_iff, hop]
      exact forall₂_congr fun f hf => by rw [hzero f hf]

/-- The rows of the opcode table are told apart by their opcodes. -/
theorem row_eq_of_opcode : ∀ r ∈ opcodeTable, ∀ r' ∈ opcodeTable,
    opcField r'.pattern.toNat = opcField r.pattern.toNat → r' = r := by decide

theorem exists_row_of_command (i : Instr) :
    ∃ r ∈ opcodeTable, opcField r.pattern.toNat = opcode i ∧ r.mnemonic = i.mnemonic := by
  cases i <;> simp [opcodeTable, opcode, Instr.mnemonic, opcField, bits]

theorem exists_command_of_row : ∀ r ∈ opcodeTable, ∃ i,
    opcField r.pattern.toNat = opcode i ∧ i.mnemonic = r.mnemonic := by
  simp only [opcodeTable, List.forall_mem_cons]
  exact ⟨⟨.wr 0 0, rfl, rfl⟩, ⟨.rd 0, rfl, rfl⟩, ⟨.adv, rfl, rfl⟩, ⟨.rst, rfl, rfl⟩, ⟨.mute 0 false, rfl, rfl⟩,
    ⟨.pcmw 0 0, rfl, rfl⟩, by simp⟩

theorem operandsFrom_mnemonic (n : Nat) (i : Instr) : (operandsFrom n i).mnemonic = i.mnemonic := by
  cases i <;> rfl

theorem decode_ok_fits {w : Command} {i : Instr} (h : decode w = .ok i) :
    ∃ r ∈ opcodeTable, r.fits w = true ∧ r.mnemonic = i.mnemonic ∧
      ∀ r' ∈ opcodeTable, r'.fits w = true → r' = r := by
  obtain ⟨hcmd, hclear⟩ := decode_eq_ok_iff_fields.1 h
  have hop := opcode_of_opcodeCommand hcmd
  obtain ⟨r, hr, hrow, hmnemonic⟩ := exists_row_of_command i
  refine ⟨r, hr, (fits_iff hr w).2 ⟨hop.trans hrow.symm, hclear⟩, hmnemonic, fun r' hr' hfits => ?_⟩
  obtain ⟨hop', -⟩ := (fits_iff hr' w).1 hfits
  exact row_eq_of_opcode r hr r' hr' (by rw [← hop', hop, hrow])

theorem decode_of_fits {w : Command} {r : OpcodeRow} (hr : r ∈ opcodeTable) (h : r.fits w = true) :
    ∃ i, decode w = .ok i ∧ i.mnemonic = r.mnemonic := by
  obtain ⟨hop, hclear⟩ := (fits_iff hr w).1 h
  obtain ⟨i, hi, hmnemonic⟩ := exists_command_of_row r hr
  exact ⟨operandsFrom w.toNat i, decode_eq_ok_iff_fields.2 ⟨opcodeCommand_of_opcode (hop.trans hi), hclear⟩,
    (operandsFrom_mnemonic _ _).trans hmnemonic⟩

/-- Settles O3, by `fits_iff`: a row fits where the opcode is the row's and the must-be-zero fields are clear, and these
are what the decoder looks at. -/
theorem decodeAcceptsExactlyTableRows : Obligations.DecodeAcceptsExactlyTableRows := by
  unfold Obligations.DecodeAcceptsExactlyTableRows
  refine ⟨fun w i => decode_ok_fits, fun w r => decode_of_fits, fun w hno => exists_decode_error fun i hi => ?_⟩
  obtain ⟨r, hr, hfits, -⟩ := decode_ok_fits hi
  exact Bool.false_ne_true ((hno r hr).symm.trans hfits)

/-! ### Refused words -/

theorem opcField_eq_shift (w : Command) : opcField w.toNat = (w >>> 28).toNat := by
  have hlt := w.isLt
  simp only [opcField, bits, BitVec.toNat_ushiftRight, Nat.shiftRight_eq_div_pow]
  omega

theorem decode_error_of_opcode {w : Command} (h : opcField w.toNat = 0 ∨ 7 ≤ opcField w.toNat) :
    ∃ e, decode w = .error e :=
  exists_decode_error fun i hi => by
    obtain ⟨hcmd, -⟩ := decode_eq_ok_iff_fields.1 hi
    have hop := opcode_of_opcodeCommand hcmd
    obtain ⟨h1, h6⟩ := opcode_range i
    omega

theorem decode_error_of_reservedBit {w k m : Command} (hop : w >>> 28 = k)
    (hm : fieldsMask (reservedFields k.toNat) = m) (hbit : w &&& m ≠ 0#32) : ∃ e, decode w = .error e :=
  exists_decode_error fun i hi => by
    obtain ⟨-, hclear⟩ := decode_eq_ok_iff_fields.1 hi
    rw [reservedClear_iff_mask, opcField_eq_shift, hop, hm] at hclear
    exact hbit hclear

end Sys2Proof

/-! ## What a step does with the first word presented (30_encoding.md R120, R124, 60_exceptions.md R441) -/

namespace Sys2Proof.Machine

section Step
variable {s : State} {w : Command} {rest : List Command}

theorem step_of_decode_ok {i : Instr} (hs : s.stream = w :: rest) (hd : decode w = .ok i) : step s = exec i s := by
  simp only [step, hs, hd]

theorem step_of_decode_error {e : DecodeError} (hs : s.stream = w :: rest) (hd : decode w = .error e) :
    step s = .next s.refuseWord := by
  simp only [step, hs, hd]

theorem step_of_idle (hs : s.stream = []) : step s = .next s := by
  simp only [step, hs]

end Step

/-! ### Every command completes -/

theorem setMute_stream (n : Nat) (m : Bool) (s : State) : (setMute n m s).stream = s.stream := by
  obtain ⟨v, hv⟩ := setMute_eq n m s
  rw [hv]

theorem setMute_refusalMark (n : Nat) (m : Bool) (s : State) : (setMute n m s).refusalMark = s.refusalMark := by
  obtain ⟨v, hv⟩ := setMute_eq n m s
  rw [hv]

/-- Every command completes: its word is consumed, and the refusal mark stays as it was. -/
theorem exec_completes (i : Instr) (s : State) : ∃ t r, exec i s = .next t ∧ PortAfter s t r := by
  cases i with
  | wr addr data =>
    exact ⟨_, _, exec_wr addr data s, by simp only [State.complete_stream, writeRegister_stream], rfl,
      by simp only [State.complete_refusalMark, writeRegister_refusalMark]⟩
  | rd addr => exact ⟨_, _, exec_rd addr s, rfl, rfl, rfl⟩
  | adv =>
    have hf := advance_frame params s
    rw [exec_adv, advanceCommand_eq]
    exact ⟨_, _, rfl, by rw [State.complete_stream, hf.stream], State.complete_response _ _,
      by rw [State.complete_refusalMark, hf.refusalMark]⟩
  | rst => exact ⟨_, _, exec_rst s, rfl, rfl, rfl⟩
  | mute ch m =>
    exact ⟨_, _, exec_mute ch m s, congrArg List.tail (setMute_stream ch m s), rfl, setMute_refusalMark ch m s⟩
  | pcmw paddr data => exact ⟨_, _, exec_pcmw paddr data s, rfl, rfl, rfl⟩

/-! ### No command reads the refusal mark -/

/-- The state with the refusal mark at a given value. -/
def State.setMark (m : Bool) (s : State) : State := { s with refusalMark := m }

section Mark
variable (m : Bool) (P : Params) (c : ChanId) (s : State)

theorem State.complete_setMark (r : Response) : (s.setMark m).complete r = (s.complete r).setMark m := rfl

theorem writeRegister_setMark (addr : Nat) (b : Byte) :
    writeRegister addr b (s.setMark m) = (writeRegister addr b s).setMark m := by
  simp only [writeRegister]
  split <;> rfl

theorem setMute_setMark (n : Nat) (v : Bool) : setMute n v (s.setMark m) = (setMute n v s).setMark m := by
  simp only [setMute]
  split <;> rfl

theorem channelSource_setMark :
    channelSource P c (s.setMark m) = ((channelSource P c s).1.setMark m, (channelSource P c s).2) := by
  have hrb : (s.setMark m).rb = s.rb := rfl
  simp only [channelSource, hrb]
  split <;> rfl

theorem channelOutput_setMark (raw : Int) :
    channelOutput P c (s.setMark m) raw = ((channelOutput P c s raw).1.setMark m, (channelOutput P c s raw).2) := rfl

theorem sweep_setMark (e : Sweep) : sweep c (s.setMark m) e = (sweep c s e).setMark m := by
  have hrb : (s.setMark m).rb = s.rb := rfl
  have hchan : (s.setMark m).chan c = s.chan c := rfl
  simp only [sweep, hrb, hchan]
  split
  · split <;> rfl
  · rfl

theorem phaseResets_setMark : phaseResets P c (s.setMark m) = (phaseResets P c s).setMark m := rfl

theorem channelStep_setMark :
    channelStep P c (s.setMark m) = ((channelStep P c s).1.setMark m, (channelStep P c s).2) := by
  simp only [channelStep, sweeps, List.foldl_cons, List.foldl_nil, channelSource_setMark, channelOutput_setMark,
    sweep_setMark, phaseResets_setMark]

theorem runChannels_setMark (cs : List ChanId) :
    runChannels P cs (s.setMark m) = ((runChannels P cs s).1.setMark m, (runChannels P cs s).2) := by
  induction cs generalizing s with
  | nil => rfl
  | cons c cs ih => simp only [runChannels, channelStep_setMark, ih]

theorem commitRaws_setMark (outs : List (ChanId × ChanOut)) :
    commitRaws outs (s.setMark m) = (commitRaws outs s).setMark m := by
  induction outs generalizing s with
  | nil => rfl
  | cons e outs ih => exact ih (s.setChan e.1 { s.chan e.1 with prevRaw := e.2.raw })

theorem advance_setMark : advance P (s.setMark m) = ((advance P s).1.setMark m, (advance P s).2) := by
  have hstart : { s.setMark m with glob := advanceGlobals P (s.setMark m).glob } =
      ({ s with glob := advanceGlobals P s.glob } : State).setMark m := rfl
  simp only [advance]
  rw [hstart, runChannels_setMark]
  generalize runChannels P channels { s with glob := advanceGlobals P s.glob } = r
  rw [commitRaws_setMark]
  rfl

/-- A command runs the same whatever the refusal mark is. -/
theorem exec_setMark (i : Instr) {t : State} (h : exec i s = .next t) :
    exec i (s.setMark m) = .next (t.setMark m) := by
  cases i with
  | wr addr data =>
    rw [exec_wr] at h ⊢
    cases h
    rw [writeRegister_setMark, State.complete_setMark]
  | rd addr => cases h; rfl
  | adv =>
    rw [exec_adv, advanceCommand_eq] at h ⊢
    cases h
    rw [advance_setMark, State.complete_setMark]
  | rst => cases h; rfl
  | mute ch v =>
    rw [exec_mute] at h ⊢
    cases h
    rw [setMute_setMark, State.complete_setMark]
  | pcmw paddr data => cases h; rfl

end Mark

/-- Settles O5, by `step_of_decode_ok` and the completion of every command. -/
theorem stepRunsDecodedCommand : Obligations.StepRunsDecodedCommand := by
  unfold Obligations.StepRunsDecodedCommand
  refine ⟨fun s w rest i hs hd => ?_, fun s => step_of_idle⟩
  obtain ⟨t, r, hexec, hport⟩ := exec_completes i s
  have hstep := step_of_decode_ok hs hd
  exact ⟨hstep, t, hstep.trans hexec, by rw [hport.stream, hs, List.tail_cons]⟩

/-- Settles O6: such a word decodes to no command, so its step is the refusal; every command completes with the mark as it
was and, by `exec_setMark`, does not read it. -/
theorem refusedWordChangesNothing : Obligations.RefusedWordChangesNothing := by
  unfold Obligations.RefusedWordChangesNothing
  refine ⟨fun s w rest hs hw => ?_, fun i s => ?_, fun i s m t h => exec_setMark m s i h⟩
  · have herror : ∃ e, decode w = .error e := by
      rcases hw with h0 | h7 | ⟨h, hb⟩ | ⟨h, hb⟩ | ⟨h, hb⟩ | ⟨h, hb⟩ | ⟨h, hb⟩ | ⟨h, hb⟩
      · exact decode_error_of_opcode (.inl (by rw [opcField_eq_shift, h0]; rfl))
      · exact decode_error_of_opcode (.inr (by rw [opcField_eq_shift]; exact h7))
      all_goals exact decode_error_of_reservedBit h (by decide) hb
    obtain ⟨e, he⟩ := herror
    exact ⟨_, step_of_decode_error hs he, s.refuseWord_sameBlock, by rw [State.refuseWord_stream, hs, List.tail_cons],
      rfl, rfl⟩
  · obtain ⟨t, r, hexec, hport⟩ := exec_completes i s
    exact ⟨t, hexec, hport.refusalMark⟩

/-! ## Register addresses above 575 (30_encoding.md R126) -/

theorem byteIndex_of_lt {addr : Nat} (h : addr < 576) : byteIndex addr = addr := by
  simp only [byteIndex, addrChan, addrOffset]
  omega

theorem addrOffset_byteIndex (addr : Nat) : addrOffset (byteIndex addr) = addrOffset addr := by
  simp only [byteIndex, addrOffset]
  omega

theorem addrChan_byteIndex (addr : Nat) : addrChan (byteIndex addr) = addrChan addr := by
  refine Fin.ext ?_
  simp only [byteIndex, addrChan, addrOffset]
  omega

theorem isFlags0_byteIndex (addr : Nat) : isFlags0 (byteIndex addr) = isFlags0 addr := by
  rw [isFlags0, addrOffset_byteIndex, isFlags0]

/-- WRITE reads its address by the addressed byte alone. -/
theorem writeRegister_byteIndex (addr : Nat) (b : Byte) (s : State) :
    writeRegister (byteIndex addr) b s = writeRegister addr b s := by
  simp only [writeRegister, isFlags0_byteIndex, addrChan_byteIndex, byteIndex_of_lt (byteIndex_lt addr)]

theorem readRegister_byteIndex (addr : Nat) (s : State) : readRegister (byteIndex addr) s = readRegister addr s := by
  simp only [readRegister, byteIndex_of_lt (byteIndex_lt addr)]

/-- Settles O11: an address and the byte it stands for are read alike. -/
theorem addressesAbove575Alias : Obligations.AddressesAbove575Alias := by
  unfold Obligations.AddressesAbove575Alias
  refine ⟨fun s addr data _ _ => ?_, by decide, by decide⟩
  have hbyte : addr / 64 % 9 * 64 + addr % 64 = byteIndex addr := rfl
  rw [hbyte]
  refine ⟨byteIndex_lt addr, ⟨_, exec_wr addr data s, ?_⟩, ⟨_, exec_rd addr s, ?_⟩⟩
  · rw [exec_wr, writeRegister_byteIndex]
  · rw [exec_rd, readRegister_byteIndex]

/-! ## The two WRITEs of `wrch16` (30_encoding.md R135, 20_memory.md R93) -/

theorem rbWrite16_read_low (rb : Memory) (h : Memory.wf rb = true) (a v : Nat) :
    (Memory.read (rbWrite16 rb a v) a).toNat = v % 256 := by
  rw [rbWrite16, Memory.read_write_other _ _ _ _ (by omega), Memory.read_write_same _ h, BitVec.toNat_ofNat]
  omega

theorem rbWrite16_read_high (rb : Memory) (h : Memory.wf rb = true) (a v : Nat) (hv : v < 65536) :
    (Memory.read (rbWrite16 rb a v) (a + 1)).toNat = v / 256 := by
  rw [rbWrite16, Memory.read_write_same _ (Memory.write_wf _ h _ _), BitVec.toNat_ofNat]
  omega

/-- The expansion of `wrch16` completes and stores its 16-bit value at the field. -/
theorem execAll_wrch16 (s : State) (c : ChanId) (j v : Nat) (hj : j < 31) :
    ∃ t, execAll (expand (.wrch16 c.val j v)) s = .next t ∧ t.rb = rbWrite16 s.rb (chByteIndex c j) v := by
  have hlow : byteIndex (channelAddr c.val j) = chByteIndex c j := byteIndex_of_lt (chByteIndex_lt c j (by omega))
  have hhigh : byteIndex (channelAddr c.val j + 1) = chByteIndex c j + 1 :=
    byteIndex_of_lt (chByteIndex_lt c (j + 1) (by omega))
  refine ⟨_, rfl, ?_⟩
  simp only [State.complete_rb, writeRegister_rb, hlow, hhigh, rbWrite16]

/-- Settles O13: the two WRITEs are one 16-bit store at the field. -/
theorem wideWriteSetsSixteenBitField : Obligations.WideWriteSetsSixteenBitField := by
  unfold Obligations.WideWriteSetsSixteenBitField
  intro s c j v hwf hj hv
  obtain ⟨t, hexec, hrb⟩ := execAll_wrch16 s c j v hj
  refine ⟨t, hexec, ?_⟩
  rw [hrb]
  exact ⟨rbWrite16_read_low _ hwf _ _, rbWrite16_read_high _ hwf _ _ hv, rbNat16_rbWrite16 _ hwf _ _ hv,
    rbWrite16_read_other _ _ _⟩

end Sys2Proof.Machine

/-! ## The commands on the block (40_host_commands.md R162 to R169) -/

namespace Sys2Proof.Machine

/-- A command that left the port alone on the block completes with its response. -/
theorem State.complete_port {s u : State} (hstream : u.stream = s.stream) (hmark : u.refusalMark = s.refusalMark)
    (r : Response) : PortAfter s (u.complete r) r :=
  ⟨by rw [State.complete_stream, hstream], State.complete_response u r, by rw [State.complete_refusalMark, hmark]⟩

/-! ### READ, SETMUTE and PCMWRITE -/

/-- Settles O12: READ is its response on the port, the block untouched. -/
theorem readReturnsStoredByte : Obligations.ReadReturnsStoredByte := by
  unfold Obligations.ReadReturnsStoredByte
  intro s addr _
  exact ⟨_, exec_rd addr s, s.complete_sameBlock _, State.complete_port rfl rfl _⟩

/-- Settles O14: SETMUTE changes the mute flags only (`setMute_eq`), below 9 the one flag, from 9 on none. -/
theorem setMuteChangesOneFlag : Obligations.SetMuteChangesOneFlag := by
  unfold Obligations.SetMuteChangesOneFlag
  intro s ch m _
  have hmute : ∀ c : ChanId, (setMute ch m s).mute[c] = if c.val = ch then m else s.mute[c] := by
    intro c
    by_cases hch : ch < 9
    · exact setMute_mute ch m s hch c.val c.isLt
    · rw [setMute_of_ge ch m s (by omega), if_neg (by omega)]
  obtain ⟨v, hv⟩ := setMute_eq ch m s
  refine ⟨_, exec_mute ch m s, State.complete_port (setMute_stream ch m s) (setMute_refusalMark ch m s) _,
    ?_, ?_, ?_, ?_, hmute, fun hge => by rw [setMute_of_ge ch m s hge, State.complete_mute]⟩
  all_goals
    rw [hv]
    rfl

/-- A byte below 256 reads back as the number written. -/
theorem read_write_toNat {m : Memory} (h : Memory.wf m = true) (a : Nat) {data : Nat} (hdata : data < 256) :
    (Memory.read (Memory.write m a (BitVec.ofNat 8 data)) a).toNat = data := by
  rw [Memory.read_write_same m h, BitVec.toNat_ofNat, Nat.mod_eq_of_lt hdata]

/-- Settles O15: PCMWRITE is one store write at the reduced address. -/
theorem pcmWriteStoresOneByte : Obligations.PcmWriteStoresOneByte := by
  unfold Obligations.PcmWriteStoresOneByte
  intro s paddr data hwf _ hdata
  have hstream := writePcm_stream params paddr (BitVec.ofNat 8 data) s
  have hmark := writePcm_refusalMark params paddr (BitVec.ofNat 8 data) s
  exact ⟨_, exec_pcmw paddr data s, State.complete_port hstream hmark _, read_write_toNat hwf _ hdata,
    fun a ha => Memory.read_write_other _ _ _ a ha, rfl, rfl, rfl, rfl⟩

/-! ### WRITE -/

/-- A channel changed in `EGS`, `KEYPEND` and `DLY` of its operators at most. -/
def KeyStateFrame (ch ch' : ChanState) : Prop :=
  ∃ ops, ch' = { ch with ops := ops } ∧ ∀ k : OpId, ∃ egs pend dly,
    ch'.op k = { ch.op k with egs := egs, keyPend := pend, dly := dly }

theorem KeyStateFrame.refl (ch : ChanState) : KeyStateFrame ch ch := ⟨_, rfl, fun _ => ⟨_, _, _, rfl⟩⟩

/-- An update of every operator that changes its key state at most. -/
theorem KeyStateFrame.mapOps {f : OpId → OpState → OpState} (ch : ChanState)
    (h : ∀ k o, ∃ egs pend dly, f k o = { o with egs := egs, keyPend := pend, dly := dly }) :
    KeyStateFrame ch (ch.mapOps f) :=
  ⟨_, rfl, fun k => by rw [ChanState.mapOps_op]; exact h k _⟩

/-- A gate edge in either direction, or none (42_envelope.md R231 to R233). -/
theorem gateEdge_keyStateFrame (rb : Memory) (c : ChanId) (old new : Bool) (ch : ChanState) :
    KeyStateFrame ch (gateEdge rb c old new ch) := by
  simp only [gateEdge]
  split
  · exact KeyStateFrame.mapOps ch fun _ _ => ⟨_, _, _, rfl⟩
  · split
    · exact KeyStateFrame.mapOps ch fun _ _ => ⟨_, _, _, rfl⟩
    · exact KeyStateFrame.refl ch

/-- A gate bit that stays as it is is no edge. -/
theorem gateEdge_of_eq (rb : Memory) (c : ChanId) {old new : Bool} (h : old = new) (ch : ChanState) :
    gateEdge rb c old new ch = ch := by
  subst h
  cases old <;> rfl

section WriteChannels
variable (addr : Nat) (b : Byte) (s : State) (c : ChanId)

/-- A channel after a WRITE: the gate edge of its own `FLAGS0` byte, or as it was. -/
theorem writeRegister_chan_cases :
    (isFlags0 addr = true ∧ c = addrChan addr ∧ (writeRegister addr b s).chan c =
      gateEdge (Memory.write s.rb (byteIndex addr) b) c (bit (rbNat s.rb (byteIndex addr)) 0) (bit b.toNat 0)
        (s.chan c)) ∨
    (writeRegister addr b s).chan c = s.chan c := by
  by_cases hf : isFlags0 addr = true
  · by_cases hc : c = addrChan addr
    · subst hc
      exact .inl ⟨hf, rfl, writeRegister_chan_flags0 addr b s hf⟩
    · exact .inr (writeRegister_chan_ne addr b s c (.inr hc))
  · exact .inr (writeRegister_chan_ne addr b s c (.inl (Bool.eq_false_of_not_eq_true hf)))

theorem writeRegister_keyStateFrame : KeyStateFrame (s.chan c) ((writeRegister addr b s).chan c) := by
  rcases writeRegister_chan_cases addr b s c with ⟨-, -, h⟩ | h
  · rw [h]; exact gateEdge_keyStateFrame _ c _ _ _
  · rw [h]; exact KeyStateFrame.refl _

/-- Without a gate edge in its own `FLAGS0` byte a channel stays as it was. -/
theorem writeRegister_chan_of_no_edge
    (h : addr % 64 ≠ 36 ∨ c.val ≠ addr / 64 % 9 ∨
      bit (rbNat s.rb (byteIndex addr)) 0 = bit b.toNat 0) :
    (writeRegister addr b s).chan c = s.chan c := by
  rcases writeRegister_chan_cases addr b s c with ⟨hf, rfl, hedge⟩ | hsame
  · have hoffset : addr % 64 = 36 := of_decide_eq_true hf
    rcases h with h | h | h
    · exact absurd hoffset h
    · exact absurd rfl h
    · rw [hedge, gateEdge_of_eq _ _ h]
  · exact hsame

end WriteChannels

/-- Bit 0 of a stored byte, as a number and as a bit vector. -/
theorem bit_rbNat_zero (rb : Memory) (a : Nat) : bit (rbNat rb a) 0 = (Memory.read rb a).getLsbD 0 := by
  rw [bit_eq_testBit, rbNat, BitVec.testBit_toNat]

/-- Bit 0 of the byte a WRITE stores. -/
theorem bit_ofNat_zero {data : Nat} (h : data < 256) : bit (BitVec.ofNat 8 data).toNat 0 = decide (data % 2 = 1) := by
  rw [BitVec.toNat_ofNat, Nat.mod_eq_of_lt h, bit, pow_zero, Nat.div_one]

/-- Settles O7: one store write at the addressed byte, and for the channels the frame and the edge condition of
`writeRegister`. -/
theorem writeStoresOneByte : Obligations.WriteStoresOneByte := by
  unfold Obligations.WriteStoresOneByte
  intro s addr data hwf _ hdata
  have hbyte : addr / 64 % 9 * 64 + addr % 64 = byteIndex addr := rfl
  rw [hbyte]
  refine ⟨_, exec_wr addr data s, ?_, fun a ha => ?_, writeRegister_pcm _ _ _, writeRegister_mute _ _ _,
    writeRegister_glob _ _ _, State.complete_port (writeRegister_stream _ _ _) (writeRegister_refusalMark _ _ _) _,
    fun c hc => ?_, writeRegister_keyStateFrame addr _ s⟩
  · rw [State.complete_rb, writeRegister_rb]
    exact read_write_toNat hwf _ hdata
  · rw [State.complete_rb, writeRegister_rb]
    exact Memory.read_write_other _ _ _ a ha
  · rw [← bit_rbNat_zero, ← bit_ofNat_zero hdata] at hc
    exact writeRegister_chan_of_no_edge addr _ s c hc

/-! ### A byte through a sequence of commands (40_host_commands.md R166) -/

/-- A command that leaves a register byte keeps what it reads. -/
theorem exec_read_of_leavesByte {i : Instr} {a : Nat} (hi : leavesByte a i) {s t : State} (h : exec i s = .next t) :
    Memory.read t.rb a = Memory.read s.rb a := by
  cases i with
  | wr addr data =>
    cases (exec_wr addr data s).symm.trans h
    rw [State.complete_rb, writeRegister_rb]
    exact Memory.read_write_other _ _ _ a (Ne.symm hi)
  | rd addr => cases h; rfl
  | adv =>
    cases (exec_adv s).symm.trans h
    rw [advanceCommand_rb]
    exact (advance_frame params s).read a hi
  | rst => exact hi.elim
  | mute ch m =>
    cases (exec_mute ch m s).symm.trans h
    obtain ⟨v, hv⟩ := setMute_eq ch m s
    rw [State.complete_rb, hv]
  | pcmw paddr data => cases h; rfl

theorem execAll_cons {i : Instr} {s t : State} (h : exec i s = .next t) (is : List Instr) :
    execAll (i :: is) s = execAll is t := by
  rw [execAll, h]

/-- Commands that leave a byte run through, whatever follows them, and the byte reads as before. -/
theorem execAll_append_of_leavesByte {a : Nat} (is js : List Instr) (h : ∀ i ∈ is, leavesByte a i) (s : State) :
    ∃ t, execAll (is ++ js) s = execAll js t ∧ Memory.read t.rb a = Memory.read s.rb a := by
  induction is generalizing s with
  | nil => exact ⟨s, rfl, rfl⟩
  | cons i is ih =>
    obtain ⟨hi, his⟩ := List.forall_mem_cons.1 h
    obtain ⟨u, _, hexec, _⟩ := exec_completes i s
    obtain ⟨t, hrun, hread⟩ := ih his u
    exact ⟨t, (execAll_cons hexec _).trans hrun, hread.trans (exec_read_of_leavesByte hi hexec)⟩

/-- Settles O10: the WRITE stores the byte, the commands between leave it, and the READ returns it. -/
theorem writeThenReadReturnsByte : Obligations.WriteThenReadReturnsByte := by
  unfold Obligations.WriteThenReadReturnsByte
  intro s addr data between hwf _ _ hbetween
  obtain ⟨t, hrun, hread⟩ := execAll_append_of_leavesByte between [.rd addr] hbetween
    ((writeRegister addr (BitVec.ofNat 8 data) s).complete .nothing)
  rw [State.complete_rb, writeRegister_rb, Memory.read_write_same _ hwf] at hread
  refine ⟨_, (execAll_cons (exec_wr addr data s) _).trans (hrun.trans (execAll_cons (exec_rd addr t) [])), ?_⟩
  rw [State.complete_response, readRegister, hread]

end Sys2Proof.Machine

/-! ## The silence of a channel with no register written (47_mixer.md R423) -/

namespace Sys2Proof.Machine

/-! ### Stages that a cleared field switches off -/

section SwitchedOff
variable (P : Params) (rb pcm : Memory) (g : Globals) (c : ChanId) (s : State)

/-- Operators at `OUT` 0 add nothing to the channel's sum (44_modulation.md R316). -/
theorem voice_sum_of_out_zero (h : ∀ k, fOut rb c k = 0) (ch : ChanState) : (voice P rb pcm g c ch).2 = 0 := by
  have hsum : ∀ (acc : ChanState × Int) (k : OpId),
      (evalOperator P rb pcm g c (snapshot ch) acc k).2 = acc.2 := fun acc k => by
    simp only [evalOperator, h k, outContribution, lt_irrefl, if_false, Int.add_zero]
  simp only [voice, operators, List.foldl, hsum]

/-- The source of a channel in voice mode is its voice (46_channel.md R361). -/
theorem channelSource_of_voice (h : fPcm s.rb c = false) :
    channelSource P c s = (s.setChan c (voice P s.rb s.pcm s.glob c (s.chan c)).1,
      (voice P s.rb s.pcm s.glob c (s.chan c)).2) := by
  simp only [channelSource, h, Bool.false_eq_true, if_false]

/-- A disabled sweep engine does nothing (46_channel.md R373). -/
theorem sweep_of_disabled {e : Sweep} (h : fSweepEn s.rb c e = false) : sweep c s e = s := by
  simp only [sweep, h, Bool.false_eq_true, if_false]

theorem sweeps_of_disabled (h : ∀ e, fSweepEn s.rb c e = false) : sweeps c s = s := by
  simp only [sweeps, List.foldl, sweep_of_disabled c s (h _)]

/-- Only a one-shot request writes the register bank (46_channel.md R381). -/
theorem phaseResets_rb_of_not_requested (h : fPhReset s.rb c = false) : (phaseResets P c s).rb = s.rb := by
  simp only [phaseResets, h, Bool.false_eq_true, if_false, State.setRb_rb]

/-- With voice mode, the sweeps off and no reset requested a channel step writes no register byte. -/
theorem channelStep_rb_of_engines_off (hpcm : fPcm s.rb c = false) (hsweep : ∀ e, fSweepEn s.rb c e = false)
    (hreset : fPhReset s.rb c = false) : (channelStep P c s).1.rb = s.rb := by
  have hrb : ∀ raw, (channelOutput P c (channelSource P c s).1 raw).1.rb = s.rb := fun raw => by
    rw [channelOutput_rb, channelSource_of_voice P c s hpcm, State.setChan_rb]
  rw [channelStep, sweeps_of_disabled c _ (by rwa [hrb]), phaseResets_rb_of_not_requested P c _ (by rwa [hrb]), hrb]

/-- A raw sample of 0 through a channel with the ring and the filter off contributes 0, muted or not. -/
theorem channelOutput_zero (hring : fCring s.rb c = false) (hlp : fFlp s.rb c = false) (hhp : fFhp s.rb c = false)
    (hbp : fFbp s.rb c = false) : (channelOutput P c s 0).2 = { raw := 0, left := 0, right := 0 } := by
  have hasr : ∀ (x : Int) (n : Nat), asr (0 * x) n = 0 := fun x n => by rw [Int.zero_mul, asr, Int.zero_ediv]
  have hvolume : ∀ vol, applyVolume vol 0 = 0 := fun vol => by rw [applyVolume, Int.zero_mul, Int.zero_tdiv]
  simp only [channelOutput, channelRing, hring, Bool.false_eq_true, if_false, hvolume, filterStage, hlp, hhp, hbp,
    Bool.not_false, Bool.and_self, if_true, mutePan]
  split
  · rfl
  · simp only [hasr]

end SwitchedOff

/-! ### A register bank of zeros -/

theorem bits_zero (hi lo : Nat) : bits 0 hi lo = 0 := by rw [bits, Nat.zero_div, Nat.zero_mod]

theorem bit_zero (i : Nat) : bit 0 i = false := by rw [bit_eq_testBit, Nat.zero_testBit]

theorem fOut_nil (c : ChanId) (k : OpId) : fOut [] c k = 0 := bits_zero 2 0

theorem flags0_bit_nil (c : ChanId) (i : Nat) : bit (fFlags0 [] c) i = false := bit_zero i

theorem flags1_bit_nil (c : ChanId) (i : Nat) : bit (fFlags1 [] c) i = false := bit_zero i

section EmptyBank
variable (P : Params) {s : State}

/-- A channel step on a bank of zeros is silent, whatever the transient state. -/
theorem channelStep_of_empty_bank (c : ChanId) (h : s.rb = []) :
    (channelStep P c s).1.rb = [] ∧ (channelStep P c s).2 = { raw := 0, left := 0, right := 0 } := by
  have hflags0 : ∀ i, bit (fFlags0 s.rb c) i = false := by rw [h]; exact flags0_bit_nil c
  have hflags1 : ∀ i, bit (fFlags1 s.rb c) i = false := by rw [h]; exact flags1_bit_nil c
  have hsweep : ∀ e, fSweepEn s.rb c e = false := fun e => by cases e <;> exact hflags1 _
  refine ⟨(channelStep_rb_of_engines_off P c s (hflags0 1) hsweep (hflags1 0)).trans h, ?_⟩
  have hsource := channelSource_of_voice P c s (hflags0 1)
  have hraw : (channelSource P c s).2 = 0 := by
    rw [hsource]
    exact voice_sum_of_out_zero P _ _ _ c (fun k => by rw [h]; exact fOut_nil c k) _
  have hrb : (channelSource P c s).1.rb = s.rb := by rw [hsource, State.setChan_rb]
  rw [← hrb] at hflags0
  rw [channelStep, hraw]
  exact channelOutput_zero P c _ (hflags0 2) (hflags0 3) (hflags0 4) (hflags0 5)

theorem runChannels_of_empty_bank (cs : List ChanId) (h : s.rb = []) :
    (runChannels P cs s).1.rb = [] ∧
      (runChannels P cs s).2 = cs.map fun c => (c, { raw := 0, left := 0, right := 0 }) := by
  induction cs generalizing s with
  | nil => exact ⟨h, rfl⟩
  | cons c cs ih =>
    obtain ⟨hrb, hout⟩ := channelStep_of_empty_bank P c h
    obtain ⟨hrb', houts⟩ := ih hrb
    exact ⟨hrb', by simp only [runChannels, hout, houts, List.map_cons]⟩

/-- After an ADVANCE on a bank of zeros every committed raw sample is 0 (46_channel.md R365). -/
theorem advance_prevRaw_of_empty_bank (h : s.rb = []) (c : ChanId) : ((advance P s).1.chan c).prevRaw = 0 := by
  have hc : c ∈ channels := by fin_cases c <;> decide
  obtain ⟨-, houts⟩ := runChannels_of_empty_bank P channels (s := s.beforeChannels P) h
  have hmem : (c, { raw := 0, left := 0, right := 0 }) ∈ (runChannels P channels (s.beforeChannels P)).2 := by
    rw [houts]
    exact List.mem_map_of_mem hc
  have hnodup : ((runChannels P channels (s.beforeChannels P)).2.map fun e => e.1).Nodup := by
    rw [runChannels_fst]
    decide
  rw [advance_chan]
  exact congrArg ChanState.prevRaw (commitRaws_prevRaw _ hnodup _ c _ hmem)

/-! ### The mixer at rest -/

/-- The DC blocker at 0 with no input stays at 0 (47_mixer.md R421). -/
theorem dcOutput_zero : dcOutput P 0 0 0 = 0 := by
  have hzero : (0 : BitVec 64).toInt = 0 := rfl
  rw [dcOutput, hzero, Int.mul_zero, asr, Int.zero_ediv]
  rfl

theorem dcStored_zero : dcStored P 0 0 0 = 0 := by
  rw [dcStored, dcOutput_zero]
  rfl

/-- The DC blocker's terms are 0 on both sides. -/
structure MixerAtRest (g : Globals) : Prop where
  hx1l : g.hx1l = 0
  hy1l : g.hy1l = 0
  hx1r : g.hx1r = 0
  hy1r : g.hy1r = 0

/-- The steps at the start of an ADVANCE leave the DC blocker alone. -/
theorem MixerAtRest.advanceGlobals {g : Globals} (h : MixerAtRest g) : MixerAtRest (advanceGlobals P g) :=
  ⟨h.hx1l, h.hy1l, h.hx1r, h.hy1r⟩

/-- Nine silent channels through a mixer at rest (47_mixer.md R423). -/
theorem mix_silence {g : Globals} (h : MixerAtRest g) :
    MixerAtRest (mix P (channels.map fun _ => 0) (channels.map fun _ => 0) g).1 ∧
      (mix P (channels.map fun _ => 0) (channels.map fun _ => 0) g).2 = (0, 0) := by
  have hsum : mixSum (channels.map fun _ => 0) = 0 := rfl
  have hsat : sat32 0 = 0 := rfl
  simp only [mix, hsum, h.hx1l, h.hy1l, h.hx1r, h.hy1r, dcStored_zero, dcOutput_zero, hsat, and_true]
  exact ⟨rfl, rfl, rfl, rfl⟩

/-- An ADVANCE on a bank of zeros with the mixer at rest leaves it at rest and returns (0, 0). -/
theorem advance_silence (h : s.rb = []) (hrest : MixerAtRest s.glob) :
    MixerAtRest (advance P s).1.glob ∧ (advance P s).2 = (0, 0) := by
  obtain ⟨-, houts⟩ := runChannels_of_empty_bank P channels (s := s.beforeChannels P) h
  obtain ⟨hglob, hpair⟩ := Prod.mk.inj (advance_mix P s)
  rw [houts, List.map_map, List.map_map] at hglob hpair
  rw [hglob, hpair]
  exact mix_silence P (hrest.advanceGlobals P)

/-- The whole of such an ADVANCE as a command: the bank stays zeros and every committed raw sample is 0. -/
theorem advanceCommand_silence (h : s.rb = []) (hrest : MixerAtRest s.glob) :
    (advanceCommand P s).response = .stereo 0 0 ∧ (advanceCommand P s).rb = [] ∧
      (∀ c, ((advanceCommand P s).chan c).prevRaw = 0) ∧ MixerAtRest (advanceCommand P s).glob := by
  obtain ⟨hglob, hpair⟩ := advance_silence P h hrest
  refine ⟨?_, ?_, fun c => ?_, ?_⟩
  · rw [advanceCommand_eq, State.complete_response, hpair]
    rfl
  · rw [advanceCommand_rb, advance_rb]
    exact (runChannels_of_empty_bank P channels (s := s.beforeChannels P) h).1
  · rw [advanceCommand_chan]
    exact advance_prevRaw_of_empty_bank P h c
  · rw [advanceCommand_glob]
    exact hglob

end EmptyBank

/-- Settles O18: the reset state has a register bank of zeros and its mixer at rest. -/
theorem advanceFromResetIsSilent : Obligations.AdvanceFromResetIsSilent := by
  unfold Obligations.AdvanceFromResetIsSilent
  have hrest : MixerAtRest State.reset.glob := ⟨rfl, rfl, rfl, rfl⟩
  obtain ⟨hresponse, hrb, hraw, hmixer⟩ := advanceCommand_silence params (s := State.reset) rfl hrest
  exact ⟨_, exec_adv State.reset, hresponse, hrb, hraw, hmixer.hx1l, hmixer.hy1l, hmixer.hx1r, hmixer.hy1r⟩

end Sys2Proof.Machine

/-! ## The phase step and its vibrato (41_phase.md R200 to R206, R210) -/

namespace Sys2Proof.Machine

/-- `wrapN(v)` as an integer is the remainder itself. -/
theorem wrapTo_cast (n : Nat) (v : Int) : (wrapTo n v : Int) = v % 2 ^ n :=
  Int.toNat_of_nonneg (Int.emod_nonneg v (by positivity))

theorem fixMul_le {m : Nat} (h : m < 16) : fixMul m ≤ 247 := by
  simp only [fixMul]
  omega

/-- `FIXMUL` is the nearest integer, strictly: the doubled remainder is odd. -/
theorem fixMul_nearest (m : Nat) : 2 * m * 247 < (2 * fixMul m + 1) * 15 ∧ 2 * fixMul m * 15 < 2 * m * 247 + 15 := by
  simp only [fixMul]
  omega

/-- The fixed-mode frequency lies between its ends at `MUL` 0, `DT` 0 and at `MUL` 15, `DT` 7. -/
theorem fixedFreq_range {m dt : Nat} (hm : m < 16) (hdt : dt < 8) : 8 ≤ fixedFreq m dt ∧ fixedFreq m dt ≤ 32640 := by
  have hmul := fixMul_le hm
  have hlow : 1 ≤ 2 ^ dt := Nat.one_le_two_pow
  have hhigh : 2 ^ dt ≤ 2 ^ 7 := Nat.pow_le_pow_right (by decide) (by omega)
  constructor
  · calc 8 = 8 * 1 := rfl
      _ ≤ (8 + fixMul m) * 2 ^ dt := Nat.mul_le_mul (by omega) hlow
  · calc (8 + fixMul m) * 2 ^ dt ≤ 255 * 2 ^ 7 := Nat.mul_le_mul (by omega) hhigh
      _ = 32640 := rfl

section Step
variable (P : Params) (rb : Memory) (g : Globals) (c : ChanId) (k : OpId)

theorem phaseStep_of_ratio (h : fFix rb c k = false) :
    ((phaseStep P rb g c k).toNat : Int) = ratioStep P rb g c k % 2 ^ 32 := by
  rw [phaseStep, h, BitVec.toNat_ofNat, Nat.mod_eq_of_lt (wrapTo_lt 32 _), wrapTo_cast]
  rfl

theorem phaseStep_of_fixed (h : fFix rb c k = true) :
    ((phaseStep P rb g c k).toNat : Int) = fixedModeStep P rb g c k % 2 ^ 32 := by
  rw [phaseStep, h, BitVec.toNat_ofNat, Nat.mod_eq_of_lt (wrapTo_lt 32 _), wrapTo_cast]
  rfl

theorem vibrato_of_pm_clear (h : fPm rb c k = false) (s : Int) : vibrato rb g c k s = 0 := by
  simp only [vibrato, h, Bool.false_eq_true, if_false]

theorem vibrato_of_pm_set (h : fPm rb c k = true) (s : Int) : vibrato rb g c k s = s * pmFactor rb g c k / 2 ^ 17 := by
  simp only [vibrato, h, if_true, asr]

/-- The vibrato factor is bounded as `PMVAL` is, at full and at half depth (45_lfo.md R342, R343). -/
theorem pmFactor_range {g : Globals} (hlow : -128 ≤ g.pmVal) (hhigh : g.pmVal ≤ 128) :
    -128 ≤ pmFactor rb g c k ∧ pmFactor rb g c k ≤ 128 := by
  simp only [pmFactor, asr]
  split <;> omega

end Step

/-- `floor(s × p / 2^17)` for a factor of magnitude 128 at most is `s / 1024` in magnitude, up to the rounding, and takes
no more than `s` away. -/
theorem vibratoTerm_range {s p : Int} (hs : 0 ≤ s) (hlow : -128 ≤ p) (hhigh : p ≤ 128) :
    |s * p / 2 ^ 17| ≤ s / 1024 + 1 ∧ 0 ≤ s + s * p / 2 ^ 17 := by
  have hmin : s * -128 ≤ s * p := Int.mul_le_mul_of_nonneg_left hlow hs
  have hmax : s * p ≤ s * 128 := Int.mul_le_mul_of_nonneg_left hhigh hs
  rw [abs_le]
  generalize s * p = x at hmin hmax
  omega

/-- Settles O28: the vibrato is 0, or the floor of the step times a factor of magnitude 128 at most. -/
theorem vibratoStaysWithinBound : Obligations.VibratoStaysWithinBound := by
  unfold Obligations.VibratoStaysWithinBound
  intro rb g c k s hlow hhigh hs
  refine ⟨fun hpm => vibrato_of_pm_clear rb g c k hpm s, fun hpm => vibrato_of_pm_set rb g c k hpm s, ?_⟩
  cases hpm : fPm rb c k with
  | false =>
    rw [vibrato_of_pm_clear rb g c k hpm, abs_zero]
    omega
  | true =>
    obtain ⟨hfactorLow, hfactorHigh⟩ := pmFactor_range rb c k hlow hhigh
    rw [vibrato_of_pm_set rb g c k hpm]
    exact vibratoTerm_range hs hfactorLow hfactorHigh

/-- Settles O27: dividing `f × 16000 + 1` by 3 rounds a remainder of 2 up and a remainder of 1 down. -/
theorem baseStepRoundsToNearest : Obligations.BaseStepRoundsToNearest := by
  unfold Obligations.BaseStepRoundsToNearest
  refine ⟨fun f => ?_, rfl, rfl, rfl⟩
  simp only [baseStep]
  omega

/-- Settles O26: the step is the ratio or the fixed one by `FIX`, and `FFIX` is built on the nearest integer. -/
theorem phaseStepFormula : Obligations.PhaseStepFormula := by
  unfold Obligations.PhaseStepFormula
  refine ⟨fun rb g c k hfix => phaseStep_of_ratio params rb g c k hfix,
    fun rb g c k hfix => phaseStep_of_fixed params rb g c k hfix, fun m hm dt hdt => ?_⟩
  obtain ⟨habove, hbelow⟩ := fixMul_nearest m
  exact ⟨fixMul m, rfl, habove, hbelow, fixedFreq_range hm hdt⟩

end Sys2Proof.Machine

/-! ## One operator of a voice through an ADVANCE with no phase reset (41_phase.md R207) -/

namespace Sys2Proof.Machine

/-! ### The bytes the sweeps write -/

/-- The channel register offsets a sweep may write: `FREQ`, `VOL`, `CUTOFF` and the three `AMT` bytes (46_channel.md R376,
R379). -/
def sweepOwned : List Nat := [0x00, 0x01, 0x02, 0x06, 0x07, 0x12, 0x16, 0x1A]

section SweepReads
variable (c : ChanId) {a : Nat}

theorem storeTarget_read_other (e : Sweep) (t : Int) (rb : Memory) (ha : ∀ j ∈ sweepOwned, a ≠ chByteIndex c j) :
    Memory.read (storeTarget e c t rb) a = Memory.read rb a := by
  cases e with
  | freq => exact rbWrite16_read_other _ _ _ _ (ha 0x00 (by decide)) (ha 0x01 (by decide))
  | vol => exact Memory.read_write_other _ _ _ _ (ha 0x02 (by decide))
  | cut => exact rbWrite16_read_other _ _ _ _ (ha 0x06 (by decide)) (ha 0x07 (by decide))

theorem sweepFire_read_other (e : Sweep) (rb : Memory) (ha : ∀ j ∈ sweepOwned, a ≠ chByteIndex c j) :
    Memory.read (sweepFire e c rb) a = Memory.read rb a := by
  have htarget := fun t => storeTarget_read_other c e t rb ha
  simp only [sweepFire]
  split
  · split
    · rw [Memory.read_write_other _ _ _ _ (ha _ (by cases e <;> decide)), htarget]
    · exact htarget _
  · split <;> exact htarget _

theorem sweep_read_other (s : State) (e : Sweep) (ha : ∀ j ∈ sweepOwned, a ≠ chByteIndex c j) :
    Memory.read (sweep c s e).rb a = Memory.read s.rb a := by
  simp only [sweep]
  split
  · split
    · exact sweepFire_read_other c e s.rb ha
    · rfl
  · rfl

theorem sweeps_read_other (s : State) (ha : ∀ j ∈ sweepOwned, a ≠ chByteIndex c j) :
    Memory.read (sweeps c s).rb a = Memory.read s.rb a := by
  simp only [sweeps, List.foldl, sweep_read_other c _ _ ha]

theorem sweeps_chByte (s : State) {j : Nat} (hj : j < 32) (h : j ∉ sweepOwned) :
    chByte (sweeps c s).rb c j = chByte s.rb c j := by
  have hlt : ∀ i ∈ sweepOwned, i < 32 := by decide
  refine congrArg BitVec.toNat (sweeps_read_other c s fun i hi heq => h ?_)
  obtain ⟨-, rfl⟩ := (chByteIndex_inj c c j i hj (hlt i hi)).1 heq
  exact hi

end SweepReads

/-! ### The reset countdown up to the phase resets -/

section ResetCountdown
variable (P : Params) (c : ChanId) (s : State)

theorem recordValue_rstCnt (k : OpId) (o : OpState) (v : Int) (ch : ChanState) :
    (recordValue k o v ch).rstCnt = ch.rstCnt := by
  obtain ⟨-, -, -, -, -, -, hrstCnt, -, -⟩ := recordValue_rest k o v ch
  exact hrstCnt

theorem voice_rstCnt (rb pcm : Memory) (g : Globals) (ch : ChanState) :
    (voice P rb pcm g c ch).1.rstCnt = ch.rstCnt := by
  have hstep : ∀ (acc : ChanState × Int) (k : OpId),
      (evalOperator P rb pcm g c (snapshot ch) acc k).1.rstCnt = acc.1.rstCnt :=
    fun acc k => recordValue_rstCnt k _ _ acc.1
  simp only [voice, operators, List.foldl, hstep]

theorem channelOutput_rstCnt (raw : Int) : ((channelOutput P c s raw).1.chan c).rstCnt = (s.chan c).rstCnt := by
  simp only [channelOutput, State.setChan_chan_same, mutePan, filterStage]
  split <;> split <;> rfl

theorem sweep_rstCnt (e : Sweep) : ((sweep c s e).chan c).rstCnt = (s.chan c).rstCnt := by
  simp only [sweep]
  split
  · split <;> simp only [State.setRb_chan, State.setChan_chan_same, setSweepTimer_rstCnt]
  · rfl

theorem sweeps_rstCnt : ((sweeps c s).chan c).rstCnt = (s.chan c).rstCnt := by
  simp only [sweeps, List.foldl, sweep_rstCnt]

end ResetCountdown

/-- Whether a phase reset fires is read from `FLAGS1`, `RESTIMER` and `RSTCNT` alone (46_channel.md R381, R382). -/
theorem NoPhaseReset.congr {s t : State} {c : ChanId} (h : NoPhaseReset s c)
    (hflags1 : fFlags1 t.rb c = fFlags1 s.rb c) (htimer : fResTimer t.rb c = fResTimer s.rb c)
    (hcnt : (t.chan c).rstCnt = (s.chan c).rstCnt) : NoPhaseReset t c := by
  simp only [NoPhaseReset, fPhReset, fTimerSync, hflags1, htimer, hcnt] at h ⊢
  exact h

section QuietStages
variable {s : State} {c : ChanId} (P : Params)

theorem NoPhaseReset.channelSource (h : NoPhaseReset s c) (hpcm : fPcm s.rb c = false) :
    NoPhaseReset (channelSource P c s).1 c := by
  rw [channelSource_of_voice P c s hpcm]
  exact h.congr rfl rfl (by rw [State.setChan_chan_same, voice_rstCnt])

theorem NoPhaseReset.channelOutput (h : NoPhaseReset s c) (raw : Int) : NoPhaseReset (channelOutput P c s raw).1 c :=
  h.congr rfl rfl (channelOutput_rstCnt P c s raw)

/-- The sweeps write neither `FLAGS1` nor either byte of `RESTIMER`. -/
theorem NoPhaseReset.sweeps (h : NoPhaseReset s c) : NoPhaseReset (sweeps c s) c :=
  h.congr (sweeps_chByte c s (by decide) (by decide))
    (congrArg₂ (fun low high => low + 256 * high) (sweeps_chByte c s (j := 0x1C) (by decide) (by decide))
      (sweeps_chByte c s (j := 0x1D) (by decide) (by decide)))
    (sweeps_rstCnt c s)

end QuietStages

/-! ### One operator through a whole ADVANCE -/

theorem snapshot_wraps (ch : ChanState) (k : OpId) : (snapshot ch).wraps[k] = (ch.op k).wrap := by
  fin_cases k <;> rfl

/-- Banks that read alike on a channel's bytes agree on those bits of them that have an effect. -/
theorem ChanBytes.usedBitsAgree {c : ChanId} {rb rb' : Memory} (h : ChanBytes c rb rb') : UsedBitsAgree c rb rb' :=
  fun a ha => by rw [h a ha]

section QuietOperator
variable (P : Params) (s : State) (c : ChanId) (k : OpId)

/-- With no phase reset firing, a voice-mode channel step leaves each operator as `voice` does. -/
theorem channelStep_op_of_quiet (hpcm : fPcm s.rb c = false) (hquiet : NoPhaseReset s c) :
    ((channelStep P c s).1.chan c).op k = (voice P s.rb s.pcm s.glob c (s.chan c)).1.op k := by
  have hlate := ((hquiet.channelSource P hpcm).channelOutput P (channelSource P c s).2).sweeps
  rw [channelStep, phaseResets_op_of_quiet P c _ k hlate, sweeps_op, channelOutput_op, channelSource_of_voice P c s hpcm,
    State.setChan_chan_same]

/-- With no phase reset firing, an ADVANCE evaluates each operator of a channel in voice mode once: step A, then the
envelope, both on the registers as they stand and the LFO and `ENVCNT` stepped (44_modulation.md R310). -/
theorem advance_op_of_quiet (hpcm : fPcm s.rb c = false) (hquiet : NoPhaseReset s c) :
    ∃ v, ((advance P s).1.chan c).op k =
      { envEval P s.rb (advanceGlobals P s.glob) c k
          (moveOperator P s.rb (advanceGlobals P s.glob) c (snapshot (s.chan c)) k ((s.chan c).op k)).op with
        val := v, prevOut := v } := by
  obtain ⟨u, hu, hchan, -⟩ := advance_channel P s c
  have hused := hu.bytes.usedBitsAgree
  have hcounters : CountersAgree u.glob u.glob := ⟨rfl, rfl, rfl⟩
  have hquiet' : NoPhaseReset u c :=
    hquiet.congr (hu.bytes.chByte _ (by decide)) (hu.bytes.chWord _ (by decide)) (by rw [hu.chan])
  obtain ⟨v, hv⟩ := voice_op P u.rb u.pcm u.glob c (u.chan c) k
  refine ⟨v, ?_⟩
  rw [hchan, ← hu.chan, ← hu.glob, ← envEval_congr hused hcounters, ← moveOperator_congr hused hcounters, ← hv]
  exact channelStep_op_of_quiet P u c k (hused.fPcm.trans hpcm) hquiet'

/-- Where hard sync does not fire, step A steps the accumulator and clocks the noise (44_modulation.md R315). -/
theorem moveOperator_of_unsynced (g : Globals) (o : OpState) (h : syncFires s c k = false) :
    moveOperator P s.rb g c (snapshot (s.chan c)) k o = stepMove P s.rb g c k o := by
  rw [syncFires] at h
  rw [moveOperator, snapshot_wraps, h]
  rfl

end QuietOperator

/-- Settles O25: the operator is evaluated once, without hard sync, and neither the envelope nor a later stage touches its
accumulator. -/
theorem phaseAdvancesByStep : Obligations.PhaseAdvancesByStep := by
  unfold Obligations.PhaseAdvancesByStep
  intro s c k hpcm hquiet hsync
  obtain ⟨v, hop⟩ := advance_op_of_quiet params s c k hpcm hquiet
  rw [moveOperator_of_unsynced params s c k _ _ hsync] at hop
  obtain ⟨hphase, hwrap, -⟩ := envEval_phase params s.rb (advanceGlobals params s.glob) c k
    (stepMove params s.rb (advanceGlobals params s.glob) c k ((s.chan c).op k)).op
  refine ⟨_, exec_adv s, ?_, ?_⟩
  · rw [advanceCommand_chan, hop]
    exact (congrArg BitVec.toNat hphase).trans (BitVec.toNat_add _ _)
  · rw [advanceCommand_chan, hop]
    exact hwrap

end Sys2Proof.Machine

/-! ## Gate edges of a WRITE (42_envelope.md R231 to R233) -/

namespace Sys2Proof.Machine

theorem gateEdge_rising (rb : Memory) (c : ChanId) (ch : ChanState) :
    gateEdge rb c false true ch = ch.mapOps (keyOn rb c) := rfl

theorem gateEdge_falling (rb : Memory) (c : ChanId) (ch : ChanState) :
    gateEdge rb c true false ch = ch.mapOps fun _ => keyOff := rfl

/-- The delay field is the top three bits of operator register 4 (10_state.md R33). -/
theorem fDelay_eq (rb : Memory) (c : ChanId) (k : OpId) :
    fDelay rb c k = (Memory.read rb (c.val * 64 + k.val * 8 + 4)).toNat / 32 := by
  have hbyte : opByte rb c k 4 < 256 := rbNat_lt rb _
  have hbits : fDelay rb c k = opByte rb c k 4 / 32 % 8 := rfl
  rw [hbits, Nat.mod_eq_of_lt (by omega)]
  rfl

theorem fDelay_le (rb : Memory) (c : ChanId) (k : OpId) : fDelay rb c k ≤ 7 := Nat.le_of_lt_succ (bits_lt _ 7 5)

/-- The onset delay of any `DELAY` field fits `DLY`. -/
theorem keyOn_dly_toNat (rb : Memory) (c : ChanId) (k : OpId) (o : OpState) :
    (keyOn rb c k o).dly.toNat = if 0 < fDelay rb c k then 256 * 2 ^ fDelay rb c k else 0 := by
  have hpow : 2 ^ fDelay rb c k ≤ 2 ^ 7 := Nat.pow_le_pow_right (by decide) (fDelay_le rb c k)
  simp only [keyOn]
  split
  · rw [BitVec.toNat_ofNat, Nat.mod_eq_of_lt (by omega)]
  · rfl

section GateWrite
variable {s : State} {addr data : Nat} {c : ChanId}

theorem byteIndex_flags0 (hoffset : addr % 64 = 36) (hc : c.val = addr / 64 % 9) : byteIndex addr = c.val * 64 + 36 := by
  rw [hc, ← hoffset]
  rfl

/-- A WRITE of a channel's `FLAGS0` byte gives it the gate edge from the stored bit 0 to the written one. -/
theorem writeRegister_chan_gateEdge (hoffset : addr % 64 = 36) (hc : c.val = addr / 64 % 9) (hdata : data < 256) :
    (writeRegister addr (BitVec.ofNat 8 data) s).chan c =
      gateEdge (Memory.write s.rb (c.val * 64 + 36) (BitVec.ofNat 8 data)) c
        ((Memory.read s.rb (c.val * 64 + 36)).getLsbD 0) (decide (data % 2 = 1)) (s.chan c) := by
  have hchan : addrChan addr = c := Fin.ext hc.symm
  have hedge := writeRegister_chan_flags0 addr (BitVec.ofNat 8 data) s (decide_eq_true hoffset)
  rwa [hchan, byteIndex_flags0 hoffset hc, bit_rbNat_zero, bit_ofNat_zero hdata] at hedge

end GateWrite

/-- Settles O8: the WRITE is a rising edge, which keys every operator on, and the stored `FLAGS0` byte holds no `DELAY`
field. -/
theorem keyOnLatchesAttack : Obligations.KeyOnLatchesAttack := by
  unfold Obligations.KeyOnLatchesAttack
  intro s addr data c _ _ hdata hoffset hc hold hnew
  have hedge := writeRegister_chan_gateEdge (s := s) hoffset hc hdata
  rw [hold, decide_eq_true hnew, gateEdge_rising] at hedge
  refine ⟨_, exec_wr addr data s, fun k => ?_⟩
  rw [State.complete_chan, hedge, ChanState.mapOps_op]
  have hread : Memory.read (Memory.write s.rb (c.val * 64 + 36) (BitVec.ofNat 8 data)) (c.val * 64 + k.val * 8 + 4) =
      Memory.read s.rb (c.val * 64 + k.val * 8 + 4) := Memory.read_write_other _ _ _ _ (by omega)
  exact ⟨rfl, by rw [keyOn_dly_toNat, fDelay_eq, hread], rfl, rfl⟩

/-- Settles O9: the WRITE is a falling edge, which keys every operator off. -/
theorem keyOffReleasesAtOnce : Obligations.KeyOffReleasesAtOnce := by
  unfold Obligations.KeyOffReleasesAtOnce
  intro s addr data c _ _ hdata hoffset hc hold hnew
  have hedge := writeRegister_chan_gateEdge (s := s) hoffset hc hdata
  rw [hold, decide_eq_false (by omega : ¬ data % 2 = 1), gateEdge_falling] at hedge
  refine ⟨_, exec_wr addr data s, fun k => ?_⟩
  rw [State.complete_chan, hedge, ChanState.mapOps_op]
  exact ⟨rfl, rfl, rfl, rfl⟩

end Sys2Proof.Machine

/-! ## The envelope evaluation, field by field (42_envelope.md R234 to R242) -/

namespace Sys2Proof.Machine

/-! ### The pending key-on -/

/-- The envelope state an evaluation runs in: ATTACK where a latched key-on has no delay left (42_envelope.md R234). -/
def evaluatedState (o : OpState) : EnvState := if o.keyPend = true ∧ o.dly = 0 then .attack else o.egs

section Pending
variable (o : OpState)

/-- The three cases of step 1: served, waiting, nothing latched. -/
theorem envPending_cases :
    (o.keyPend = true ∧ o.dly = 0 ∧ envPending o = { o with egs := .attack, keyPend := false }) ∨
    (o.keyPend = true ∧ o.dly ≠ 0 ∧ envPending o = { o with dly := o.dly - 1 }) ∨
    (o.keyPend = false ∧ envPending o = o) := by
  simp only [envPending]
  by_cases hpend : o.keyPend = true
  · by_cases hdly : o.dly = 0
    · exact .inl ⟨hpend, hdly, by rw [if_pos hpend, if_pos hdly]⟩
    · exact .inr (.inl ⟨hpend, hdly, by rw [if_pos hpend, if_neg hdly]⟩)
  · exact .inr (.inr ⟨Bool.eq_false_of_not_eq_true hpend, by rw [if_neg hpend]⟩)

@[simp] theorem envPending_att : (envPending o).att = o.att := by
  rcases envPending_cases o with ⟨-, -, h⟩ | ⟨-, -, h⟩ | ⟨-, h⟩ <;> rw [h]

@[simp] theorem envPending_egs : (envPending o).egs = evaluatedState o := by
  rcases envPending_cases o with ⟨hpend, hdly, h⟩ | ⟨-, hdly, h⟩ | ⟨hpend, h⟩
  · rw [h, evaluatedState, if_pos ⟨hpend, hdly⟩]
  · rw [h, evaluatedState, if_neg (hdly ·.2)]
  · rw [h, evaluatedState, hpend, if_neg (Bool.false_ne_true ·.1)]

/-- A key-on stays latched exactly while its delay lasts. -/
@[simp] theorem envPending_keyPend : (envPending o).keyPend = (o.keyPend && decide (o.dly ≠ 0)) := by
  rcases envPending_cases o with ⟨hpend, hdly, h⟩ | ⟨hpend, hdly, h⟩ | ⟨hpend, h⟩
  · rw [h, hpend, hdly]; rfl
  · rw [h, hpend, decide_eq_true hdly]; rfl
  · rw [h, hpend]; rfl

/-- A latched key-on counts its delay down. -/
@[simp] theorem envPending_dly : (envPending o).dly = if o.keyPend = true ∧ o.dly ≠ 0 then o.dly - 1 else o.dly := by
  rcases envPending_cases o with ⟨-, hdly, h⟩ | ⟨hpend, hdly, h⟩ | ⟨hpend, h⟩
  · rw [h, if_neg (·.2 hdly)]
  · rw [h, if_pos ⟨hpend, hdly⟩]
  · rw [h, hpend, if_neg (Bool.false_ne_true ·.1)]

end Pending

/-! ### The update of the attenuation -/

section Update
variable (P : Params) (rate n : Nat) (o : OpState)

theorem envUpdate_att : (envUpdate P rate n o).att =
    if o.egs = .attack then (if P.rateInstant ≤ rate then 0 else o.att - P.atk o.att (P.envInc rate n))
    else min P.attMax (o.att + P.envInc rate n) := by
  simp only [envUpdate]
  split_ifs <;> rfl

theorem envUpdate_eq : envUpdate P rate n o = { o with att := (envUpdate P rate n o).att } := by
  simp only [envUpdate]
  split_ifs <;> rfl

@[simp] theorem envUpdate_egs : (envUpdate P rate n o).egs = o.egs := by rw [envUpdate_eq]
@[simp] theorem envUpdate_keyPend : (envUpdate P rate n o).keyPend = o.keyPend := by rw [envUpdate_eq]
@[simp] theorem envUpdate_dly : (envUpdate P rate n o).dly = o.dly := by rw [envUpdate_eq]

end Update

/-! ### The transitions -/

section Transitions
variable (P : Params) (sl : Nat) (o : OpState)

@[simp] theorem envTransitions_att : (envTransitions P sl o).att = o.att := by
  obtain ⟨e, h⟩ := envTransitions_eq P sl o
  rw [h]
@[simp] theorem envTransitions_keyPend : (envTransitions P sl o).keyPend = o.keyPend := by
  obtain ⟨e, h⟩ := envTransitions_eq P sl o
  rw [h]
@[simp] theorem envTransitions_dly : (envTransitions P sl o).dly = o.dly := by
  obtain ⟨e, h⟩ := envTransitions_eq P sl o
  rw [h]

/-- ATTACK lasts until the attenuation is 0, and a sustain level of 0 then passes DECAY at once; DECAY lasts until the
sustain level. -/
theorem envTransitions_egs : (envTransitions P sl o).egs =
    if o.egs = .attack then (if o.att ≠ 0 then .attack else if P.slAtt sl ≤ 0 then .sustain else .decay)
    else if o.egs = .decay ∧ P.slAtt sl ≤ o.att then .sustain else o.egs := by
  by_cases hattack : o.egs = .attack
  · by_cases hatt : o.att = 0
    · simp only [envTransitions, hattack, hatt, and_self, if_true, true_and, ne_eq, not_true_eq_false, if_false]
      split <;> rfl
    · simp [envTransitions, hattack, hatt]
  · simp only [envTransitions, hattack, false_and, if_false]
    split <;> rfl

end Transitions

/-! ### The whole evaluation -/

section Evaluation
variable (P : Params) (rb : Memory) (g : Globals) (c : ChanId) (k : OpId) (o : OpState)

theorem envEval_keyPend : (envEval P rb g c k o).keyPend = (o.keyPend && decide (o.dly ≠ 0)) := by
  simp only [envEval, envTransitions_keyPend, envUpdate_keyPend, envPending_keyPend]

theorem envEval_keyPend_iff : (envEval P rb g c k o).keyPend = true ↔ o.keyPend = true ∧ o.dly ≠ 0 := by
  rw [envEval_keyPend, Bool.and_eq_true, decide_eq_true_iff]

theorem envEval_dly : (envEval P rb g c k o).dly = if o.keyPend = true ∧ o.dly ≠ 0 then o.dly - 1 else o.dly := by
  simp only [envEval, envTransitions_dly, envUpdate_dly, envPending_dly]

theorem envEval_dly_toNat :
    (envEval P rb g c k o).dly.toNat = if o.keyPend = true then o.dly.toNat - 1 else o.dly.toNat := by
  rw [envEval_dly]
  by_cases hdly : o.dly = 0
  · rw [hdly, if_neg (·.2 rfl)]
    exact (ite_self _).symm
  · have hpos : o.dly.toNat ≠ 0 := fun h => hdly (BitVec.eq_of_toNat_eq h)
    have hsub : (o.dly - 1).toNat = o.dly.toNat - 1 :=
      BitVec.toNat_sub_of_le (BitVec.le_def.2 (Nat.one_le_iff_ne_zero.2 hpos))
    simp only [ne_eq, hdly, not_false_eq_true, and_true, apply_ite BitVec.toNat, hsub]

/-- The attenuation by the state evaluated: the attack update, or the increment of the rate. -/
theorem envEval_att : (envEval P rb g c k o).att =
    if evaluatedState o = .attack then
      (if P.rateInstant ≤ envRate P rb c k .attack then 0
        else o.att - P.atk o.att (P.envInc (envRate P rb c k .attack) g.envCnt.toNat))
    else min P.attMax (o.att + P.envInc (envRate P rb c k (evaluatedState o)) g.envCnt.toNat) := by
  simp only [envEval, envTransitions_att, envUpdate_att, envPending_att, envPending_egs]
  split
  · next h => rw [h]
  · rfl

/-- The next envelope state by the state evaluated and the new attenuation. -/
theorem envEval_egs : (envEval P rb g c k o).egs =
    if evaluatedState o = .attack then
      (if (envEval P rb g c k o).att ≠ 0 then .attack else if P.slAtt (fSl rb c k) ≤ 0 then .sustain else .decay)
    else if evaluatedState o = .decay ∧ P.slAtt (fSl rb c k) ≤ (envEval P rb g c k o).att then .sustain
    else evaluatedState o := by
  simp only [envEval, envTransitions_egs, envTransitions_att, envUpdate_egs, envPending_egs]

/-- The rate of a state whose base rate is `base`, on unbounded integers (42_envelope.md R236). -/
theorem envRate_eq (e : EnvState) (base : Int) (h : (baseRate rb c k e : Int) = base) :
    envRate P rb c k e = if base = 0 then 0
      else (min (P.rateMax : Int) (max 0 (base + P.ks (P.keycode (fFreq rb c)) (fKsr rb c k)))).toNat := by
  subst h
  simp only [envRate, clamp, Nat.cast_eq_zero]

/-- A base rate of 0 is not key-scaled. -/
theorem envRate_of_baseRate_zero {e : EnvState} (h : baseRate rb c k e = 0) : envRate P rb c k e = 0 := by
  simp only [envRate, h, if_true]

end Evaluation

section EvaluatedState
variable {P : Params} {rb : Memory} {g : Globals} {c : ChanId} {k : OpId} {o : OpState}

theorem evaluatedState_attack (h : o.keyPend = true ∧ o.dly = 0 ∨ o.egs = .attack) : evaluatedState o = .attack := by
  rw [evaluatedState]
  split
  · rfl
  · next hserved => exact h.resolve_left hserved

theorem evaluatedState_of_not_served (h : o.keyPend = false ∨ o.dly ≠ 0) : evaluatedState o = o.egs := by
  rw [evaluatedState, if_neg]
  rintro ⟨hpend, hdly⟩
  rcases h with h | h
  · exact Bool.false_ne_true (h.symm.trans hpend)
  · exact h hdly

/-- An evaluation that serves no key-on leaves `KEYPEND`. -/
theorem envEval_keyPend_of_not_served (h : o.keyPend = false ∨ o.dly ≠ 0) :
    (envEval P rb g c k o).keyPend = o.keyPend := by
  rw [envEval_keyPend]
  rcases h with h | h
  · rw [h, Bool.false_and]
  · rw [decide_eq_true h, Bool.and_true]

/-- ATTACK only lowers the attenuation (42_envelope.md R244). -/
theorem envEval_att_le (h : evaluatedState o = .attack) : (envEval P rb g c k o).att ≤ o.att := by
  rw [envEval_att, if_pos h]
  split
  · exact Nat.zero_le _
  · exact Nat.sub_le _ _

/-- The other states only raise it, up to `ATT_MAX` (42_envelope.md R244). -/
theorem le_envEval_att (hatt : o.att ≤ P.attMax) (h : evaluatedState o ≠ .attack) :
    o.att ≤ (envEval P rb g c k o).att := by
  rw [envEval_att, if_neg h]
  exact le_min hatt (Nat.le_add_right _ _)

theorem envEval_att_le_attMax (hatt : o.att ≤ P.attMax) : (envEval P rb g c k o).att ≤ P.attMax := by
  by_cases h : evaluatedState o = .attack
  · exact (envEval_att_le h).trans hatt
  · rw [envEval_att, if_neg h]
    exact Nat.min_le_left _ _

/-- A base rate of 0 holds the attenuation: it is never instant, and its increment is 0 (42_envelope.md R236, log entry
3). -/
theorem envEval_att_of_baseRate_zero (hatt : o.att ≤ P.attMax) (h : baseRate rb c k (evaluatedState o) = 0) :
    (envEval P rb g c k o).att = o.att := by
  have hinstant := P.rateInstant_pos
  rw [envEval_att]
  split
  · next hattack =>
    rw [hattack] at h
    rw [envRate_of_baseRate_zero P rb c k h, if_neg (by omega), P.envInc_zero, P.atk_zero, Nat.sub_zero]
  · rw [envRate_of_baseRate_zero P rb c k h, P.envInc_zero, Nat.add_zero, Nat.min_eq_right hatt]

end EvaluatedState

end Sys2Proof.Machine

/-! ## The envelope of an operator through an ADVANCE (42_envelope.md R242) -/

namespace Sys2Proof.Machine

/-! ### Operators alike in their envelope -/

/-- Two operator states agree on what the envelope reads and writes: `ATT`, `EGS`, `KEYPEND` and `DLY`. -/
structure SameEnvelope (o o' : OpState) : Prop where
  att : o'.att = o.att
  egs : o'.egs = o.egs
  keyPend : o'.keyPend = o.keyPend
  dly : o'.dly = o.dly

section SameEnvelope
variable {o o' o'' : OpState}

theorem SameEnvelope.trans (h : SameEnvelope o o') (h' : SameEnvelope o' o'') : SameEnvelope o o'' :=
  ⟨h'.att.trans h.att, h'.egs.trans h.egs, h'.keyPend.trans h.keyPend, h'.dly.trans h.dly⟩

theorem SameEnvelope.evaluatedState (h : SameEnvelope o o') : evaluatedState o' = evaluatedState o := by
  rw [Machine.evaluatedState, Machine.evaluatedState, h.keyPend, h.dly, h.egs]

/-- The evaluation reads nothing else of the operator. -/
theorem SameEnvelope.envEval (h : SameEnvelope o o') (P : Params) (rb : Memory) (g : Globals) (c : ChanId) (k : OpId) :
    SameEnvelope (envEval P rb g c k o) (envEval P rb g c k o') := by
  have hatt : (Machine.envEval P rb g c k o').att = (Machine.envEval P rb g c k o).att := by
    rw [envEval_att, envEval_att, h.evaluatedState, h.att]
  refine ⟨hatt, ?_, ?_, ?_⟩
  · rw [envEval_egs, envEval_egs, h.evaluatedState, hatt]
  · rw [envEval_keyPend, envEval_keyPend, h.keyPend, h.dly]
  · rw [envEval_dly, envEval_dly, h.keyPend, h.dly]

end SameEnvelope

/-! ### The stages of a channel step -/

section Stages
variable (P : Params) (s : State) (c : ChanId) (k : OpId)

/-- Step A moves the phase and the noise registers only, with hard sync or without (44_modulation.md R310, R315). -/
theorem moveOperator_sameEnvelope (rb : Memory) (g : Globals) (snap : VoiceSnapshot) (o : OpState) :
    SameEnvelope o (moveOperator P rb g c snap k o).op := by
  simp only [moveOperator]
  split
  · exact ⟨rfl, rfl, rfl, rfl⟩
  · exact ⟨rfl, rfl, rfl, rfl⟩

theorem voice_op_sameEnvelope (rb pcm : Memory) (g : Globals) (ch : ChanState) :
    SameEnvelope (envEval P rb g c k (ch.op k)) ((voice P rb pcm g c ch).1.op k) := by
  obtain ⟨v, hv⟩ := voice_op P rb pcm g c ch k
  have heval := (moveOperator_sameEnvelope P c k rb g (snapshot ch) (ch.op k)).envEval P rb g c k
  rw [hv]
  exact ⟨heval.att, heval.egs, heval.keyPend, heval.dly⟩

/-- After the source only the reset action touches the operators, and it leaves their envelope (46_channel.md R383). -/
theorem channelStep_op_sameEnvelope :
    SameEnvelope (((channelSource P c s).1.chan c).op k) (((channelStep P c s).1.chan c).op k) := by
  have hlate : ∀ t : State, SameEnvelope ((t.chan c).op k) (((phaseResets P c t).chan c).op k) := fun t => by
    rcases phaseResets_op P c t k with h | h <;> rw [h] <;> exact ⟨rfl, rfl, rfl, rfl⟩
  have hstep := hlate (sweeps c (channelOutput P c (channelSource P c s).1 (channelSource P c s).2).1)
  rwa [sweeps_op, channelOutput_op] at hstep

end Stages

/-! ### The whole ADVANCE -/

section Advance
variable (s : State) (c : ChanId) (k : OpId)

/-- In voice mode an ADVANCE evaluates an operator's envelope once, on the registers as they stand and `ENVCNT` stepped,
whatever resets, sweeps and other channels do. -/
theorem exec_adv_envelope_of_voice (hpcm : fPcm s.rb c = false) :
    ∃ t, exec .adv s = .next t ∧
      SameEnvelope (envEval params s.rb (advanceGlobals params s.glob) c k ((s.chan c).op k)) ((t.chan c).op k) := by
  obtain ⟨u, hu, hchan, -⟩ := advance_channel params s c
  have hused := hu.bytes.usedBitsAgree
  have hcounters : CountersAgree u.glob u.glob := ⟨rfl, rfl, rfl⟩
  have hstep := channelStep_op_sameEnvelope params u c k
  rw [channelSource_of_voice params c u (hused.fPcm.trans hpcm), State.setChan_chan_same] at hstep
  refine ⟨_, exec_adv s, ?_⟩
  rw [advanceCommand_chan, hchan, ← hu.chan, ← hu.glob, ← envEval_congr hused hcounters]
  exact (voice_op_sameEnvelope params c k u.rb u.pcm u.glob (u.chan c)).trans hstep

/-- In PCM mode it evaluates none (46_channel.md R361). -/
theorem exec_adv_envelope_of_pcm (hpcm : fPcm s.rb c = true) :
    ∃ t, exec .adv s = .next t ∧ SameEnvelope ((s.chan c).op k) ((t.chan c).op k) := by
  obtain ⟨u, hu, hchan, -⟩ := advance_channel params s c
  have hsource : (channelSource params c u).1 = pcmAdvance params c u := by
    simp only [channelSource, hu.bytes.usedBitsAgree.fPcm.trans hpcm, if_true]
  have hstep := channelStep_op_sameEnvelope params u c k
  rw [hsource, pcmAdvance, State.setRb_chan, State.setChan_chan_same] at hstep
  refine ⟨_, exec_adv s, ?_⟩
  rw [advanceCommand_chan, hchan, ← hu.chan]
  exact hstep

/-- No ADVANCE writes `FLAGS0` (10_state.md R38). -/
theorem exec_adv_fPcm {t : State} (h : exec .adv s = .next t) : fPcm t.rb c = fPcm s.rb c := by
  cases (exec_adv s).symm.trans h
  have hread := (advance_frame params s).read (chByteIndex c flags0Offset) fun d j hj heq => by
    have hlt : ∀ i ∈ advanceOwned, i < 32 ∧ i ≠ flags0Offset := by decide
    obtain ⟨-, rfl⟩ := (chByteIndex_inj c d flags0Offset j (by decide) (hlt j hj).1).1 heq
    exact (hlt _ hj).2 rfl
  rw [advanceCommand_rb]
  exact congrArg (fun b : Byte => bit b.toNat 1) hread

end Advance

/-! ### The attenuation under the other commands -/

theorem exec_att_of_ne_adv_rst {i : Instr} (hadv : i ≠ .adv) (hrst : i ≠ .rst) (s : State) (c : ChanId) (k : OpId) :
    ∃ t, exec i s = .next t ∧ ((t.chan c).op k).att = ((s.chan c).op k).att := by
  cases i with
  | wr addr data =>
    obtain ⟨_, -, hops⟩ := writeRegister_keyStateFrame addr (BitVec.ofNat 8 data) s c
    obtain ⟨_, _, _, hop⟩ := hops k
    exact ⟨_, exec_wr addr data s, by rw [State.complete_chan, hop]⟩
  | rd addr => exact ⟨_, exec_rd addr s, rfl⟩
  | adv => exact absurd rfl hadv
  | rst => exact absurd rfl hrst
  | mute ch m =>
    obtain ⟨v, hv⟩ := setMute_eq ch m s
    exact ⟨_, exec_mute ch m s, by rw [hv]; rfl⟩
  | pcmw paddr data => exact ⟨_, exec_pcmw paddr data s, rfl⟩

theorem exec_rst_att (s : State) (c : ChanId) (k : OpId) :
    ∃ t, exec .rst s = .next t ∧ ((t.chan c).op k).att = params.attMax :=
  ⟨_, exec_rst s, congrArg OpState.att (chansAfterReset_op params c k)⟩

/-- Settles O33: an ADVANCE evaluates the envelope once or, in PCM mode, not at all; no other command but RESET changes
`ATT`. -/
theorem envelopeStaysInBounds : Obligations.EnvelopeStaysInBounds := by
  unfold Obligations.EnvelopeStaysInBounds
  refine ⟨fun s c k hatt => ?_, fun s i c k hadv hrst => exec_att_of_ne_adv_rst hadv hrst s c k, exec_rst_att⟩
  cases hpcm : fPcm s.rb c with
  | true =>
    obtain ⟨t, hexec, hsame⟩ := exec_adv_envelope_of_pcm s c k hpcm
    exact ⟨t, hexec, hsame.att.le.trans hatt, fun _ => hsame.att, fun _ => hsame.att.le, fun _ => hsame.att.ge⟩
  | false =>
    obtain ⟨t, hexec, henv⟩ := exec_adv_envelope_of_voice s c k hpcm
    refine ⟨t, hexec, ?_⟩
    rw [henv.att]
    exact ⟨envEval_att_le_attMax hatt, fun h => absurd h Bool.false_ne_true, envEval_att_le, le_envEval_att hatt⟩

/-- Settles O34: the state evaluated is ATTACK, whichever way it came to be. -/
theorem keyOnEntersAttack : Obligations.KeyOnEntersAttack := by
  unfold Obligations.KeyOnEntersAttack
  intro s c k hpcm hattack
  obtain ⟨t, hexec, henv⟩ := exec_adv_envelope_of_voice s c k hpcm
  refine ⟨t, hexec, ?_⟩
  have hstate := evaluatedState_attack hattack
  rw [henv.keyPend, henv.dly, henv.egs, envEval_egs, if_pos hstate, henv.att, envEval_att, if_pos hstate,
    envRate_eq params s.rb c k .attack (2 * fAr s.rb c k) (Nat.cast_mul _ _)]
  exact ⟨envEval_keyPend_iff .., envEval_dly_toNat .., rfl, rfl⟩

/-- Settles O36: the state evaluated is the operator's own, which is not ATTACK. -/
theorem envelopeRisesByIncrement : Obligations.EnvelopeRisesByIncrement := by
  unfold Obligations.EnvelopeRisesByIncrement
  intro s c k hpcm hwait hrising
  obtain ⟨t, hexec, henv⟩ := exec_adv_envelope_of_voice s c k hpcm
  refine ⟨t, hexec, ?_⟩
  have hstate := evaluatedState_of_not_served hwait
  have hnot : evaluatedState ((s.chan c).op k) ≠ .attack := hstate ▸ hrising
  intro o base rate
  have hrate : envRate params s.rb c k o.egs = rate := by
    refine envRate_eq params s.rb c k o.egs base ?_
    simp only [o, base]
    cases ((s.chan c).op k).egs with
    | attack => exact Nat.cast_mul _ _
    | decay => exact Nat.cast_mul _ _
    | sustain => exact Nat.cast_mul _ _
    | release => exact apply_ite Nat.cast _ _ _
  refine ⟨?_, ?_, ?_, ?_⟩
  · rw [henv.keyPend]
    exact envEval_keyPend_of_not_served hwait
  · rw [henv.dly]
    exact envEval_dly_toNat ..
  · rw [henv.att, envEval_att, if_neg hnot, hstate, hrate]
    rfl
  · rw [henv.egs, envEval_egs, if_neg hnot, hstate, henv.att]

/-- Settles O37: a base rate of 0 holds the attenuation, so ATTACK does not end, and nothing leaves RELEASE. -/
theorem zeroRateNeverMovesEnvelope : Obligations.ZeroRateNeverMovesEnvelope := by
  unfold Obligations.ZeroRateNeverMovesEnvelope
  intro s c k hatt hpend hzero
  cases hpcm : fPcm s.rb c with
  | true =>
    obtain ⟨t, hexec, hsame⟩ := exec_adv_envelope_of_pcm s c k hpcm
    exact ⟨t, hexec, hsame.att, fun h _ => hsame.egs.trans h, fun h => hsame.egs.trans h⟩
  | false =>
    obtain ⟨t, hexec, henv⟩ := exec_adv_envelope_of_voice s c k hpcm
    have hstate := evaluatedState_of_not_served (.inl hpend)
    have hbase : baseRate s.rb c k (evaluatedState ((s.chan c).op k)) = 0 := by
      rw [hstate]
      rcases hzero with ⟨he, hr⟩ | ⟨he, hr⟩ | ⟨he, hr⟩ | ⟨he, hr⟩ <;>
        simp only [he, baseRate, hr, Nat.mul_zero, if_true]
    have hheld := henv.att.trans (envEval_att_of_baseRate_zero hatt hbase)
    have hegs := henv.egs.trans (envEval_egs ..)
    rw [← henv.att, hheld, hstate] at hegs
    refine ⟨t, hexec, hheld, fun he hne => ?_, fun he => ?_⟩
    · rw [hegs, if_pos he, if_pos hne]
    · rw [hegs, he]; rfl

/-! ### The onset delay (42_envelope.md R234) -/

/-- A key-on is latched on the operator of a channel in voice mode and waits `m` more samples. -/
structure KeyOnWaits (c : ChanId) (k : OpId) (m : Nat) (s : State) : Prop where
  voice : fPcm s.rb c = false
  keyPend : ((s.chan c).op k).keyPend = true
  dly : ((s.chan c).op k).dly.toNat = m

section OnsetDelay
variable {s : State} {c : ChanId} {k : OpId} {m : Nat}

/-- An ADVANCE counts one sample of the delay. -/
theorem KeyOnWaits.tick (h : KeyOnWaits c k (m + 1) s) : ∃ t, exec .adv s = .next t ∧ KeyOnWaits c k m t := by
  obtain ⟨t, hexec, henv⟩ := exec_adv_envelope_of_voice s c k h.voice
  have hdly : ((s.chan c).op k).dly ≠ 0 := fun hzero => by
    have hcount := h.dly
    rw [hzero] at hcount
    exact absurd hcount (Nat.succ_ne_zero m).symm
  refine ⟨t, hexec, (exec_adv_fPcm s c hexec).trans h.voice, ?_, ?_⟩
  · rw [henv.keyPend, envEval_keyPend_iff]
    exact ⟨h.keyPend, hdly⟩
  · rw [henv.dly, envEval_dly_toNat, if_pos h.keyPend, h.dly]
    rfl

/-- With no delay left an ADVANCE serves the key-on. -/
theorem KeyOnWaits.served (h : KeyOnWaits c k 0 s) :
    ∃ t, exec .adv s = .next t ∧ ((t.chan c).op k).keyPend = false := by
  obtain ⟨t, hexec, henv⟩ := exec_adv_envelope_of_voice s c k h.voice
  have hdly : ((s.chan c).op k).dly = 0 := BitVec.eq_of_toNat_eq h.dly
  exact ⟨t, hexec, by rw [henv.keyPend, envEval_keyPend, hdly]; exact Bool.and_false _⟩

/-- `n` ADVANCEs count `n` samples, whatever follows them. -/
theorem KeyOnWaits.run (n : Nat) (is : List Instr) (h : KeyOnWaits c k (m + n) s) :
    ∃ t, execAll (List.replicate n .adv ++ is) s = execAll is t ∧ KeyOnWaits c k m t := by
  induction n generalizing s with
  | zero => exact ⟨s, rfl, h⟩
  | succ n ih =>
    obtain ⟨u, hexec, hu⟩ := h.tick
    obtain ⟨t, hrun, ht⟩ := ih hu
    exact ⟨t, (execAll_cons hexec _).trans hrun, ht⟩

end OnsetDelay

/-- Settles O35, by induction on the ADVANCEs (`KeyOnWaits.run`), one more serving the key-on. -/
theorem onsetDelayLastsItsCount : Obligations.OnsetDelayLastsItsCount := by
  unfold Obligations.OnsetDelayLastsItsCount
  intro s c k m hpcm hpend hdly
  have hwaits : ∀ n ≤ m, KeyOnWaits c k (m - n + n) s := fun n hn => ⟨hpcm, hpend, by omega⟩
  refine ⟨fun n hn => ?_, ?_⟩
  · obtain ⟨t, hrun, ht⟩ := (hwaits n hn).run n []
    rw [List.append_nil] at hrun
    exact ⟨t, hrun, ht.keyPend, ht.dly⟩
  · obtain ⟨u, hrun, hu⟩ := KeyOnWaits.run (m := 0) m [.adv] ⟨hpcm, hpend, by omega⟩
    obtain ⟨t, hexec, ht⟩ := hu.served
    rw [List.replicate_succ']
    exact ⟨t, hrun.trans (execAll_cons hexec []), ht⟩

end Sys2Proof.Machine

/-! ## The noise registers of a live operator stay alive (43_waveform.md R277 to R279) -/

namespace Sys2Proof.Machine

/-! ### One operator through an ADVANCE, whatever resets fire -/

section OperatorThroughAdvance
variable (P : Params) (s : State) (c : ChanId) (k : OpId)

/-- After the source a channel step applies the reset action to an operator or leaves it. -/
theorem channelStep_op_cases :
    ((channelStep P c s).1.chan c).op k = ((channelSource P c s).1.chan c).op k ∨
      ((channelStep P c s).1.chan c).op k =
        reseed P c k { ((channelSource P c s).1.chan c).op k with phase := 0, wrap := false } := by
  have hlate := phaseResets_op P c (sweeps c (channelOutput P c (channelSource P c s).1 (channelSource P c s).2).1) k
  rwa [sweeps_op, channelOutput_op] at hlate

/-- In PCM mode the source leaves the operators alone (46_channel.md R361). -/
theorem channelSource_op_of_pcm (h : fPcm s.rb c = true) :
    ((channelSource P c s).1.chan c).op k = (s.chan c).op k := by
  simp only [channelSource, h, if_true, pcmAdvance, State.setRb_chan, State.setChan_chan_same]
  rfl

theorem channelSource_op_of_voice (h : fPcm s.rb c = false) :
    ((channelSource P c s).1.chan c).op k = (voice P s.rb s.pcm s.glob c (s.chan c)).1.op k := by
  rw [channelSource_of_voice P c s h, State.setChan_chan_same]

end OperatorThroughAdvance

/-! ### Live noise registers -/

/-- Both noise registers of an operator are non-zero. -/
structure OpState.Alive (o : OpState) : Prop where
  lfsr32 : o.lfsr32 ≠ 0
  lfsr6 : o.lfsr6 ≠ 0

section Alive
variable {P : Params} {s t : State} {o o' : OpState}

theorem State.noiseAlive_iff : s.NoiseAlive ↔ ∀ c k, ((s.chan c).op k).Alive :=
  ⟨fun h c k => ⟨(h c k).1, (h c k).2⟩, fun h c k => ⟨(h c k).lfsr32, (h c k).lfsr6⟩⟩

theorem OpState.Alive.congr (h : o.Alive) (h32 : o'.lfsr32 = o.lfsr32) (h6 : o'.lfsr6 = o.lfsr6) : o'.Alive :=
  ⟨h32 ▸ h.lfsr32, h6 ▸ h.lfsr6⟩

/-- The seeds are live, whatever the operator was. -/
theorem reseed_alive (P : Params) (c : ChanId) (k : OpId) (o : OpState) : (reseed P c k o).Alive :=
  ⟨P.seed32_ne c k, P.seed6_ne c k⟩

/-- Step A reseeds the registers or clocks them, and no clock brings a live one to 0. -/
theorem moveOperator_alive (rb : Memory) (g : Globals) (c : ChanId) (snap : VoiceSnapshot) (k : OpId) (h : o.Alive) :
    (moveOperator P rb g c snap k o).op.Alive := by
  simp only [moveOperator]
  split
  · exact reseed_alive P c k _
  · exact ⟨clock32_ne_zero _ h.lfsr32, clock6Times_ne_zero _ (noiseTap_range P rb c k) _ _ h.lfsr6⟩

theorem voice_op_alive (rb pcm : Memory) (g : Globals) (c : ChanId) (ch : ChanState) (k : OpId) (h : (ch.op k).Alive) :
    ((voice P rb pcm g c ch).1.op k).Alive := by
  obtain ⟨v, hv⟩ := voice_op P rb pcm g c ch k
  obtain ⟨-, -, h32, h6, -, -⟩ :=
    envEval_phase P rb g c k (moveOperator P rb g c (snapshot ch) k (ch.op k)).op
  rw [hv]
  exact (moveOperator_alive rb g c (snapshot ch) k h).congr h32 h6

theorem channelStep_op_alive (c : ChanId) (k : OpId) (h : ((s.chan c).op k).Alive) :
    (((channelStep P c s).1.chan c).op k).Alive := by
  have hsource : (((channelSource P c s).1.chan c).op k).Alive := by
    cases hpcm : fPcm s.rb c with
    | true => rwa [channelSource_op_of_pcm P s c k hpcm]
    | false => rw [channelSource_op_of_voice P s c k hpcm]; exact voice_op_alive _ _ _ c _ k h
  rcases channelStep_op_cases P s c k with hop | hop
  · rwa [hop]
  · rw [hop]; exact reseed_alive P c k _

theorem advance_op_alive (c : ChanId) (k : OpId) (h : ((s.chan c).op k).Alive) :
    (((advance P s).1.chan c).op k).Alive := by
  obtain ⟨u, hu, hchan, -⟩ := advance_channel P s c
  rw [hchan]
  exact channelStep_op_alive c k (hu.chan ▸ h)

theorem exec_op_alive (i : Instr) (he : exec i s = .next t) (c : ChanId) (k : OpId) (h : ((s.chan c).op k).Alive) :
    ((t.chan c).op k).Alive := by
  cases i with
  | wr addr data =>
    rw [exec_wr] at he
    cases he
    obtain ⟨_, -, hops⟩ := writeRegister_keyStateFrame addr (BitVec.ofNat 8 data) s c
    obtain ⟨_, _, _, hop⟩ := hops k
    rw [State.complete_chan, hop]
    exact ⟨h.lfsr32, h.lfsr6⟩
  | rd addr =>
    rw [exec_rd] at he
    cases he
    exact h
  | adv =>
    rw [exec_adv] at he
    cases he
    rw [advanceCommand_chan]
    exact advance_op_alive c k h
  | rst =>
    rw [exec_rst] at he
    cases he
    rw [State.complete_chan, State.chan, State.resetBlock_chans, chansAfterReset_op]
    exact ⟨params.seed32_ne c k, params.seed6_ne c k⟩
  | mute ch m =>
    rw [exec_mute] at he
    cases he
    obtain ⟨v, hv⟩ := setMute_eq ch m s
    rw [State.complete_chan, hv]
    exact h
  | pcmw paddr data =>
    rw [exec_pcmw] at he
    cases he
    exact h

end Alive

/-- Settles O57, by the cases of a step: an idle step and a refused word leave the operators, a RESET and a phase reset
seed them, and an evaluation seeds or clocks the registers. -/
theorem noiseRegistersNeverDie : Obligations.NoiseRegistersNeverDie := by
  unfold Obligations.NoiseRegistersNeverDie
  intro s t h hst
  rcases step_cases s t hst with ⟨_, rfl⟩ | ⟨w, rest, e, _, _, rfl⟩ | ⟨w, rest, i, _, _, he⟩
  · exact h
  · exact h
  · rw [State.noiseAlive_iff] at h ⊢
    exact fun c k => exec_op_alive i he c k (h c k)

end Sys2Proof.Machine

/-! ## The clocks of the noise registers (43_waveform.md R277, R278) -/

namespace Sys2Proof.Machine

theorem bits_low_two (v : Nat) : bits v 1 0 = v % 4 := congrArg (· % 4) (Nat.div_one v)

/-! ### A feedback shift register -/

/-- A register shifted down by one with the bit `b` entering at the top. -/
def shiftIn {w : Nat} (b : Bool) (x : BitVec w) : BitVec w := (x >>> 1) ||| (if b then BitVec.twoPow w (w - 1) else 0#w)

section ShiftRegister
variable {w : Nat}

theorem shiftIn_getLsbD (b : Bool) (x : BitVec w) (i : Nat) (hi : i < w) :
    (shiftIn b x).getLsbD i = if i + 1 < w then x.getLsbD (i + 1) else b := by
  have hin : (if b then BitVec.twoPow w (w - 1) else 0#w).getLsbD i = (b && decide (i + 1 = w)) := by
    cases b with
    | true =>
      rw [if_pos rfl, BitVec.getLsbD_twoPow, ← Bool.decide_and, Bool.true_and]
      exact decide_eq_decide.2 (by omega)
    | false => simp
  rw [shiftIn, BitVec.getLsbD_or, BitVec.getLsbD_ushiftRight, hin, Nat.add_comm 1 i]
  split
  · next h => simp [Nat.ne_of_lt h]
  · next h => simp [show i + 1 = w by omega, BitVec.getLsbD_of_ge]

/-- A feedback shift register loses no state where the entering bit and the bits that stay tell bit 0. -/
theorem shiftIn_bijective (feedback : BitVec w → Bool)
    (h : ∀ x y : BitVec w, (∀ i, 1 ≤ i → x.getLsbD i = y.getLsbD i) → feedback x = feedback y →
      x.getLsbD 0 = y.getLsbD 0) :
    Function.Bijective fun x => shiftIn (feedback x) x := by
  refine Finite.injective_iff_bijective.1 fun x y hxy => ?_
  have hbit : ∀ i < w, (if i + 1 < w then x.getLsbD (i + 1) else feedback x) =
      if i + 1 < w then y.getLsbD (i + 1) else feedback y := fun i hi => by
    rw [← shiftIn_getLsbD _ x i hi, ← shiftIn_getLsbD _ y i hi]
    exact congrArg (BitVec.getLsbD · i) hxy
  have hhigh : ∀ i, 1 ≤ i → x.getLsbD i = y.getLsbD i := fun i hi => by
    by_cases hw : i < w
    · have hbelow := hbit (i - 1) (by omega)
      rwa [if_pos (by omega), if_pos (by omega), Nat.sub_add_cancel hi] at hbelow
    · rw [BitVec.getLsbD_of_ge _ _ (by omega), BitVec.getLsbD_of_ge _ _ (by omega)]
  refine BitVec.eq_of_getLsbD_eq fun i hi => ?_
  rcases Nat.eq_zero_or_pos i with rfl | hpos
  · have htop := hbit (w - 1) (by omega)
    rw [if_neg (by omega), if_neg (by omega)] at htop
    exact h x y hhigh htop
  · exact hhigh i hpos

end ShiftRegister

/-! ### The two noise registers as shift registers -/

theorem clock32_eq_shiftIn (x : BitVec 32) :
    clock32 x = shiftIn (x.getLsbD 0 ^^ x.getLsbD 2 ^^ x.getLsbD 3 ^^ x.getLsbD 5) x := rfl

theorem clock6_eq_shiftIn (t : Nat) (x : BitVec 6) : clock6 t x = shiftIn (x.getLsbD 0 ^^ x.getLsbD t) x := rfl

theorem clock6Times_eq_iterate (t n : Nat) (x : BitVec 6) : clock6Times t n x = (clock6 t)^[n] x := by
  induction n generalizing x with
  | zero => rfl
  | succ n ih => exact ih (clock6 t x)

/-- Settles O31: both feedbacks are bit 0 and bits above it. -/
theorem noiseMapsAreBijections : Obligations.NoiseMapsAreBijections := by
  unfold Obligations.NoiseMapsAreBijections
  refine ⟨shiftIn_bijective _ fun x y hhigh heq => ?_, by decide, fun t h1 h5 =>
    ⟨shiftIn_bijective _ fun x y hhigh heq => ?_, ?_⟩⟩
  · rw [hhigh 2 (by decide), hhigh 3 (by decide), hhigh 5 (by decide)] at heq
    simpa only [Bool.xor_left_inj] using heq
  · rw [hhigh t h1] at heq
    simpa only [Bool.xor_left_inj] using heq
  · simp [clock6]

/-! ### The clock count of the periodic noise -/

/-- The accumulator after a step is the sum less the cycle a carry completes. -/
theorem phaseSum_toNat (old step : BitVec 32) :
    (old + step).toNat =
      if 2 ^ 32 ≤ old.toNat + step.toNat then old.toNat + step.toNat - 2 ^ 32 else old.toNat + step.toNat := by
  rw [BitVec.toNat_add]
  split <;> omega

/-- The accumulator's sixths are counted across the wrap: a wrapped value lies six sixths further on. -/
theorem clocks6_eq (old step : BitVec 32) :
    clocks6 old (old + step) (decide (2 ^ 32 ≤ old.toNat + step.toNat)) =
      (old.toNat + step.toNat) * 6 / 2 ^ 32 - old.toNat * 6 / 2 ^ 32 := by
  have hold := old.isLt
  have hstep := step.isLt
  simp only [clocks6, section6, phaseSum_toNat, decide_eq_true_eq]
  split <;> omega

/-- Settles O32: a step is less than a whole cycle, so it enters at most six sixths. -/
theorem periodicNoiseClockCount : Obligations.PeriodicNoiseClockCount := by
  unfold Obligations.PeriodicNoiseClockCount
  intro old step n
  have hcount : n = _ := clocks6_eq old step
  have hstep := step.isLt
  exact ⟨by omega, hcount⟩

/-! ### The registers through an ADVANCE -/

section NoiseThroughAdvance
variable (P : Params) (s : State) (c : ChanId) (k : OpId)

/-- With no phase reset and no hard sync, an ADVANCE clocks `LFSR32` once and `LFSR6` once per sixth of the cycle
entered. -/
theorem advance_noise_of_quiet (hpcm : fPcm s.rb c = false) (hquiet : NoPhaseReset s c)
    (hsync : syncFires s c k = false) :
    let old := (s.chan c).op k
    let step := (phaseStep P s.rb (advanceGlobals P s.glob) c k).toNat
    (((advance P s).1.chan c).op k).lfsr32 = clock32 old.lfsr32 ∧
      (((advance P s).1.chan c).op k).lfsr6 = (clock6 (noiseTap P s.rb c k))^[
        (old.phase.toNat + step) * 6 / 2 ^ 32 - old.phase.toNat * 6 / 2 ^ 32] old.lfsr6 := by
  intro old step
  obtain ⟨v, hop⟩ := advance_op_of_quiet P s c k hpcm hquiet
  rw [moveOperator_of_unsynced P s c k _ _ hsync] at hop
  obtain ⟨-, -, h32, h6, -, -⟩ := envEval_phase P s.rb (advanceGlobals P s.glob) c k
    (stepMove P s.rb (advanceGlobals P s.glob) c k old).op
  rw [hop]
  refine ⟨h32, h6.trans ?_⟩
  rw [← clocks6_eq, ← clock6Times_eq_iterate]
  rfl

end NoiseThroughAdvance

/-- Settles O30: the clocks are shifts with a feedback bit entering at the top, and an unsynced evaluation runs both. -/
theorem noiseRegistersClock : Obligations.NoiseRegistersClock := by
  unfold Obligations.NoiseRegistersClock
  refine ⟨fun t x => ⟨fun i hi => ?_, ?_⟩, fun rb c k => ?_, fun s c k hpcm hquiet hsync => ?_⟩
  · rw [clock6_eq_shiftIn, shiftIn_getLsbD _ _ _ (by omega), if_pos (by omega)]
  · rw [clock6_eq_shiftIn, shiftIn_getLsbD _ _ _ (by omega), if_neg (by omega)]
  · rw [noiseTap, bits_low_two]
  · obtain ⟨h32, h6⟩ := advance_noise_of_quiet params s c k hpcm hquiet hsync
    rw [clock32_eq_shiftIn] at h32
    refine ⟨_, exec_adv s, fun i hi => ?_, ?_, ?_⟩
    · rw [advanceCommand_chan, h32, shiftIn_getLsbD _ _ _ (by omega), if_pos (by omega)]
    · rw [advanceCommand_chan, h32, shiftIn_getLsbD _ _ _ (by omega), if_neg (by omega)]
    · rw [advanceCommand_chan, h6]

end Sys2Proof.Machine

/-! ## The value of a silenced operator (43_waveform.md R280, R285, R288) -/

namespace Sys2Proof.Machine

section Silenced
variable {P : Params} {rb : Memory} {g : Globals} {c : ChanId} {k : OpId}

/-- The reserved waveform is silent (43_waveform.md R280). -/
theorem rawWave_of_reserved (pcm : Memory) (o : OpState) (p10 : Nat) (h : fWave rb c k = 6) :
    rawWave P rb pcm c k o p10 = 0 := by
  simp only [rawWave, h]

/-- The envelope and the total level alone can saturate the attenuation sum. -/
theorem attTotal_of_full {att : Nat} (h : P.attMax ≤ att + fTl rb c k * 2 ^ 3) : attTotal P rb g c k att = P.attMax :=
  Nat.min_eq_left (by omega)

theorem scaleByGain_zero (att : Nat) : scaleByGain P 0 att = 0 := by
  rw [scaleByGain, Int.zero_mul, asr, Int.zero_ediv]

/-- Full attenuation is silent (43_waveform.md R288). -/
theorem scaleByGain_attMax (raw : Int) : scaleByGain P raw P.attMax = 0 := by
  rw [scaleByGain, P.lin_attMax, Nat.cast_zero, Int.mul_zero, asr, Int.zero_ediv]

theorem ringSign_zero (ring : Bool) (src : Int) : ringSign ring src 0 = 0 := by
  rw [ringSign, Int.neg_zero, ite_self]

theorem operatorValue_of_silenced (pcm : Memory) (ch : ChanState) (v3p : Int) (o : OpState)
    (h : fWave rb c k = 6 ∨ P.attMax ≤ o.att + fTl rb c k * 2 ^ 3) : operatorValue P rb pcm g c k ch v3p o = 0 := by
  rw [operatorValue]
  rcases h with hwave | hatt
  · rw [rawWave_of_reserved _ _ _ hwave, scaleByGain_zero, ringSign_zero]
  · rw [attTotal_of_full hatt, scaleByGain_attMax, ringSign_zero]

end Silenced

/-! ### The value through an ADVANCE -/

section ValueThroughAdvance
variable (P : Params) (rb pcm : Memory) (g : Globals) (c : ChanId)

theorem evalOperator_foldl_op_of_not_mem (snap : VoiceSnapshot) (ks : List OpId) (acc : ChanState × Int) {k : OpId}
    (hk : k ∉ ks) : (ks.foldl (evalOperator P rb pcm g c snap) acc).1.op k = acc.1.op k := by
  induction ks generalizing acc with
  | nil => rfl
  | cons j ks ih =>
    obtain ⟨hkj, hk⟩ := not_or.1 (mt List.mem_cons.2 hk)
    exact (ih _ hk).trans (evalOperator_op_ne P rb pcm g c snap acc k j hkj)

/-- Among distinct operators each takes its value from its own state after steps A and B, in the channel as the
operators before it left it (44_modulation.md R310). -/
theorem evalOperator_foldl_val (snap : VoiceSnapshot) (ks : List OpId) (hks : ks.Nodup) (acc : ChanState × Int)
    {k : OpId} (hk : k ∈ ks) :
    ∃ ch, ((ks.foldl (evalOperator P rb pcm g c snap) acc).1.op k).val =
      operatorValue P rb pcm g c k ch snap.v3p ((ks.foldl (evalOperator P rb pcm g c snap) acc).1.op k) := by
  induction ks generalizing acc with
  | nil => exact absurd hk List.not_mem_nil
  | cons j ks ih =>
    obtain ⟨hj, hks⟩ := List.nodup_cons.1 hks
    by_cases hkj : k = j
    · subst hkj
      obtain ⟨v, hop, hv⟩ := evalOperator_op_same P rb pcm g c snap acc k _ rfl
      refine ⟨acc.1, ?_⟩
      rw [List.foldl_cons, evalOperator_foldl_op_of_not_mem P rb pcm g c snap ks _ hj, hop]
      exact hv
    · exact ih hks _ ((List.mem_cons.1 hk).resolve_left hkj)

/-- The value `voice` leaves of an operator. -/
theorem voice_op_val (ch : ChanState) (k : OpId) :
    ∃ ch', ((voice P rb pcm g c ch).1.op k).val =
      operatorValue P rb pcm g c k ch' (snapshot ch).v3p ((voice P rb pcm g c ch).1.op k) :=
  evalOperator_foldl_val P rb pcm g c (snapshot ch) operators (by decide) (ch, 0) (by fin_cases k <;> decide)

/-- A silenced operator has the value 0 after a channel step, whatever resets fire. -/
theorem channelStep_op_val_of_silenced (s : State) (k : OpId) (hpcm : fPcm s.rb c = false)
    (h : fWave s.rb c k = 6 ∨ P.attMax ≤ (((channelStep P c s).1.chan c).op k).att + fTl s.rb c k * 2 ^ 3) :
    (((channelStep P c s).1.chan c).op k).val = 0 := by
  have hkept : (((channelStep P c s).1.chan c).op k).att = (((channelSource P c s).1.chan c).op k).att ∧
      (((channelStep P c s).1.chan c).op k).val = (((channelSource P c s).1.chan c).op k).val := by
    rcases channelStep_op_cases P s c k with hop | hop <;> rw [hop] <;> exact ⟨rfl, rfl⟩
  rw [channelSource_op_of_voice P s c k hpcm] at hkept
  obtain ⟨hatt, hval⟩ := hkept
  obtain ⟨ch, hvoice⟩ := voice_op_val P s.rb s.pcm s.glob c (s.chan c) k
  rw [hatt] at h
  rw [hval, hvoice]
  exact operatorValue_of_silenced _ _ _ _ h

end ValueThroughAdvance

/-- Settles O41: the raw sample is 0 or its gain is, and neither ring modulation nor a phase reset brings a value
back. -/
theorem silencedOperatorHasValueZero : Obligations.SilencedOperatorHasValueZero := by
  unfold Obligations.SilencedOperatorHasValueZero
  intro s c k hpcm
  obtain ⟨u, hu, hchan, -⟩ := advance_channel params s c
  have hused := hu.bytes.usedBitsAgree
  refine ⟨_, exec_adv s, fun h => ?_⟩
  rw [advanceCommand_chan, hchan] at h ⊢
  refine channelStep_op_val_of_silenced params c u k (hused.fPcm.trans hpcm) ?_
  rw [hused.fWave, hused.fTl, Nat.mul_comm]
  exact h

end Sys2Proof.Machine

/-! ## The edges of an evaluation (43_waveform.md R276, R289) -/

namespace Sys2Proof.Machine

/-! ### The sub-fields of `WPAR` -/

theorem fWpar_lt (rb : Memory) (c : ChanId) (k : OpId) : fWpar rb c k < 16 := bits_lt _ 7 4

/-- Bit 2 of `WPAR`, `HALF` of the sine and the triangle, the saw's inversion (43_waveform.md R271). -/
theorem bit_two_eq (wpar : Nat) : bit wpar 2 = decide (wpar / 4 % 2 = 1) := rfl

/-- Bit 3 of `WPAR`, `ABS` of the sine and the triangle, `FIXD` of the pulse (43_waveform.md R271). -/
theorem bit_three_eq {wpar : Nat} (h : wpar < 16) : bit wpar 3 = decide (wpar / 8 = 1) := decide_eq_decide.2 (by omega)

/-- The pulse threshold, `EIGHTHS` × 128 where `FIXD` is set and `DUTY` × 4 else (43_waveform.md R276). -/
theorem pulseThreshold_eq {wpar : Nat} (h : wpar < 16) (duty : Nat) :
    pulseThreshold wpar duty = if wpar / 8 = 1 then wpar % 8 * 128 else duty * 4 := by
  have heighths : bits wpar 2 0 = wpar % 8 := congrArg (· % 8) (Nat.div_one wpar)
  rw [pulseThreshold, bit_three_eq h, heighths]
  exact if_congr decide_eq_true_iff rfl rfl

/-! ### The edges of each waveform -/

section Edges
variable {rb : Memory} {c : ChanId} {k : OpId}

theorem edge_of_saw (h : fWave rb c k = 2) (old new : BitVec 32) (wrapped : Bool) :
    edge rb c k old new wrapped = sawEdge new wrapped := by
  simp only [edge, h]

theorem edge_of_pulse (h : fWave rb c k = 3) (old new : BitVec 32) (wrapped : Bool) :
    edge rb c k old new wrapped = pulseEdge (pulseThreshold (fWpar rb c k) (fDuty rb c)) old new wrapped := by
  simp only [edge, h]

theorem edge_of_other (hsaw : fWave rb c k ≠ 2) (hpulse : fWave rb c k ≠ 3) (old new : BitVec 32) (wrapped : Bool) :
    edge rb c k old new wrapped = none := by
  unfold edge
  split
  · next h => exact absurd h hsaw
  · next h => exact absurd h hpulse
  · rfl

end Edges

section Distances
variable (old step : BitVec 32)

theorem sawEdge_eq :
    sawEdge (old + step) (decide (2 ^ 32 ≤ old.toNat + step.toNat)) =
      if 2 ^ 32 ≤ old.toNat + step.toNat then some (old.toNat + step.toNat - 2 ^ 32) else none := by
  simp only [sawEdge, phaseSum_toNat, decide_eq_true_eq]
  split <;> rfl

theorem pulseEdge_of_constant {t : Nat} (h : t = 0 ∨ 1024 ≤ t) (new : BitVec 32) (wrapped : Bool) :
    pulseEdge t old new wrapped = none := by
  simp only [pulseEdge, h, if_true]

/-- A carry passes phase 0, so the pulse's edge there counts unless the threshold is passed as well. -/
theorem pulseEdge_of_wrapped {t : Nat} (hpos : 0 < t) (hlt : t < 1024) (new : BitVec 32) :
    pulseEdge t old new true =
      if old.toNat < t * 2 ^ 22 ∨ t * 2 ^ 22 ≤ new.toNat then none else some new.toNat := by
  have hvaries : ¬ (t = 0 ∨ 1024 ≤ t) := by omega
  by_cases h : old.toNat < t * 2 ^ 22 ∨ t * 2 ^ 22 ≤ new.toNat <;>
    simp [pulseEdge, hvaries, ← Bool.decide_or, h, -Nat.reducePow]

/-- Without a carry only the threshold can be passed. -/
theorem pulseEdge_of_not_wrapped {t : Nat} (hpos : 0 < t) (hlt : t < 1024) (new : BitVec 32) :
    pulseEdge t old new false =
      if old.toNat < t * 2 ^ 22 ∧ t * 2 ^ 22 ≤ new.toNat then some (new.toNat - t * 2 ^ 22) else none := by
  have hvaries : ¬ (t = 0 ∨ 1024 ≤ t) := by omega
  by_cases h : old.toNat < t * 2 ^ 22 ∧ t * 2 ^ 22 ≤ new.toNat <;>
    simp [pulseEdge, hvaries, ← Bool.decide_and, h, -Nat.reducePow]

/-- The step passes the edge at `e` of the present or of the next cycle. -/
abbrev PassesEdge (e : Nat) : Prop :=
  (old.toNat < e ∧ e ≤ old.toNat + step.toNat) ∨ e + 2 ^ 32 ≤ old.toNat + step.toNat

/-- A pulse that is not constant flags the one edge of phase 0 and its threshold that the step passes. -/
theorem pulseEdge_eq {t : Nat} (hpos : 0 < t) (hlt : t < 1024) :
    pulseEdge t old (old + step) (decide (2 ^ 32 ≤ old.toNat + step.toNat)) =
      if 2 ^ 32 ≤ old.toNat + step.toNat then
        if PassesEdge old step (t * 2 ^ 22) then none else some (old.toNat + step.toNat - 2 ^ 32)
      else if PassesEdge old step (t * 2 ^ 22) then some (old.toNat + step.toNat - t * 2 ^ 22) else none := by
  have hsum := phaseSum_toNat old step
  by_cases hwrap : 2 ^ 32 ≤ old.toNat + step.toNat
  · rw [if_pos hwrap] at hsum ⊢
    rw [decide_eq_true hwrap, pulseEdge_of_wrapped old hpos hlt, hsum]
    exact if_congr (by omega) rfl rfl
  · rw [if_neg hwrap] at hsum ⊢
    rw [decide_eq_false hwrap, pulseEdge_of_not_wrapped old hpos hlt, hsum]
    exact if_congr (by omega) rfl rfl

/-- A distance past an edge is less than the step that passed it. -/
theorem edge_lt_step (rb : Memory) (c : ChanId) (k : OpId) {d : Nat}
    (h : edge rb c k old (old + step) (decide (2 ^ 32 ≤ old.toNat + step.toNat)) = some d) : d < step.toNat := by
  have hold := old.isLt
  by_cases hsaw : fWave rb c k = 2
  · rw [edge_of_saw hsaw, sawEdge_eq] at h
    obtain ⟨hwrap, hd⟩ := Option.ite_none_right_eq_some.1 h
    have hdist := Option.some.inj hd
    omega
  by_cases hpulse : fWave rb c k = 3
  · rw [edge_of_pulse hpulse] at h
    generalize pulseThreshold (fWpar rb c k) (fDuty rb c) = t at h
    by_cases hconst : t = 0 ∨ 1024 ≤ t
    · rw [pulseEdge_of_constant old hconst] at h
      cases h
    · rw [pulseEdge_eq old step (by omega) (by omega)] at h
      split at h
      · obtain ⟨-, hd⟩ := Option.ite_none_left_eq_some.1 h
        have hdist := Option.some.inj hd
        omega
      · obtain ⟨hpass, hd⟩ := Option.ite_none_right_eq_some.1 h
        have hdist := Option.some.inj hd
        omega
  · rw [edge_of_other hsaw hpulse] at h
    cases h

end Distances

/-- Settles O42, by `sawEdge_eq` and `pulseEdge_eq`: the accumulator's sum tells which edges the step passed. -/
theorem edgeDistanceBelowStep : Obligations.EdgeDistanceBelowStep := by
  unfold Obligations.EdgeDistanceBelowStep
  intro rb c k old step x flag threshold e passes
  have hthreshold : pulseThreshold (fWpar rb c k) (fDuty rb c) = threshold :=
    pulseThreshold_eq (fWpar_lt rb c k) (fDuty rb c)
  have hpulse : fWave rb c k = 3 → flag = pulseEdge threshold old (old + step) (decide (2 ^ 32 ≤ x)) := fun h => by
    rw [← hthreshold]
    exact edge_of_pulse h _ _ _
  refine ⟨fun d hd => edge_lt_step old step rb c k hd, fun h => ?_, fun h hconst => ?_, fun h hpos hlt => ?_,
    fun hsaw hpulse => edge_of_other hsaw hpulse _ _ _⟩
  · exact (edge_of_saw h _ _ _).trans (sawEdge_eq old step)
  · rw [hpulse h, pulseEdge_of_constant old hconst]
  · have hflag := (hpulse h).trans (pulseEdge_eq old step hpos hlt)
    refine ⟨fun hwrap hpass => ?_, fun hwrap hpass => ?_, fun hwrap hpass => ?_, fun hwrap hpass => ?_⟩
    · rw [hflag, if_pos hwrap, if_neg hpass]
    · rw [hflag, if_neg hwrap, if_pos hpass]
    · rw [hflag, if_pos hwrap, if_pos hpass]
    · rw [hflag, if_neg hwrap, if_neg hpass]

end Sys2Proof.Machine

/-! ## The skew warp (43_waveform.md R272) -/

namespace Sys2Proof.Machine

section WarpHalf
variable {x y q : Nat}

/-- A part of the warp scales to less than a quarter of the cycle. -/
theorem warpPart_lt (h : x < y) : x * 256 / y < 256 := Nat.div_lt_of_lt_mul (by omega)

theorem warpHalf_lt (hx : x < 512) : warpHalf x q < 512 := by
  by_cases h : x < q
  · rw [warpHalf, if_pos h]
    exact (warpPart_lt h).trans (by decide)
  · rw [warpHalf, if_neg h]
    have hupper := warpPart_lt (by omega : x - q < 512 - q)
    exact Nat.add_lt_add_left hupper 256

/-- Below the corner the warp stays below a quarter of the cycle, from it on it starts there, and both parts rise. -/
theorem warpHalf_mono (hxy : x ≤ y) : warpHalf x q ≤ warpHalf y q := by
  by_cases hx : x < q
  · by_cases hy : y < q
    · rw [warpHalf, warpHalf, if_pos hx, if_pos hy]
      exact Nat.div_le_div_right (by omega)
    · rw [warpHalf, warpHalf, if_pos hx, if_neg hy]
      exact (warpPart_lt hx).le.trans (Nat.le_add_right 256 _)
  · rw [warpHalf, warpHalf, if_neg hx, if_neg (by omega : ¬ y < q)]
    exact Nat.add_le_add_left (Nat.div_le_div_right (by omega)) 256

/-- A corner at the quarter bends nothing. -/
theorem warpHalf_quarter (x : Nat) : warpHalf x 256 = x := by
  simp only [warpHalf]
  split <;> omega

end WarpHalf

section Warp
variable (P : Params) (sk : Nat) {p q : Nat}

theorem warp_of_lower (h : p < 512) : warp P p sk = warpHalf p (P.wq sk) := if_pos h

theorem warp_of_upper (h : 512 ≤ p) : warp P p sk = 512 + warpHalf (p - 512) (P.wq sk) := if_neg (by omega)

theorem warp_zero_skew (p : Nat) : warp P p 0 = p := by
  rcases Nat.lt_or_ge p 512 with h | h
  · rw [warp_of_lower P 0 h, P.wq_zero, warpHalf_quarter]
  · rw [warp_of_upper P 0 h, P.wq_zero, warpHalf_quarter, Nat.add_sub_cancel' h]

theorem warp_mono (hpq : p ≤ q) : warp P p sk ≤ warp P q sk := by
  rcases Nat.lt_or_ge p 512 with hp | hp
  · rw [warp_of_lower P sk hp]
    rcases Nat.lt_or_ge q 512 with hq | hq
    · rw [warp_of_lower P sk hq]
      exact warpHalf_mono hpq
    · rw [warp_of_upper P sk hq]
      exact (warpHalf_lt hp).le.trans (Nat.le_add_right 512 _)
  · rw [warp_of_upper P sk hp, warp_of_upper P sk (hp.trans hpq)]
    exact Nat.add_le_add_left (warpHalf_mono (Nat.sub_le_sub_right hpq 512)) 512

end Warp

/-- Settles O43: each half-cycle is warped by `warpHalf`, which stays below a half-cycle and rises. -/
theorem warpKeepsHalfCycles : Obligations.WarpKeepsHalfCycles := by
  unfold Obligations.WarpKeepsHalfCycles
  refine ⟨fun p _ => warp_zero_skew params p, fun p hp sk _ => ?_, fun p q sk hpq _ _ => warp_mono params sk hpq⟩
  rw [warp_of_lower params sk hp, warp_of_upper params sk (Nat.le_add_left 512 p), Nat.add_sub_cancel]
  have hhalf := warpHalf_lt (q := params.wq sk) hp
  exact ⟨hhalf, Nat.le_add_right 512 _, Nat.add_lt_add_left hhalf 512⟩

end Sys2Proof.Machine

/-! ## The raw sample of each waveform (43_waveform.md R271 to R283) -/

namespace Sys2Proof.Machine

theorem rectify_eq {wpar : Nat} (h : wpar < 16) (v : Int) :
    rectify wpar v = if wpar / 4 % 2 = 1 then max v 0 else if wpar / 8 = 1 then |v| else v := by
  rw [rectify, bit_two_eq, bit_three_eq h]
  simp only [decide_eq_true_eq]

theorem quantBits_eq {quant : Nat} (h : quant < 4) :
    quantBits quant = if quant = 0 then 0 else if quant = 1 then 4 else if quant = 2 then 6 else 8 := by
  interval_cases quant <;> rfl

theorem sawWave_eq (P : Params) (wpar p10 : Nat) :
    sawWave P wpar p10 =
      let zeroed := if wpar % 4 = 0 then 0 else if wpar % 4 = 1 then 4 else if wpar % 4 = 2 then 6 else 8
      let saw : Int := Int.tdiv ((((p10 - p10 % 2 ^ zeroed : Nat) : Int) - 512) * P.waveAmp) 512
      if wpar / 4 % 2 = 1 then -saw else saw := by
  rw [sawWave, bit_two_eq, bits_low_two, quantBits_eq (Nat.mod_lt _ (by decide))]
  exact if_congr decide_eq_true_iff rfl rfl

theorem pulseWave_eq (P : Params) {wpar : Nat} (h : wpar < 16) (duty p10 : Nat) :
    pulseWave P wpar duty p10 =
      if p10 < (if wpar / 8 = 1 then wpar % 8 * 128 else duty * 4) then (P.waveAmp : Int) else -(P.waveAmp : Int) := by
  rw [pulseWave, pulseThreshold_eq h]

theorem pcmWave_eq (P : Params) (pcm : Memory) (base p10 : Nat) :
    pcmWave P pcm base p10 = s8 (Memory.read pcm ((base + p10) % 2 ^ P.pcmBits)).toNat * 2 ^ P.pcmwShift := rfl

/-! ### Landmarks -/

theorem zero_mul_tdiv (a b : Int) : Int.tdiv (0 * b) a = 0 := by rw [Int.zero_mul, Int.zero_tdiv]

theorem tdiv_neg_mul_cancel_left {a : Int} (h : a ≠ 0) (b : Int) : Int.tdiv (-a * b) a = -b := by
  rw [Int.neg_mul, Int.neg_tdiv, Int.mul_tdiv_cancel_left _ h]

section Landmarks
variable (P : Params)

/-- With `WPAR` = 0 there is no skew and no rectifier. -/
theorem sineWave_plain (p10 : Nat) : sineWave P 0 p10 = P.sine p10 := by
  rw [sineWave, bits_low_two, warp_zero_skew]
  rfl

theorem sine_512 : P.sine 512 = 0 := by
  have hhalf : P.sine 0 = -P.sine 512 := P.sine_half 0 (by decide)
  rw [P.sine_zero] at hhalf
  omega

theorem sine_768 : P.sine 768 = -P.waveAmp := by
  have hhalf : P.sine 256 = -P.sine 768 := P.sine_half 256 (by decide)
  rw [P.sine_peak] at hhalf
  omega

theorem triangleWave_plain (p10 : Nat) :
    triangleWave P 0 p10 =
      if p10 < 256 then Int.tdiv ((p10 : Int) * P.waveAmp) 256
      else if p10 < 768 then Int.tdiv ((512 - (p10 : Int)) * P.waveAmp) 256
      else Int.tdiv (((p10 : Int) - 1024) * P.waveAmp) 256 := by
  rw [triangleWave, bits_low_two, warp_zero_skew]
  rfl

theorem sawWave_plain (p10 : Nat) : sawWave P 0 p10 = Int.tdiv (((p10 : Int) - 512) * P.waveAmp) 512 := by
  rw [sawWave_eq]
  simp only [Nat.zero_mod, Nat.zero_div, if_true, pow_zero, Nat.mod_one, Nat.sub_zero, Nat.zero_ne_one, if_false]

theorem sawWave_inverted (p10 : Nat) : sawWave P 4 p10 = -sawWave P 0 p10 := rfl

theorem sawWave_start : sawWave P 0 0 = -P.waveAmp := by
  rw [sawWave_plain]
  exact tdiv_neg_mul_cancel_left (a := 512) (by decide) _

theorem pulseWave_plain (duty p10 : Nat) :
    pulseWave P 0 duty p10 = if p10 < duty * 4 then (P.waveAmp : Int) else -(P.waveAmp : Int) :=
  pulseWave_eq P (by decide) duty p10

end Landmarks

/-- Settles O44: each `WAVE` selects its waveform's arithmetic, which is evaluated at the landmarks. -/
theorem waveformLandmarks : Obligations.WaveformLandmarks := by
  unfold Obligations.WaveformLandmarks
  refine ⟨fun rb pcm c k o p10 => ?_, ?_, ?_, ?_, ?_, ?_, ?_, ?_, ?_, ?_, ?_, ?_, fun duty p10 h => ?_,
    fun duty p10 h => ?_, pcmWave_eq params⟩
  · intro v wpar amp w rectified zeroed saw threshold
    have hwpar : wpar < 16 := fWpar_lt rb c k
    have hraw : v = rawWave params rb pcm c k o p10 := rfl
    have hskew : warp params p10 (bits wpar 1 0) = w := congrArg (warp params p10) (bits_low_two wpar)
    have hrectify : rectify wpar = rectified := funext (rectify_eq hwpar)
    refine ⟨fun h => ?_, fun h => ?_, fun h => ?_, fun h => ?_, fun h => ?_, fun h => ?_, fun h => ?_, fun h => ?_⟩ <;>
      simp only [rawWave, h] at hraw
    · rw [hraw, sineWave, hrectify, hskew]
    · rw [hraw, triangleWave, hrectify, hskew]
    · exact hraw.trans (sawWave_eq params wpar p10)
    · exact hraw.trans (pulseWave_eq params hwpar (fDuty rb c) p10)
    · exact hraw
    · exact hraw
    · exact hraw
    · exact hraw
  · rw [sineWave_plain, params.sine_zero]
  · rw [sineWave_plain, params.sine_peak]
  · rw [sineWave_plain, sine_512]
  · rw [sineWave_plain, sine_768]
  · rw [triangleWave_plain, if_pos (by decide)]
    exact zero_mul_tdiv _ _
  · rw [triangleWave_plain, if_neg (by decide), if_pos (by decide)]
    exact Int.mul_tdiv_cancel_left _ (by decide)
  · rw [triangleWave_plain, if_neg (by decide), if_pos (by decide)]
    exact zero_mul_tdiv _ _
  · rw [triangleWave_plain, if_neg (by decide), if_neg (by decide)]
    exact tdiv_neg_mul_cancel_left (a := 256) (by decide) _
  · exact sawWave_start params
  · rw [sawWave_plain]
    exact zero_mul_tdiv _ _
  · rw [sawWave_inverted, sawWave_start, Int.neg_neg]
  · rw [pulseWave_plain, if_pos h]
  · rw [pulseWave_plain, if_neg (Nat.not_lt.2 h)]

end Sys2Proof.Machine

/-! ## The four evaluations of a voice, in their order (44_modulation.md R310 to R318) -/

namespace Sys2Proof.Machine

section VoiceOrder
variable (P : Params) (rb pcm : Memory) (g : Globals) (c : ChanId) (snap : VoiceSnapshot) (acc : ChanState × Int)

/-! ### One evaluation -/

/-- Operator 0's history of a channel, the newer value first. -/
def ChanState.history (ch : ChanState) : Int × Int := (ch.fb1, ch.fb2)

/-- Operator 0's value enters the history, no other's does (44_modulation.md R318). -/
theorem recordValue_history (k : OpId) (o : OpState) (v : Int) (ch : ChanState) :
    (recordValue k o v ch).history = if k = 0 then (v, ch.fb1) else ch.history := by
  simp only [recordValue]
  split <;> rfl

theorem evalOperator_history_zero :
    (evalOperator P rb pcm g c snap acc 0).1.history =
      (((evalOperator P rb pcm g c snap acc 0).1.op 0).val, acc.1.fb1) := by
  simp only [evalOperator, recordValue_history, recordValue_op, if_true]

theorem evalOperator_history_ne {k : OpId} (h : k ≠ 0) :
    (evalOperator P rb pcm g c snap acc k).1.history = acc.1.history := by
  simp only [evalOperator, recordValue_history, if_neg h]

/-- An evaluation adds the contribution of the operator's new value to the sum (44_modulation.md R316). -/
theorem evalOperator_sum (k : OpId) :
    (evalOperator P rb pcm g c snap acc k).2 = acc.2 + outContribution (fOut rb c k)
      (outValue P rb c k (moveOperator P rb g c snap k (acc.1.op k)) (acc.1.op k).prevOut
        ((evalOperator P rb pcm g c snap acc k).1.op k).val) := by
  obtain ⟨-, -, -, -, -, hprev⟩ := envEval_phase P rb g c k (moveOperator P rb g c snap k (acc.1.op k)).op
  have hmove : (moveOperator P rb g c snap k (acc.1.op k)).op.prevOut = (acc.1.op k).prevOut := by
    rw [moveOperator]
    split <;> rfl
  simp only [evalOperator, recordValue_op, if_true, hprev, hmove]

/-! ### The channel each evaluation starts from -/

variable (ch : ChanState)

/-- The channel and the sum as the operators before `k` leave them. -/
def voiceBefore (k : OpId) : ChanState × Int :=
  (operators.take k).foldl (evalOperator P rb pcm g c (snapshot ch)) (ch, 0)

/-- `voice` is the operators before `k`, then `k`, then the operators after it. -/
theorem voice_split (k : OpId) :
    voice P rb pcm g c ch = (operators.drop (k + 1)).foldl (evalOperator P rb pcm g c (snapshot ch))
      (evalOperator P rb pcm g c (snapshot ch) (voiceBefore P rb pcm g c ch k) k) := by
  fin_cases k <;> rfl

/-- The operators before `k` leave `k` and those after it. -/
theorem voiceBefore_op_of_le {j k : OpId} (h : k ≤ j) : (voiceBefore P rb pcm g c ch k).1.op j = ch.op j :=
  evalOperator_foldl_op_of_not_mem P rb pcm g c _ _ _ (by revert j k; decide)

/-- The evaluation of `k` is the last to write it. -/
theorem voice_op_self (k : OpId) :
    (voice P rb pcm g c ch).1.op k =
      (evalOperator P rb pcm g c (snapshot ch) (voiceBefore P rb pcm g c ch k) k).1.op k := by
  rw [voice_split P rb pcm g c ch k]
  exact evalOperator_foldl_op_of_not_mem P rb pcm g c _ _ _ (by revert k; decide)

/-- The evaluation of `k` sees the operators before it as `voice` leaves them. -/
theorem voiceBefore_op_of_lt {j k : OpId} (h : j < k) :
    (voiceBefore P rb pcm g c ch k).1.op j = (voice P rb pcm g c ch).1.op j := by
  rw [voice_split P rb pcm g c ch k, evalOperator_foldl_op_of_not_mem P rb pcm g c _ _ _ (by revert j k; decide),
    evalOperator_op_ne P rb pcm g c _ _ j k h.ne]

/-! ### What the whole voice leaves -/

/-- The value of operator `k`, from its state after steps A and B, in the channel as the operators before it left
it. -/
theorem voice_val_eq (k : OpId) :
    ((voice P rb pcm g c ch).1.op k).val = operatorValue P rb pcm g c k (voiceBefore P rb pcm g c ch k).1 (ch.op 3).val
      ((voice P rb pcm g c ch).1.op k) := by
  obtain ⟨v, hop, hv⟩ := evalOperator_op_same P rb pcm g c (snapshot ch) (voiceBefore P rb pcm g c ch k) k _ rfl
  rw [voice_op_self, hop]
  exact hv

theorem voice_prevOut (k : OpId) : ((voice P rb pcm g c ch).1.op k).prevOut = ((voice P rb pcm g c ch).1.op k).val := by
  obtain ⟨v, hv⟩ := voice_op P rb pcm g c ch k
  rw [hv]

/-- The evaluation of an operator with one before it sees the new value of its predecessor. -/
theorem voiceBefore_op_predOp {k : OpId} (h : k ≠ 0) :
    (voiceBefore P rb pcm g c ch k).1.op (predOp k) = (voice P rb pcm g c ch).1.op (k - 1) :=
  voiceBefore_op_of_lt P rb pcm g c ch (by revert k; decide)

/-- The modulation input of operator `k` (44_modulation.md R311 to R313). -/
theorem modInput_voiceBefore (k : OpId) :
    modInput P rb c k (voiceBefore P rb pcm g c ch k).1 =
      if fMod rb c k = 0 then 0
      else (if k = 0 then (ch.fb1 + ch.fb2) / 2 else ((voice P rb pcm g c ch).1.op (k - 1)).val) /
        2 ^ P.modShift (fMod rb c k) := by
  by_cases hk : k = 0
  · subst hk
    rfl
  · simp only [modInput, if_neg hk, voiceBefore_op_predOp P rb pcm g c ch hk, asr]

/-- The reference of operator `k`'s ring modulation (44_modulation.md R314). -/
theorem ringSource_voiceBefore (k : OpId) (v3p : Int) :
    ringSource k (voiceBefore P rb pcm g c ch k).1 v3p =
      if k = 0 then v3p else ((voice P rb pcm g c ch).1.op (k - 1)).val := by
  by_cases hk : k = 0
  · rw [ringSource, if_pos hk, if_pos hk]
  · rw [ringSource, if_neg hk, if_neg hk, voiceBefore_op_predOp P rb pcm g c ch hk]

theorem evalOperator_foldl_history (ks : List OpId) (h : 0 ∉ ks) :
    (ks.foldl (evalOperator P rb pcm g c snap) acc).1.history = acc.1.history := by
  induction ks generalizing acc with
  | nil => rfl
  | cons k ks ih =>
    obtain ⟨hk, hks⟩ := not_or.1 (mt List.mem_cons.2 h)
    exact (ih _ hks).trans (evalOperator_history_ne P rb pcm g c snap acc (Ne.symm hk))

theorem voice_history :
    (voice P rb pcm g c ch).1.history = (((voice P rb pcm g c ch).1.op 0).val, ch.fb1) := by
  rw [voice_op_self, voice_split P rb pcm g c ch 0, evalOperator_foldl_history P rb pcm g c _ _ _ (by decide)]
  exact evalOperator_history_zero P rb pcm g c _ _

/-- What operator `k` contributes to the sum of the voice (44_modulation.md R316). -/
def voicePart (k : OpId) : Int :=
  outContribution (fOut rb c k) (outValue P rb c k (moveOperator P rb g c (snapshot ch) k (ch.op k)) (ch.op k).prevOut
    ((voice P rb pcm g c ch).1.op k).val)

theorem evalOperator_voiceBefore_sum (k : OpId) :
    (evalOperator P rb pcm g c (snapshot ch) (voiceBefore P rb pcm g c ch k) k).2 =
      (voiceBefore P rb pcm g c ch k).2 + voicePart P rb pcm g c ch k := by
  rw [evalOperator_sum, voiceBefore_op_of_le P rb pcm g c ch le_rfl, ← voice_op_self]
  rfl

theorem voice_sum :
    (voice P rb pcm g c ch).2 = voicePart P rb pcm g c ch 0 + voicePart P rb pcm g c ch 1 +
      voicePart P rb pcm g c ch 2 + voicePart P rb pcm g c ch 3 := by
  have hsum := evalOperator_voiceBefore_sum P rb pcm g c ch
  calc (voice P rb pcm g c ch).2
      = (voiceBefore P rb pcm g c ch 3).2 + voicePart P rb pcm g c ch 3 := hsum 3
    _ = (voiceBefore P rb pcm g c ch 2).2 + voicePart P rb pcm g c ch 2 + voicePart P rb pcm g c ch 3 :=
        congrArg (· + _) (hsum 2)
    _ = (voiceBefore P rb pcm g c ch 1).2 + voicePart P rb pcm g c ch 1 + voicePart P rb pcm g c ch 2 +
          voicePart P rb pcm g c ch 3 := congrArg (· + _ + _) (hsum 1)
    _ = 0 + voicePart P rb pcm g c ch 0 + voicePart P rb pcm g c ch 1 + voicePart P rb pcm g c ch 2 +
          voicePart P rb pcm g c ch 3 := congrArg (· + _ + _ + _) (hsum 0)
    _ = _ := by rw [Int.zero_add]

end VoiceOrder

end Sys2Proof.Machine

/-! ## A voice through an ADVANCE (44_modulation.md R310 to R319) -/

namespace Sys2Proof.Machine

/-! ### The history behind the source -/

section History
variable (P : Params) (c : ChanId) (s : State)

theorem channelOutput_history (raw : Int) : ((channelOutput P c s raw).1.chan c).history = (s.chan c).history := by
  simp only [channelOutput, State.setChan_chan_same, mutePan, filterStage]
  split <;> split <;> rfl

theorem sweep_history (e : Sweep) : ((sweep c s e).chan c).history = (s.chan c).history := by
  have htimer : ∀ (t : BitVec 16) (ch : ChanState), (setSweepTimer e t ch).history = ch.history := fun t ch => by
    simp only [ChanState.history, setSweepTimer_fb1, setSweepTimer_fb2]
  simp only [sweep]
  split
  · split <;> simp only [State.setRb_chan, State.setChan_chan_same, htimer]
  · rfl

theorem sweeps_history : ((sweeps c s).chan c).history = (s.chan c).history := by
  simp only [sweeps, List.foldl, sweep_history]

theorem phaseResetAction_history (fltReset : Bool) (ch : ChanState) :
    (phaseResetAction P c fltReset ch).history = ch.history := by
  simp only [phaseResetAction]
  split <;> rfl

theorem phaseResets_history : ((phaseResets P c s).chan c).history = (s.chan c).history := by
  simp only [phaseResets, State.setRb_chan, State.setChan_chan_same, apply_ite ChanState.history,
    phaseResetAction_history, ite_self]
  rfl

theorem channelStep_history : ((channelStep P c s).1.chan c).history = ((channelSource P c s).1.chan c).history := by
  rw [channelStep, phaseResets_history, sweeps_history, channelOutput_history]

end History

/-! ### The channel after the ADVANCE -/

/-- The voice of channel `c` in the ADVANCE from `s`: on the registers as they stand, the LFO and `ENVCNT` stepped. -/
def advanceVoice (P : Params) (s : State) (c : ChanId) : ChanState × Int :=
  voice P s.rb s.pcm (advanceGlobals P s.glob) c (s.chan c)

section AdvanceVoice
variable (P : Params) {s : State} {c : ChanId} (hpcm : fPcm s.rb c = false)
include hpcm

/-- The source of a voice-mode channel step is the voice of the ADVANCE, whatever the channels before it did. -/
theorem SeenBy.channelSource {u : State} (hu : SeenBy P c s u) :
    channelSource P c u = (u.setChan c (advanceVoice P s c).1, (advanceVoice P s c).2) := by
  have hused := hu.bytes.usedBitsAgree
  rw [channelSource_of_voice P c u (hused.fPcm.trans hpcm), hu.pcm, hu.chan, hu.glob,
    voice_congr hused ⟨rfl, rfl, rfl⟩]
  rfl

/-- What an ADVANCE does to a channel in voice mode: the channel step behind its voice, then the sum of the voice
committed (46_channel.md R361, R365). -/
theorem advance_channel_of_voice :
    ∃ u, SeenBy P c s u ∧ (channelSource P c u).1.chan c = (advanceVoice P s c).1 ∧
      (advance P s).1.chan c = { (channelStep P c u).1.chan c with prevRaw := (advanceVoice P s c).2 } := by
  obtain ⟨u, hu, hchan, -⟩ := advance_channel P s c
  have hsource := hu.channelSource P hpcm
  have hraw : (channelStep P c u).2.raw = (channelSource P c u).2 := rfl
  exact ⟨u, hu, by rw [hsource, State.setChan_chan_same], by rw [hchan, hraw, hsource]⟩

/-- A phase reset may act on an operator after its evaluation (46_channel.md R383); nothing else does. -/
theorem advance_op_cases (k : OpId) :
    ((advance P s).1.chan c).op k = (advanceVoice P s c).1.op k ∨
      ((advance P s).1.chan c).op k =
        reseed P c k { (advanceVoice P s c).1.op k with phase := 0, wrap := false } := by
  obtain ⟨u, -, hsource, hchan⟩ := advance_channel_of_voice P hpcm
  rw [hchan, ← hsource]
  exact channelStep_op_cases P u c k

theorem advance_op_eq_voice_of_quiet (hquiet : NoPhaseReset s c) (k : OpId) :
    ((advance P s).1.chan c).op k = (advanceVoice P s c).1.op k := by
  obtain ⟨u, hu, hsource, hchan⟩ := advance_channel_of_voice P hpcm
  have hpcm' := hu.bytes.usedBitsAgree.fPcm.trans hpcm
  have hquiet' : NoPhaseReset u c :=
    hquiet.congr (hu.bytes.chByte _ (by decide)) (hu.bytes.chWord _ (by decide)) (by rw [hu.chan])
  rw [hchan, ← hsource, channelSource_op_of_voice P u c k hpcm']
  exact channelStep_op_of_quiet P u c k hpcm' hquiet'

theorem advance_val (k : OpId) : (((advance P s).1.chan c).op k).val = ((advanceVoice P s c).1.op k).val := by
  rcases advance_op_cases P hpcm k with h | h
  · rw [h]
  · rw [h, reseed_val]

theorem advance_prevOut (k : OpId) :
    (((advance P s).1.chan c).op k).prevOut = (((advance P s).1.chan c).op k).val := by
  have hvoice : ((advanceVoice P s c).1.op k).prevOut = ((advanceVoice P s c).1.op k).val := voice_prevOut P _ _ _ c _ k
  rw [advance_val P hpcm, ← hvoice]
  rcases advance_op_cases P hpcm k with h | h
  · rw [h]
  · rw [h, reseed_prevOut]

theorem advance_history :
    ((advance P s).1.chan c).history = ((((advance P s).1.chan c).op 0).val, (s.chan c).fb1) := by
  obtain ⟨u, -, hsource, hchan⟩ := advance_channel_of_voice P hpcm
  have hstep := channelStep_history P c u
  rw [hsource, advanceVoice, voice_history] at hstep
  rw [advance_val P hpcm, hchan]
  exact hstep

theorem advance_prevRaw : ((advance P s).1.chan c).prevRaw = (advanceVoice P s c).2 := by
  obtain ⟨u, -, -, hchan⟩ := advance_channel_of_voice P hpcm
  rw [hchan]

end AdvanceVoice

/-- Settles O40: no stage after the voice touches the history, a value or an interpolation reference. -/
theorem feedbackHistoryShifts : Obligations.FeedbackHistoryShifts := by
  unfold Obligations.FeedbackHistoryShifts
  intro s c hpcm
  obtain ⟨hfb1, hfb2⟩ := Prod.mk.inj (advance_history params hpcm)
  refine ⟨_, exec_adv s, ?_, ?_, fun k => ?_⟩ <;> rw [advanceCommand_chan]
  · exact hfb2
  · exact hfb1
  · exact advance_prevOut params hpcm k

/-! ### Hard sync -/

theorem predOp_eq (k : OpId) : (if k = 0 then 3 else k - 1) = predOp k := by
  revert k
  decide

/-- The accumulator and the noise registers as hard sync and a phase reset leave them (44_modulation.md R315,
46_channel.md R383). -/
structure PhaseZeroed (P : Params) (c : ChanId) (k : OpId) (o : OpState) : Prop where
  phase : o.phase = 0
  wrap : o.wrap = false
  lfsr32 : o.lfsr32 = P.seed32 c k
  lfsr6 : o.lfsr6 = P.seed6 c k

section Sync
variable (P : Params) {s : State} {c : ChanId} {k : OpId}

theorem reseed_phaseZeroed (o : OpState) : PhaseZeroed P c k (reseed P c k { o with phase := 0, wrap := false }) :=
  ⟨rfl, rfl, rfl, rfl⟩

/-- Where hard sync fires, it takes the place of the step and the clocks (44_modulation.md R315). -/
theorem moveOperator_of_synced (g : Globals) (o : OpState) (h : syncFires s c k = true) :
    moveOperator P s.rb g c (snapshot (s.chan c)) k o = syncMove P c k o := by
  rw [syncFires] at h
  rw [moveOperator, snapshot_wraps, h]
  rfl

theorem advanceVoice_phaseZeroed (h : syncFires s c k = true) : PhaseZeroed P c k ((advanceVoice P s c).1.op k) := by
  obtain ⟨v, hop⟩ := voice_op P s.rb s.pcm (advanceGlobals P s.glob) c (s.chan c) k
  rw [moveOperator_of_synced P _ _ h] at hop
  obtain ⟨hphase, hwrap, h32, h6, -, -⟩ := envEval_phase P s.rb (advanceGlobals P s.glob) c k
    (syncMove P c k ((s.chan c).op k)).op
  rw [advanceVoice, hop]
  exact ⟨hphase, hwrap, h32, h6⟩

/-- A phase reset behind a synced evaluation leaves the same. -/
theorem advance_phaseZeroed (hpcm : fPcm s.rb c = false) (h : syncFires s c k = true) :
    PhaseZeroed P c k (((advance P s).1.chan c).op k) := by
  rcases advance_op_cases P hpcm k with hop | hop <;> rw [hop]
  · exact advanceVoice_phaseZeroed P h
  · exact reseed_phaseZeroed P _

end Sync

/-- Settles O29: the wrap of the preceding operator is the one snapshotted before the evaluations. -/
theorem hardSyncZeroesPhase : Obligations.HardSyncZeroesPhase := by
  unfold Obligations.HardSyncZeroesPhase
  intro s c k hpcm hsync hwrap
  rw [predOp_eq] at hwrap
  have hfires : syncFires s c k = true := by rw [syncFires, hsync, hwrap, Bool.and_self]
  obtain ⟨hphase, hwrap', h32, h6⟩ := advance_phaseZeroed params hpcm hfires
  rw [← advanceCommand_chan] at hphase hwrap' h32 h6
  exact ⟨_, exec_adv s, hphase, hwrap', h32, h6⟩

/-! ### Index, gain and ring sign -/

theorem ringSign_eq (ring : Bool) (src value : Int) :
    ringSign ring src value = if ring = true ∧ src < 0 then -value else value := by
  simp only [ringSign, Bool.and_eq_true, decide_eq_true_eq]

/-- Settles O38, by `voice_val_eq`: what an evaluation reads of the operators before it is what the ADVANCE leaves of
them. -/
theorem operatorValueFollowsPipeline : Obligations.OperatorValueFollowsPipeline := by
  unfold Obligations.OperatorValueFollowsPipeline
  intro s c k hpcm hquiet
  refine ⟨_, exec_adv s, ?_⟩
  have hops : ∀ j, ((advanceCommand params s).chan c).op j = (advanceVoice params s c).1.op j := fun j => by
    rw [advanceCommand_chan, advance_op_eq_voice_of_quiet params hpcm hquiet]
  have ham : (advanceCommand params s).glob.amVal = (advanceGlobals params s.glob).amVal := by
    obtain ⟨-, -, ham, -, -⟩ := advance_glob params s
    rw [advanceCommand_glob, ham]
  simp only [hops, ham]
  have hval := voice_val_eq params s.rb s.pcm (advanceGlobals params s.glob) c (s.chan c) k
  rw [operatorValue, modInput_voiceBefore, ringSource_voiceBefore, ringSign_eq, attTotal,
    Nat.mul_comm (fTl s.rb c k)] at hval
  exact hval

/-! ### The sum of the OUT path -/

theorem outContribution_eq (out : Nat) (v : Int) :
    outContribution out v = if out = 0 then 0 else v / 2 ^ (7 - out) := by
  simp only [outContribution, Nat.pos_iff_ne_zero, ite_not, asr]

section OutPath
variable (P : Params)

/-- A step of 0 passes no edge. -/
theorem edge_of_zero_step (rb : Memory) (c : ChanId) (k : OpId) (old : BitVec 32) :
    edge rb c k old (old + 0) (decide (2 ^ 32 ≤ old.toNat + (0 : BitVec 32).toNat)) = none :=
  Option.eq_none_iff_forall_ne_some.2 fun _ hd => Nat.not_lt_zero _ (edge_lt_step old 0 rb c k hd)

/-- The edge that operator `k`'s evaluation in the ADVANCE from `s` flags, none where hard sync takes the place of the
step (44_modulation.md R317). -/
def flaggedEdge (s : State) (c : ChanId) (k : OpId) : Option Nat :=
  let old := ((s.chan c).op k).phase
  let step := phaseStep P s.rb (advanceGlobals P s.glob) c k
  if syncFires s c k then none else edge s.rb c k old (old + step) (decide (2 ^ 32 ≤ old.toNat + step.toNat))

variable (s : State) (c : ChanId) (k : OpId)

/-- The value that counts: blended by the flagged edge, where there is one (44_modulation.md R317). -/
theorem outValue_moveOperator (prev value : Int) :
    outValue P s.rb c k
        (moveOperator P s.rb (advanceGlobals P s.glob) c (snapshot (s.chan c)) k ((s.chan c).op k)) prev value =
      (flaggedEdge P s c k).elim value fun d =>
        P.blend prev value d (phaseStep P s.rb (advanceGlobals P s.glob) c k).toNat := by
  cases hsync : syncFires s c k with
  | true =>
    rw [moveOperator_of_synced P _ _ hsync, flaggedEdge, hsync]
    rfl
  | false =>
    simp only [moveOperator_of_unsynced P s c k _ _ hsync, flaggedEdge, hsync, outValue, stepMove, advancePhase,
      Bool.false_eq_true, if_false]
    by_cases hstep : phaseStep P s.rb (advanceGlobals P s.glob) c k = 0
    · rw [if_pos hstep, hstep, edge_of_zero_step]
      rfl
    · rw [if_neg hstep]
      split <;> next hedge => rw [hedge]; rfl

end OutPath

/-- The bound of the linear blend read from the value's side: what is off the linear blend plus what that is short of
the value. -/
theorem blend_near_value (P : Params) (prev value : Int) {d step : Nat} (h : d < step) :
    128 * step * |P.blend prev value d step - value| ≤ |value - prev| * (128 * (step - d) + step) + 256 * step := by
  have hlinear := P.blend_linear prev value d step h
  have hsplit : step * (P.blend prev value d step - value) =
      (step * (P.blend prev value d step - prev) - (value - prev) * d) - (value - prev) * (step - d) := by ring
  have hshort : |(value - prev) * ((step : Int) - d)| = |value - prev| * (step - d) := by
    rw [abs_mul, abs_of_nonneg (by omega : (0 : Int) ≤ step - d)]
  have htriangle := abs_sub (step * (P.blend prev value d step - prev) - (value - prev) * d)
    ((value - prev) * (step - d))
  rw [← hsplit, abs_mul, Nat.abs_cast, hshort] at htriangle
  linarith

/-- Settles O39: the bounds are the blend's, and the sum is `voice_sum` with each operator's flagged edge. -/
theorem channelSumOfOutLevels : Obligations.ChannelSumOfOutLevels := by
  unfold Obligations.ChannelSumOfOutLevels
  refine ⟨params.blend_zero, fun prev value d step h => blend_near_value params prev value h, fun s c hpcm => ?_⟩
  refine ⟨_, exec_adv s, ?_⟩
  intro blended part
  have hblended : ∀ k, blended k = (flaggedEdge params s c k).elim ((advanceVoice params s c).1.op k).val fun d =>
      params.blend ((s.chan c).op k).prevOut ((advanceVoice params s c).1.op k).val d
        (phaseStep params s.rb (advanceGlobals params s.glob) c k).toNat := fun k => by
    simp only [blended, advanceCommand_chan, advance_val params hpcm, flaggedEdge]
    split <;> next hedge => rw [hedge]; rfl
  have hpart : ∀ k, part k = voicePart params s.rb s.pcm (advanceGlobals params s.glob) c (s.chan c) k := fun k => by
    rw [voicePart, outContribution_eq, outValue_moveOperator]
    simp only [part, hblended]
    rfl
  rw [advanceCommand_chan, advance_prevRaw params hpcm, advanceVoice, voice_sum]
  simp only [hpart]

end Sys2Proof.Machine

/-! ## The LFO and the envelope counter (45_lfo.md R340 to R345, 42_envelope.md R237) -/

namespace Sys2Proof.Machine

section AdvanceGlobals
variable (P : Params) (g : Globals)

theorem advanceGlobals_amCnt : (advanceGlobals P g).amCnt = (g.amCnt + 1) % 13440 := rfl

theorem advanceGlobals_amVal :
    (advanceGlobals P g).amVal = P.amTri ((advanceGlobals P g).amCnt / 64) * P.amd P.lfoAmdSel / 8 := rfl

theorem advanceGlobals_pmCnt : (advanceGlobals P g).pmCnt = (g.pmCnt + 1) % 8192 := rfl

theorem advanceGlobals_pmVal :
    (advanceGlobals P g).pmVal = P.pmWave ((advanceGlobals P g).pmCnt / 1024) * P.pmd P.lfoPmdSel / 128 := rfl

theorem advanceGlobals_envCnt : (advanceGlobals P g).envCnt = g.envCnt + 1 := rfl

end AdvanceGlobals

section AdvanceCommand
variable (P : Params) (s : State)

theorem advanceCommand_pcm : (advanceCommand P s).pcm = s.pcm := by
  rw [advanceCommand_eq, State.complete_pcm, (advance_frame P s).pcm]

theorem advanceCommand_mute : (advanceCommand P s).mute = s.mute := by
  rw [advanceCommand_eq, State.complete_mute, (advance_frame P s).mute]

/-- ADVANCE consumes its word and answers with a stereo pair (30_encoding.md R136). -/
theorem advanceCommand_port : ∃ left right, PortAfter s (advanceCommand P s) (.stereo left right) := by
  have hframe := advance_frame P s
  rw [advanceCommand_eq]
  exact ⟨_, _, State.complete_port hframe.stream hframe.refusalMark _⟩

end AdvanceCommand

/-- Settles O19: the channels and the mixer leave the stepped counters alone (`advance_glob`), and no part of an ADVANCE
writes PCM memory, the mute flags or the port before it completes (`advance_frame`). -/
theorem advanceStepsLfoAndEnvelopeCounter : Obligations.AdvanceStepsLfoAndEnvelopeCounter := by
  unfold Obligations.AdvanceStepsLfoAndEnvelopeCounter
  intro s
  obtain ⟨hamCnt, hpmCnt, hamVal, hpmVal, henvCnt⟩ := advance_glob params s
  obtain ⟨left, right, hport⟩ := advanceCommand_port params s
  refine ⟨_, exec_adv s, ?_, ?_, ?_, ?_, ?_, advanceCommand_pcm params s, advanceCommand_mute params s, hport.stream,
    hport.refusalMark, left, right, hport.response⟩ <;>
    rw [advanceCommand_glob]
  · rw [hamCnt, advanceGlobals_amCnt]
  · rw [hamVal, hamCnt, advanceGlobals_amVal]
  · rw [hpmCnt, advanceGlobals_pmCnt]
  · rw [hpmVal, hpmCnt, advanceGlobals_pmVal]
  · rw [henvCnt, advanceGlobals_envCnt]

/-- The LFO counters of `g'` stand `n` samples on from those of `g`. -/
structure LfoAhead (n : Nat) (g g' : Globals) : Prop where
  amCnt : g'.amCnt = (g.amCnt + n) % 13440
  pmCnt : g'.pmCnt = (g.pmCnt + n) % 8192

section LfoAhead
variable {g g' : Globals} {s : State} {m : Nat}

theorem LfoAhead.refl (ham : g.amCnt < 13440) (hpm : g.pmCnt < 8192) : LfoAhead 0 g g :=
  ⟨(Nat.mod_eq_of_lt ham).symm, (Nat.mod_eq_of_lt hpm).symm⟩

/-- An ADVANCE takes both counters one sample on. -/
theorem LfoAhead.tick (h : LfoAhead m g s.glob) : LfoAhead (m + 1) g (advanceCommand params s).glob := by
  obtain ⟨hamCnt, hpmCnt, -⟩ := advance_glob params s
  rw [advanceCommand_glob]
  constructor
  · rw [hamCnt, advanceGlobals_amCnt, h.amCnt, Nat.mod_add_mod, Nat.add_assoc]
  · rw [hpmCnt, advanceGlobals_pmCnt, h.pmCnt, Nat.mod_add_mod, Nat.add_assoc]

/-- `n` ADVANCEs take both counters `n` samples on. -/
theorem LfoAhead.run (n : Nat) (h : LfoAhead m g s.glob) :
    ∃ t, execAll (List.replicate n .adv) s = .next t ∧ LfoAhead (m + n) g t.glob := by
  induction n generalizing s m with
  | zero => exact ⟨s, rfl, h⟩
  | succ n ih =>
    obtain ⟨t, hrun, ht⟩ := ih h.tick
    exact ⟨t, (execAll_cons (exec_adv s) _).trans hrun, by rwa [Nat.add_comm n 1, ← Nat.add_assoc]⟩

end LfoAhead

/-- A counter modulo `m` is back at its value after the multiples of `m` and no other count. -/
theorem add_mod_eq_self_iff {a m : Nat} (h : a < m) (n : Nat) : (a + n) % m = a ↔ m ∣ n := by
  rw [← Nat.add_modEq_left_iff (a := a), Nat.ModEq, Nat.mod_eq_of_lt h]

/-- Settles O20: `n` ADVANCEs add `n` to each counter modulo its period (`LfoAhead.run`). -/
theorem lfoCountersHaveTheirPeriods : Obligations.LfoCountersHaveTheirPeriods := by
  unfold Obligations.LfoCountersHaveTheirPeriods
  intro s n ham hpm
  obtain ⟨t, hrun, ht⟩ := (LfoAhead.refl ham hpm).run n
  rw [Nat.zero_add] at ht
  refine ⟨t, hrun, ?_, ?_⟩
  · rw [ht.amCnt, add_mod_eq_self_iff ham]
  · rw [ht.pmCnt, add_mod_eq_self_iff hpm]

end Sys2Proof.Machine

/-! ## What each stage of a channel step leaves of the channel (46_channel.md R360) -/

namespace Sys2Proof.Machine

/-! ### The transient state behind each stage -/

section StageChan
variable (P : Params) (c : ChanId) (s : State)

/-- An evaluation writes the operators and operator 0's history (44_modulation.md R318). -/
theorem recordValue_eq (k : OpId) (o : OpState) (v : Int) (ch : ChanState) :
    ∃ ops fb1 fb2, recordValue k o v ch = { ch with ops := ops, fb1 := fb1, fb2 := fb2 } := by
  simp only [recordValue]
  split <;> exact ⟨_, _, _, rfl⟩

theorem voice_eq (rb pcm : Memory) (g : Globals) (ch : ChanState) :
    ∃ ops fb1 fb2, (voice P rb pcm g c ch).1 = { ch with ops := ops, fb1 := fb1, fb2 := fb2 } := by
  have hfold : ∀ (ks : List OpId) (acc : ChanState × Int),
      ∃ ops fb1 fb2, (ks.foldl (evalOperator P rb pcm g c (snapshot ch)) acc).1 =
        { acc.1 with ops := ops, fb1 := fb1, fb2 := fb2 } := by
    intro ks
    induction ks with
    | nil => exact fun acc => ⟨_, _, _, rfl⟩
    | cons k ks ih =>
      intro acc
      obtain ⟨_, _, _, hrest⟩ := ih (evalOperator P rb pcm g c (snapshot ch) acc k)
      obtain ⟨_, _, _, hfirst⟩ : ∃ ops fb1 fb2, (evalOperator P rb pcm g c (snapshot ch) acc k).1 =
        { acc.1 with ops := ops, fb1 := fb1, fb2 := fb2 } := recordValue_eq ..
      rw [hfirst] at hrest
      exact ⟨_, _, _, hrest⟩
  exact hfold operators (ch, 0)

/-- The source moves the operators, the history and the PCM position (46_channel.md R361). -/
theorem channelSource_chan_eq :
    ∃ ops fb1 fb2 frac, (channelSource P c s).1.chan c =
      { s.chan c with ops := ops, fb1 := fb1, fb2 := fb2, pcmFrac := frac } := by
  simp only [channelSource]
  split
  · simp only [pcmAdvance, State.setRb_chan, State.setChan_chan_same]
    exact ⟨_, _, _, _, rfl⟩
  · obtain ⟨ops, fb1, fb2, h⟩ := voice_eq P c s.rb s.pcm s.glob (s.chan c)
    simp only [State.setChan_chan_same, h]
    exact ⟨ops, fb1, fb2, _, rfl⟩

/-- Steps 2 to 6 move the filter (46_channel.md R367, R372). -/
theorem channelOutput_chan_eq (raw : Int) :
    ∃ flow fband fhigh, (channelOutput P c s raw).1.chan c =
      { s.chan c with flow := flow, fband := fband, fhigh := fhigh } := by
  simp only [channelOutput, State.setChan_chan_same, mutePan, filterStage, svfUpdate]
  split <;> split <;> exact ⟨_, _, _, rfl⟩

/-- An enabled sweep engine ticks its timer (46_channel.md R373, R374). -/
theorem sweep_chan (e : Sweep) :
    (sweep c s e).chan c =
      if fSweepEn s.rb c e then setSweepTimer e (countdown (fSpeed s.rb c e) (sweepTimer e (s.chan c))) (s.chan c)
      else s.chan c := by
  simp only [sweep]
  split
  · split <;> simp only [State.setRb_chan, State.setChan_chan_same]
  · rfl

theorem sweep_chan_eq (e : Sweep) : ∃ t, (sweep c s e).chan c = setSweepTimer e t (s.chan c) := by
  rw [sweep_chan]
  split
  · exact ⟨_, rfl⟩
  · exact ⟨sweepTimer e (s.chan c), by cases e <;> rfl⟩

/-- The reset countdown behind the phase resets (46_channel.md R382). -/
def nextRstCnt (c : ChanId) (s : State) : BitVec 16 :=
  if fTimerSync s.rb c then countdown (fResTimer s.rb c) (s.chan c).rstCnt else (s.chan c).rstCnt

/-- A phase reset fires: requested, or the countdown reaches 0 (46_channel.md R381, R382). -/
def resetFires (c : ChanId) (s : State) : Bool :=
  fPhReset s.rb c || (fTimerSync s.rb c && decide (nextRstCnt c s = 0))

theorem phaseResets_chan :
    (phaseResets P c s).chan c =
      if resetFires c s then phaseResetAction P c (fFltReset s.rb c) { s.chan c with rstCnt := nextRstCnt c s }
      else { s.chan c with rstCnt := nextRstCnt c s } := by
  simp only [phaseResets, State.setRb_chan, State.setChan_chan_same]
  rfl

theorem phaseResetAction_eq (fltReset : Bool) (ch : ChanState) :
    ∃ ops flow fband fhigh, phaseResetAction P c fltReset ch =
      { ch with ops := ops, flow := flow, fband := fband, fhigh := fhigh } := by
  simp only [phaseResetAction]
  split <;> exact ⟨_, _, _, _, rfl⟩

/-- The phase resets move the reset countdown, and where one fires the operators and the filter (46_channel.md R383). -/
theorem phaseResets_chan_eq :
    ∃ ops flow fband fhigh, (phaseResets P c s).chan c =
      { s.chan c with ops := ops, flow := flow, fband := fband, fhigh := fhigh, rstCnt := nextRstCnt c s } := by
  rw [phaseResets_chan]
  split
  · exact phaseResetAction_eq P c _ _
  · exact ⟨_, _, _, _, rfl⟩

end StageChan

/-! ### The register bytes behind each stage -/

theorem chByteIndex_ne (c : ChanId) {i j : Nat} (hi : i < 32) (hj : j < 32) (h : i ≠ j) :
    chByteIndex c i ≠ chByteIndex c j := fun heq => h ((chByteIndex_inj c c i j hi hj).1 heq).2

/-- A 16-bit field is its two bytes (30_encoding.md R130). -/
theorem chWord_congr {c : ChanId} {rb rb' : Memory} {j : Nat} (hlow : chByte rb' c j = chByte rb c j)
    (hhigh : chByte rb' c (j + 1) = chByte rb c (j + 1)) : chWord rb' c j = chWord rb c j :=
  congrArg₂ (fun low high => low + 256 * high) hlow hhigh

section StageReads
variable (P : Params) (c : ChanId) (s : State) {a : Nat}

theorem pcmSteps_read_other (n : Nat) (rb : Memory) (hlow : a ≠ chByteIndex c 0x0A) (hhigh : a ≠ chByteIndex c 0x0B) :
    Memory.read (pcmSteps c n rb) a = Memory.read rb a := by
  induction n generalizing rb with
  | zero => rfl
  | succ n ih => exact (ih _).trans (rbWrite16_read_other rb _ _ a hlow hhigh)

/-- The source writes no byte but `PCMPOS` (46_channel.md R363). -/
theorem channelSource_read_other (hlow : a ≠ chByteIndex c 0x0A) (hhigh : a ≠ chByteIndex c 0x0B) :
    Memory.read (channelSource P c s).1.rb a = Memory.read s.rb a := by
  simp only [channelSource]
  split
  · exact pcmSteps_read_other c _ s.rb hlow hhigh
  · rfl

theorem channelSource_chByte {j : Nat} (hj : j < 32) (hlow : j ≠ 0x0A) (hhigh : j ≠ 0x0B) :
    chByte (channelSource P c s).1.rb c j = chByte s.rb c j :=
  congrArg BitVec.toNat (channelSource_read_other P c s (chByteIndex_ne c hj (by decide) hlow)
    (chByteIndex_ne c hj (by decide) hhigh))

/-- The phase resets write no byte but `FLAGS1` (46_channel.md R381). -/
theorem phaseResets_chByte {j : Nat} (hj : j < 32) (h : j ≠ flags1Offset) :
    chByte (phaseResets P c s).rb c j = chByte s.rb c j := by
  refine congrArg BitVec.toNat ?_
  simp only [phaseResets, State.setRb_rb]
  split
  · exact Memory.read_write_other _ _ _ _ (chByteIndex_ne c hj (by decide) h)
  · rfl

end StageReads

/-! ### The stages by name -/

section Sampled
variable (P : Params) (c : ChanId) (s : State)

/-- The state behind steps 1 to 6 of channel `c`'s step, where its sweeps begin (46_channel.md R360). -/
def sampled (P : Params) (c : ChanId) (s : State) : State :=
  (channelOutput P c (channelSource P c s).1 (channelSource P c s).2).1

theorem channelSample_fst : (channelSample P c s).1 = sampled P c (s.beforeChannels P) := rfl

theorem channelStep_fst : (channelStep P c s).1 = phaseResets P c (sweeps c (sampled P c s)) := rfl

theorem sampled_rb : (sampled P c s).rb = (channelSource P c s).1.rb := rfl

theorem sampled_chan_eq :
    ∃ ops fb1 fb2 frac flow fband fhigh, (sampled P c s).chan c =
      { s.chan c with
        ops := ops, fb1 := fb1, fb2 := fb2, pcmFrac := frac, flow := flow, fband := fband, fhigh := fhigh } := by
  obtain ⟨_, _, _, _, hsource⟩ := channelSource_chan_eq P c s
  obtain ⟨_, _, _, hout⟩ := channelOutput_chan_eq P c (channelSource P c s).1 (channelSource P c s).2
  rw [hsource] at hout
  exact ⟨_, _, _, _, _, _, _, hout⟩

theorem sampled_frame : ChanFrame c s (sampled P c s) :=
  (channelSource_frame P c s).trans (channelOutput_frame P c _ _)

theorem sampled_sweepTimer (e : Sweep) : sweepTimer e ((sampled P c s).chan c) = sweepTimer e (s.chan c) := by
  obtain ⟨_, _, _, _, _, _, _, h⟩ := sampled_chan_eq P c s
  rw [h]
  cases e <;> rfl

theorem phaseResets_sweepTimer (e : Sweep) :
    sweepTimer e ((phaseResets P c s).chan c) = sweepTimer e (s.chan c) := by
  obtain ⟨_, _, _, _, h⟩ := phaseResets_chan_eq P c s
  rw [h]
  cases e <;> rfl

theorem sweep_sweepTimer_ne {e e' : Sweep} (h : e ≠ e') :
    sweepTimer e ((sweep c s e').chan c) = sweepTimer e (s.chan c) := by
  obtain ⟨t, ht⟩ := sweep_chan_eq c s e'
  rw [ht, sweepTimer_setSweepTimer_ne e' e t _ h]

end Sampled

end Sys2Proof.Machine

/-! ## One sweep engine through an ADVANCE (46_channel.md R373 to R380) -/

namespace Sys2Proof.Machine

/-! ### What an engine writes and what it reads -/

/-- The channel register offsets engine `e` may write: its target and its `AMT` byte (46_channel.md R376, R379). -/
def sweepWrites : Sweep → List Nat
  | .freq => [0x00, 0x01, 0x12]
  | .vol => [0x02, 0x16]
  | .cut => [0x06, 0x07, 0x1A]

/-- The channel register offsets of engine `e`'s target and descriptor (10_state.md R34, R37). -/
def engineBytes : Sweep → List Nat
  | .freq => [0x00, 0x01, 0x10, 0x11, 0x12, 0x13]
  | .vol => [0x02, 0x14, 0x15, 0x16, 0x17]
  | .cut => [0x06, 0x07, 0x18, 0x19, 0x1A, 0x1B]

theorem engineBytes_lt {e : Sweep} {j : Nat} (h : j ∈ engineBytes e) : j < 32 := by
  revert j
  cases e <;> decide

/-- No engine writes what another reads. -/
theorem not_mem_sweepWrites {e e' : Sweep} (hne : e ≠ e') {j : Nat} (h : j ∈ engineBytes e) : j ∉ sweepWrites e' := by
  have hall : ∀ e e' : Sweep, e ≠ e' → ∀ j ∈ engineBytes e, j ∉ sweepWrites e' := by
    intro e e'
    cases e <;> cases e' <;> decide
  exact hall e e' hne j h

section EngineReads
variable (c : ChanId)

theorem storeTarget_read_of_not_written (e : Sweep) (t : Int) (rb : Memory) {a : Nat}
    (ha : ∀ j ∈ sweepWrites e, a ≠ chByteIndex c j) : Memory.read (storeTarget e c t rb) a = Memory.read rb a := by
  cases e with
  | freq => exact rbWrite16_read_other _ _ _ _ (ha 0x00 (by decide)) (ha 0x01 (by decide))
  | vol => exact Memory.read_write_other _ _ _ _ (ha 0x02 (by decide))
  | cut => exact rbWrite16_read_other _ _ _ _ (ha 0x06 (by decide)) (ha 0x07 (by decide))

theorem sweepFire_read_of_not_written (e : Sweep) (rb : Memory) {a : Nat}
    (ha : ∀ j ∈ sweepWrites e, a ≠ chByteIndex c j) : Memory.read (sweepFire e c rb) a = Memory.read rb a := by
  have htarget := fun t => storeTarget_read_of_not_written c e t rb ha
  simp only [sweepFire]
  split
  · split
    · rw [Memory.read_write_other _ _ _ _ (ha _ (by cases e <;> decide)), htarget]
    · exact htarget _
  · split <;> exact htarget _

theorem sweep_chByte (s : State) (e : Sweep) {j : Nat} (hj : j < 32) (h : j ∉ sweepWrites e) :
    chByte (sweep c s e).rb c j = chByte s.rb c j := by
  have hlt : ∀ i ∈ sweepWrites e, i < 32 := by cases e <;> decide
  have ha : ∀ i ∈ sweepWrites e, chByteIndex c j ≠ chByteIndex c i := fun i hi =>
    chByteIndex_ne c hj (hlt i hi) fun heq => h (heq ▸ hi)
  refine congrArg BitVec.toNat ?_
  simp only [sweep]
  split
  · split
    · exact sweepFire_read_of_not_written c e s.rb ha
    · rfl
  · rfl

end EngineReads

/-! ### Stages that leave an engine alone -/

/-- Engine `e`'s timer, target and descriptor are in `t` as in `s`. -/
structure EngineKept (c : ChanId) (e : Sweep) (s t : State) : Prop where
  timer : sweepTimer e (t.chan c) = sweepTimer e (s.chan c)
  byte : ∀ j ∈ engineBytes e, chByte t.rb c j = chByte s.rb c j

section Kept
variable {c : ChanId} {e : Sweep} {r s t : State}

theorem EngineKept.trans (h : EngineKept c e r s) (h' : EngineKept c e s t) : EngineKept c e r t :=
  ⟨h'.timer.trans h.timer, fun j hj => (h'.byte j hj).trans (h.byte j hj)⟩

/-- Banks that agree on the channel's bytes hold the same engine. -/
theorem EngineKept.of_chanBytes (hb : ChanBytes c s.rb t.rb)
    (ht : sweepTimer e (t.chan c) = sweepTimer e (s.chan c)) : EngineKept c e s t :=
  ⟨ht, fun j hj => hb.chByte j (engineBytes_lt hj)⟩

theorem EngineKept.word (h : EngineKept c e s t) {j : Nat} (hlow : j ∈ engineBytes e) (hhigh : j + 1 ∈ engineBytes e) :
    chWord t.rb c j = chWord s.rb c j :=
  chWord_congr (h.byte j hlow) (h.byte (j + 1) hhigh)

theorem EngineKept.value (h : EngineKept c e s t) : sweepValue t.rb c e = sweepValue s.rb c e := by
  cases e with
  | freq => exact congrArg Int.ofNat (h.word (j := 0x00) (by decide) (by decide))
  | vol => exact congrArg s8 (h.byte 0x02 (by decide))
  | cut => exact congrArg Int.ofNat (h.word (j := 0x06) (by decide) (by decide))

theorem EngineKept.speed (h : EngineKept c e s t) : fSpeed t.rb c e = fSpeed s.rb c e :=
  h.word (by cases e <;> decide) (by cases e <;> decide)

theorem EngineKept.amt (h : EngineKept c e s t) : fAmt t.rb c e = fAmt s.rb c e :=
  h.byte _ (by cases e <;> decide)

theorem EngineKept.bound (h : EngineKept c e s t) : fBound t.rb c e = fBound s.rb c e :=
  h.byte _ (by cases e <;> decide)

theorem EngineKept.mag (h : EngineKept c e s t) : fMag t.rb c e = fMag s.rb c e := congrArg (bits · 4 0) h.amt
theorem EngineKept.up (h : EngineKept c e s t) : fUp t.rb c e = fUp s.rb c e := congrArg (bit · 5) h.amt
theorem EngineKept.wrapF (h : EngineKept c e s t) : fWrapF t.rb c e = fWrapF s.rb c e := congrArg (bit · 6) h.amt
theorem EngineKept.bounce (h : EngineKept c e s t) : fBounce t.rb c e = fBounce s.rb c e := congrArg (bit · 7) h.amt

/-- The enable bit is read from `FLAGS1` alone (46_channel.md R373). -/
theorem fSweepEn_congr {rb rb' : Memory} (h : fFlags1 rb' c = fFlags1 rb c) (e : Sweep) :
    fSweepEn rb' c e = fSweepEn rb c e := by
  cases e <;> simp only [fSweepEn, h]

end Kept

section KeepingStages
variable (P : Params) (c : ChanId) (e : Sweep) (s : State)

theorem sampled_engineKept : EngineKept c e s (sampled P c s) := by
  refine ⟨sampled_sweepTimer P c s e, fun j hj => ?_⟩
  have hpos : j ≠ 0x0A ∧ j ≠ 0x0B := by
    revert j
    cases e <;> decide
  exact channelSource_chByte P c s (engineBytes_lt hj) hpos.1 hpos.2

theorem sweep_engineKept {e' : Sweep} (h : e ≠ e') : EngineKept c e s (sweep c s e') :=
  ⟨sweep_sweepTimer_ne c s h, fun _ hj => sweep_chByte c s e' (engineBytes_lt hj) (not_mem_sweepWrites h hj)⟩

theorem phaseResets_engineKept : EngineKept c e s (phaseResets P c s) := by
  refine ⟨phaseResets_sweepTimer P c s e, fun j hj => phaseResets_chByte P c s (engineBytes_lt hj) ?_⟩
  revert j
  cases e <;> decide

theorem sampled_fFlags1 : fFlags1 (sampled P c s).rb c = fFlags1 s.rb c :=
  channelSource_chByte P c s (by decide) (by decide) (by decide)

theorem sweep_fFlags1 : fFlags1 (sweep c s e).rb c = fFlags1 s.rb c :=
  sweep_chByte c s e (by decide) (by cases e <;> decide)

end KeepingStages

/-! ### The engine an ADVANCE runs -/

/-- The state engine `e` runs on: the engine, its enable bit and the canonical form as before the ADVANCE. -/
structure SeenByEngine (c : ChanId) (e : Sweep) (s v : State) : Prop where
  kept : EngineKept c e s v
  flags1 : fFlags1 v.rb c = fFlags1 s.rb c
  wf : Memory.wf s.rb = true → Memory.wf v.rb = true

section SeenByEngine
variable {P : Params} {c : ChanId} {e : Sweep} {s : State}

theorem SeenByEngine.sampled {u : State} (hu : SeenBy P c s u) : SeenByEngine c e s (Machine.sampled P c u) where
  kept := (EngineKept.of_chanBytes hu.bytes (by rw [hu.chan])).trans (sampled_engineKept P c e u)
  flags1 := (sampled_fFlags1 P c u).trans (hu.bytes.chByte _ (by decide))
  wf h := (sampled_frame P c u).rb.wf (hu.wf h)

theorem SeenByEngine.sweep {v : State} {e' : Sweep} (hv : SeenByEngine c e s v) (h : e ≠ e') :
    SeenByEngine c e s (Machine.sweep c v e') where
  kept := hv.kept.trans (sweep_engineKept c e v h)
  flags1 := (sweep_fFlags1 c e' v).trans hv.flags1
  wf hwf := (sweep_frame c v e').rb.wf (hv.wf hwf)

end SeenByEngine

section EngineThroughAdvance
variable (P : Params) (c : ChanId) (e : Sweep) (s : State)

/-- The engine runs once in a channel step, and no other stage touches it (46_channel.md R360, R373). -/
theorem channelStep_engine {u : State} (hu : SeenBy P c s u) :
    ∃ v, SeenByEngine c e s v ∧ EngineKept c e (sweep c v e) (channelStep P c u).1 := by
  have hstart := SeenByEngine.sampled (e := e) hu
  have hreset := phaseResets_engineKept P c e (sweeps c (sampled P c u))
  cases e with
  | freq =>
    exact ⟨_, hstart, ((sweep_engineKept c _ _ (by decide)).trans (sweep_engineKept c _ _ (by decide))).trans hreset⟩
  | vol => exact ⟨_, hstart.sweep (e' := .freq) (by decide), (sweep_engineKept c _ _ (by decide)).trans hreset⟩
  | cut =>
    exact ⟨_, (hstart.sweep (e' := .freq) (by decide)).sweep (e' := .vol) (by decide), hreset⟩

theorem advance_engine :
    ∃ v, SeenByEngine c e s v ∧ EngineKept c e (sweep c v e) (advanceCommand P s) := by
  obtain ⟨u, hu, hchan, hbytes⟩ := advance_channel P s c
  obtain ⟨v, hv, hstep⟩ := channelStep_engine P c e s hu
  refine ⟨v, hv, hstep.trans (EngineKept.of_chanBytes ?_ ?_)⟩
  · rwa [advanceCommand_rb]
  · rw [advanceCommand_chan, hchan]
    cases e <;> rfl

end EngineThroughAdvance

/-! ### The timer -/

section Timer
variable {c : ChanId} {e : Sweep} {s : State}

theorem countdown_toNat {period : Nat} (h : period < 65536) (t : BitVec 16) :
    (countdown period t).toNat = (if t.toNat = 0 then max period 1 else t.toNat) - 1 := by
  have hzero : (0 : BitVec 16).toNat = 0 := rfl
  have hone : (1 : BitVec 16).toNat = 1 := rfl
  have ht := t.isLt
  simp only [countdown, ← BitVec.toNat_inj, BitVec.toNat_sub, hzero, hone]
  split
  · rw [BitVec.toNat_ofNat]
    omega
  · omega

theorem fSpeed_lt (rb : Memory) (c : ChanId) (e : Sweep) : fSpeed rb c e < 65536 := rbNat16_lt rb _

theorem sweep_timer_of_enabled (h : fSweepEn s.rb c e = true) :
    sweepTimer e ((sweep c s e).chan c) = countdown (fSpeed s.rb c e) (sweepTimer e (s.chan c)) := by
  rw [sweep_chan, if_pos h, sweepTimer_setSweepTimer_same]

/-- An enabled engine fires exactly where its timer reaches 0 (46_channel.md R374). -/
theorem sweep_rb_of_enabled (h : fSweepEn s.rb c e = true) :
    (sweep c s e).rb = if sweepTimer e ((sweep c s e).chan c) = 0 then sweepFire e c s.rb else s.rb := by
  rw [sweep_timer_of_enabled h]
  simp only [sweep, h, if_true]
  split <;> rfl

/-- Short of 0 the engine writes no byte. -/
theorem sweep_rb_of_waiting (h : fSweepEn s.rb c e = false ∨ sweepTimer e ((sweep c s e).chan c) ≠ 0) :
    (sweep c s e).rb = s.rb := by
  cases hen : fSweepEn s.rb c e with
  | false => rw [sweep_of_disabled c s hen]
  | true =>
    rw [sweep_rb_of_enabled hen, if_neg (h.resolve_left (by rw [hen]; exact Bool.noConfusion))]

end Timer

/-- Settles O47: the engine ticks its timer in the state it sees and writes only where the timer reaches 0. -/
theorem sweepTimersCountDown : Obligations.SweepTimersCountDown := by
  unfold Obligations.SweepTimersCountDown
  intro s c e
  obtain ⟨v, hv, hafter⟩ := advance_engine params c e s
  have hen := fSweepEn_congr hv.flags1 e
  refine ⟨_, exec_adv s, fun hoff => ?_, fun hon => ?_, fun hwaits => ?_⟩
  · rw [hafter.timer, sweep_of_disabled c v (hen.trans hoff), hv.kept.timer]
  · rw [hafter.timer, sweep_timer_of_enabled (hen.trans hon), hv.kept.speed, hv.kept.timer,
      countdown_toNat (fSpeed_lt s.rb c e)]
  · rw [hafter.timer, ← hen] at hwaits
    have hrb := sweep_rb_of_waiting hwaits
    rw [hafter.value, hafter.amt, hrb]
    exact ⟨hv.kept.value, hv.kept.amt⟩

/-! ### A firing -/

theorem sweepLo_eq (e : Sweep) : sweepLo e = if e = .vol then -128 else 0 := by cases e <;> rfl

theorem sweepHi_eq (e : Sweep) : sweepHi e = if e = .vol then 127 else 65535 := by cases e <;> rfl

theorem sweepBound_eq (e : Sweep) (b : Nat) : sweepBound e b = if e = .vol then s8 b else 256 * b := by
  cases e with
  | vol => rfl
  | freq => exact Int.mul_comm _ _
  | cut => exact Int.mul_comm _ _

theorem sweepValue_range (rb : Memory) (c : ChanId) (e : Sweep) :
    sweepLo e ≤ sweepValue rb c e ∧ sweepValue rb c e ≤ sweepHi e := by
  cases e with
  | vol => exact s8_range _ (rbNat_lt rb _)
  | freq =>
    have h := rbNat16_lt rb (chByteIndex c 0x00)
    exact ⟨Int.natCast_nonneg _, Int.ofNat_le.2 (Nat.le_of_lt_succ h)⟩
  | cut =>
    have h := rbNat16_lt rb (chByteIndex c 0x06)
    exact ⟨Int.natCast_nonneg _, Int.ofNat_le.2 (Nat.le_of_lt_succ h)⟩

theorem sweepBound_range (e : Sweep) {b : Nat} (h : b < 256) :
    sweepLo e ≤ sweepBound e b ∧ sweepBound e b ≤ sweepHi e := by
  cases e with
  | vol => exact s8_range b h
  | freq => simp only [sweepLo, sweepBound, sweepHi]; omega
  | cut => simp only [sweepLo, sweepBound, sweepHi]; omega

/-- `s8` reads a byte back as the value it stores, where that lies in −128 to 127. -/
theorem s8_wrapTo (v : Int) : s8 (wrapTo 8 v) = (v + 128) % 256 - 128 := by
  have hcast := wrapTo_cast 8 v
  simp only [s8, bit, decide_eq_true_eq]
  split <;> omega

/-- The value an engine stores: bounced, wrapped or clamped (46_channel.md R377 to R380). -/
def sweptValue (rb : Memory) (c : ChanId) (e : Sweep) : Int :=
  let v := sweepValue rb c e
  let lim := sweepLimit e (fUp rb c e) v (sweepBound e (fBound rb c e))
  let t := sweepTarget (fUp rb c e) v (fMag rb c e)
  if fBounce rb c e then sweepReflect e (fUp rb c e) t lim
  else if fWrapF rb c e then sweepWrap e t
  else sweepClamp (fUp rb c e) t lim

/-- The moved value passes the limit of the engine (46_channel.md R379). -/
def sweptPast (rb : Memory) (c : ChanId) (e : Sweep) : Bool :=
  sweepCrosses (fUp rb c e) (sweepTarget (fUp rb c e) (sweepValue rb c e) (fMag rb c e))
    (sweepLimit e (fUp rb c e) (sweepValue rb c e) (sweepBound e (fBound rb c e)))

section Firing
variable {c : ChanId} {e : Sweep}

theorem sweepFire_eq (rb : Memory) :
    sweepFire e c rb =
      if fBounce rb c e && sweptPast rb c e then
        Memory.write (storeTarget e c (sweptValue rb c e) rb) (chByteIndex c (amtOffset e))
          (BitVec.ofNat 8 (flipBit (fAmt rb c e) 5))
      else storeTarget e c (sweptValue rb c e) rb := by
  simp only [sweepFire, sweptValue, sweptPast, amtOffset]
  cases fBounce rb c e with
  | true => rfl
  | false => cases fWrapF rb c e <;> rfl

/-- A target in its range reads back as stored (46_channel.md R380). -/
theorem sweepValue_storeTarget {rb : Memory} (h : Memory.wf rb = true) {t : Int} (hlo : sweepLo e ≤ t)
    (hhi : t ≤ sweepHi e) : sweepValue (storeTarget e c t rb) c e = t := by
  cases e with
  | freq =>
    have hword := rbNat16_rbWrite16 rb h (chByteIndex c 0x00) (wrapTo 16 t) (wrapTo_lt 16 t)
    exact (congrArg Int.ofNat hword).trans (wrapTo_of_range 16 t hlo (Int.lt_add_one_of_le hhi))
  | vol =>
    have hbyte := read_write_toNat h (chByteIndex c 0x02) (wrapTo_lt 8 t)
    refine (congrArg s8 hbyte).trans ?_
    simp only [sweepLo, sweepHi] at hlo hhi
    rw [s8_wrapTo]
    omega
  | cut =>
    have hword := rbNat16_rbWrite16 rb h (chByteIndex c 0x06) (wrapTo 16 t) (wrapTo_lt 16 t)
    exact (congrArg Int.ofNat hword).trans (wrapTo_of_range 16 t hlo (Int.lt_add_one_of_le hhi))

/-- The value that flips `UP` leaves the target alone. -/
theorem sweepValue_write_amt (rb : Memory) (b : Byte) :
    sweepValue (Memory.write rb (chByteIndex c (amtOffset e)) b) c e = sweepValue rb c e := by
  have hbyte : ∀ j < 32, j ≠ amtOffset e →
      chByte (Memory.write rb (chByteIndex c (amtOffset e)) b) c j = chByte rb c j := fun j hj hne =>
    congrArg BitVec.toNat
      (Memory.read_write_other _ _ _ _ (chByteIndex_ne c hj (by cases e <;> decide) hne))
  cases e with
  | freq =>
    exact congrArg Int.ofNat
      (chWord_congr (hbyte 0x00 (by decide) (by decide)) (hbyte 0x01 (by decide) (by decide)))
  | vol => exact congrArg s8 (hbyte 0x02 (by decide) (by decide))
  | cut =>
    exact congrArg Int.ofNat
      (chWord_congr (hbyte 0x06 (by decide) (by decide)) (hbyte 0x07 (by decide) (by decide)))

theorem sweepClamp_eq (up : Bool) (t lim : Int) : sweepClamp up t lim = if up then min lim t else max lim t := by
  cases up <;> simp only [sweepClamp, sweepCrosses, Bool.false_eq_true, if_false, if_true, decide_eq_true_eq] <;>
    split <;> omega

theorem sweepWrap_eq (e : Sweep) (t : Int) : sweepWrap e t = if e = .vol then (t + 128) % 256 - 128 else t % 65536 := by
  cases e with
  | vol => exact s8_wrapTo t
  | freq => exact wrapTo_cast 16 t
  | cut => exact wrapTo_cast 16 t

/-- The limit lies ahead of the value, within the range (46_channel.md R376). -/
theorem sweepLimit_ahead {v b : Int} (up : Bool) (hv : sweepLo e ≤ v ∧ v ≤ sweepHi e)
    (hb : sweepLo e ≤ b ∧ b ≤ sweepHi e) :
    if up then v ≤ sweepLimit e up v b ∧ sweepLimit e up v b ≤ sweepHi e
    else sweepLo e ≤ sweepLimit e up v b ∧ sweepLimit e up v b ≤ v := by
  obtain ⟨hvlo, hvhi⟩ := hv
  obtain ⟨hblo, hbhi⟩ := hb
  cases up <;> simp only [sweepLimit, if_true, Bool.false_eq_true, if_false] <;> split <;> omega

/-- A clamped value lies between the value before and the limit. -/
theorem sweepClamp_range {v lim : Int} (up : Bool) (mag : Nat) (hv : sweepLo e ≤ v ∧ v ≤ sweepHi e)
    (hlim : if up then v ≤ lim ∧ lim ≤ sweepHi e else sweepLo e ≤ lim ∧ lim ≤ v) :
    sweepLo e ≤ sweepClamp up (sweepTarget up v mag) lim ∧ sweepClamp up (sweepTarget up v mag) lim ≤ sweepHi e := by
  rw [sweepClamp_eq, sweepTarget]
  cases up with
  | true => simp only [if_true] at hlim ⊢; omega
  | false => simp only [Bool.false_eq_true, if_false] at hlim ⊢; omega

theorem sweepWrap_range (e : Sweep) (t : Int) : sweepLo e ≤ sweepWrap e t ∧ sweepWrap e t ≤ sweepHi e := by
  rw [sweepWrap_eq, sweepLo_eq, sweepHi_eq]
  split <;> omega

theorem fBound_lt (rb : Memory) (c : ChanId) (e : Sweep) : fBound rb c e < 256 := rbNat_lt rb _

/-- Whatever way it is formed, the stored value lies in the target's range. -/
theorem sweptValue_range (rb : Memory) (c : ChanId) (e : Sweep) :
    sweepLo e ≤ sweptValue rb c e ∧ sweptValue rb c e ≤ sweepHi e := by
  have hv := sweepValue_range rb c e
  have hclamp := sweepClamp_range (fUp rb c e) (fMag rb c e) hv
    (sweepLimit_ahead (fUp rb c e) hv (sweepBound_range e (fBound_lt rb c e)))
  simp only [sweptValue]
  split
  · simp only [sweepReflect]
    split
    · simp only [clamp]
      omega
    · next hnot => rwa [sweepClamp, if_neg hnot] at hclamp
  · split
    · exact sweepWrap_range e _
    · exact hclamp

/-- A firing stores the value. -/
theorem sweepFire_value {rb : Memory} (h : Memory.wf rb = true) :
    sweepValue (sweepFire e c rb) c e = sweptValue rb c e := by
  obtain ⟨hlo, hhi⟩ := sweptValue_range rb c e
  rw [sweepFire_eq]
  split
  · rw [sweepValue_write_amt, sweepValue_storeTarget h hlo hhi]
  · exact sweepValue_storeTarget h hlo hhi

theorem ofNat_flipBit_five (b : Byte) : BitVec.ofNat 8 (flipBit b.toNat 5) = b ^^^ 0x20#8 := by
  revert b
  decide

/-- A firing inverts bit 5 of `AMT` where it bounces, and else keeps the byte (46_channel.md R379). -/
theorem sweepFire_amt {rb : Memory} (h : Memory.wf rb = true) :
    Memory.read (sweepFire e c rb) (chByteIndex c (amtOffset e)) =
      if fBounce rb c e && sweptPast rb c e then Memory.read rb (chByteIndex c (amtOffset e)) ^^^ 0x20#8
      else Memory.read rb (chByteIndex c (amtOffset e)) := by
  rw [sweepFire_eq]
  split
  · rw [Memory.read_write_same _ ((storeTarget_frame e c _ rb).wf h)]
    exact ofNat_flipBit_five _
  · exact BitVec.eq_of_toNat_eq (storeTarget_fAmt c e _ rb)

end Firing

section FiringAdvance
variable (P : Params) {c : ChanId} {e : Sweep} {s v : State}

theorem EngineKept.swept (h : EngineKept c e s v) :
    sweptValue v.rb c e = sweptValue s.rb c e ∧ sweptPast v.rb c e = sweptPast s.rb c e := by
  simp only [sweptValue, sweptPast, h.value, h.up, h.bound, h.mag, h.bounce, h.wrapF, and_self]

theorem EngineKept.amtByte (h : EngineKept c e s v) :
    Memory.read v.rb (chByteIndex c (amtOffset e)) = Memory.read s.rb (chByteIndex c (amtOffset e)) :=
  BitVec.eq_of_toNat_eq h.amt

/-- An engine that fires runs its firing on the fields as they stand before the ADVANCE. -/
theorem advance_of_fires (hwf : Memory.wf s.rb = true) (h : SweepFires s c e) :
    sweepValue (advanceCommand P s).rb c e = sweptValue s.rb c e ∧
      Memory.read (advanceCommand P s).rb (chByteIndex c (amtOffset e)) =
        if fBounce s.rb c e && sweptPast s.rb c e then Memory.read s.rb (chByteIndex c (amtOffset e)) ^^^ 0x20#8
        else Memory.read s.rb (chByteIndex c (amtOffset e)) := by
  obtain ⟨hon, hexpires⟩ := h
  obtain ⟨v, hv, hafter⟩ := advance_engine P c e s
  have hen := (fSweepEn_congr hv.flags1 e).trans hon
  have hfire : (sweep c v e).rb = sweepFire e c v.rb := by
    rw [sweep_rb_of_enabled hen, sweep_timer_of_enabled hen, hv.kept.speed, hv.kept.timer,
      if_pos ((countdown_eq_zero_iff _ (fSpeed_lt s.rb c e) _).2 hexpires)]
  obtain ⟨hvalue, hpast⟩ := hv.kept.swept
  rw [hafter.value, hafter.amtByte, hfire, sweepFire_value (hv.wf hwf), sweepFire_amt (hv.wf hwf), hvalue, hpast,
    hv.kept.bounce, hv.kept.amtByte]
  exact ⟨rfl, rfl⟩

/-- An engine that does not bounce keeps its `AMT` byte. -/
theorem advance_amt_of_fires (hwf : Memory.wf s.rb = true) (h : SweepFires s c e) (hb : fBounce s.rb c e = false) :
    fAmt (advanceCommand P s).rb c e = fAmt s.rb c e := by
  obtain ⟨-, hamt⟩ := advance_of_fires P hwf h
  rw [hb, Bool.false_and, if_neg Bool.false_ne_true] at hamt
  exact congrArg BitVec.toNat hamt

end FiringAdvance

/-! ### The three kinds of firing -/

section Kinds
variable {c : ChanId} {e : Sweep} {rb : Memory}

theorem sweptValue_of_clamp (hb : fBounce rb c e = false) (hw : fWrapF rb c e = false) :
    sweptValue rb c e = sweepClamp (fUp rb c e) (sweepTarget (fUp rb c e) (sweepValue rb c e) (fMag rb c e))
      (sweepLimit e (fUp rb c e) (sweepValue rb c e) (sweepBound e (fBound rb c e))) := by
  simp only [sweptValue, hb, hw, Bool.false_eq_true, if_false]

theorem sweptValue_of_wrap (hb : fBounce rb c e = false) (hw : fWrapF rb c e = true) :
    sweptValue rb c e = sweepWrap e (sweepTarget (fUp rb c e) (sweepValue rb c e) (fMag rb c e)) := by
  simp only [sweptValue, hb, hw, Bool.false_eq_true, if_false, if_true]

theorem sweptValue_of_bounce (hb : fBounce rb c e = true) :
    sweptValue rb c e =
      if sweptPast rb c e then
        clamp (2 * sweepLimit e (fUp rb c e) (sweepValue rb c e) (sweepBound e (fBound rb c e)) -
          sweepTarget (fUp rb c e) (sweepValue rb c e) (fMag rb c e)) (sweepLo e) (sweepHi e)
      else sweepTarget (fUp rb c e) (sweepValue rb c e) (fMag rb c e) := by
  simp only [sweptValue, hb, if_true]
  rfl

theorem sweepCrosses_iff (up : Bool) (t lim : Int) :
    sweepCrosses up t lim = true ↔ up = true ∧ lim < t ∨ up = false ∧ t < lim := by
  cases up <;> simp [sweepCrosses]

end Kinds

/-- Settles O48: the firing engine clamps. -/
theorem sweepClampsAtLimit : Obligations.SweepClampsAtLimit := by
  unfold Obligations.SweepClampsAtLimit
  intro s c e hwf hfires hbounce hwrap
  obtain ⟨hvalue, -⟩ := advance_of_fires params hwf hfires
  refine ⟨_, exec_adv s, ?_, advance_amt_of_fires params hwf hfires hbounce⟩
  rw [hvalue, sweptValue_of_clamp hbounce hwrap, sweepClamp_eq, sweepLimit, sweepTarget, sweepLo_eq, sweepHi_eq,
    sweepBound_eq]
  cases fUp s.rb c e with
  | true => rfl
  | false => rfl

/-- Settles O49: the firing engine wraps. -/
theorem sweepWrapsInWidth : Obligations.SweepWrapsInWidth := by
  unfold Obligations.SweepWrapsInWidth
  intro s c e hwf hfires hbounce hwrap
  obtain ⟨hvalue, -⟩ := advance_of_fires params hwf hfires
  refine ⟨_, exec_adv s, ?_, advance_amt_of_fires params hwf hfires hbounce⟩
  rw [hvalue, sweptValue_of_wrap hbounce hwrap, sweepWrap_eq]
  rfl

/-- Settles O50: the firing engine bounces, and the moved value past the limit is the crossing. -/
theorem sweepBouncesAtLimit : Obligations.SweepBouncesAtLimit := by
  unfold Obligations.SweepBouncesAtLimit
  intro s c e hwf hfires hbounce
  obtain ⟨hvalue, hamt⟩ := advance_of_fires params hwf hfires
  rw [sweptValue_of_bounce hbounce] at hvalue
  rw [hbounce, Bool.true_and] at hamt
  refine ⟨_, exec_adv s, ?_⟩
  intro v lo hi bound lim moved
  have hlim : sweepLimit e (fUp s.rb c e) v (sweepBound e (fBound s.rb c e)) = lim := by
    simp only [lim, bound, lo, hi, sweepLimit, sweepLo_eq, sweepHi_eq, sweepBound_eq]
  have hpast : sweptPast s.rb c e = true ↔ _ := sweepCrosses_iff _ _ _
  have hmoved : sweepTarget (fUp s.rb c e) v (fMag s.rb c e) = moved := rfl
  rw [hlim, hmoved] at hpast hvalue
  rw [← hpast]
  refine ⟨fun hcross => ?_, fun hcross => ?_⟩
  · rw [if_pos hcross] at hvalue hamt
    rw [hvalue, clamp, sweepLo_eq, sweepHi_eq]
    exact ⟨rfl, hamt⟩
  · rw [if_neg hcross] at hvalue hamt
    exact ⟨hvalue, congrArg BitVec.toNat hamt⟩

end Sys2Proof.Machine

/-! ## Engines at rest, and Scenario B (46_channel.md R361, R373, R381, R384) -/

namespace Sys2Proof.Machine

/-- Settles O22: with the engines off the channel step writes no byte, and a disabled engine's timer holds. -/
theorem enginesOffKeepChannelBytes : Obligations.EnginesOffKeepChannelBytes := by
  unfold Obligations.EnginesOffKeepChannelBytes
  intro s c hpcm hsweep hreset
  obtain ⟨u, hu, -, hbytes⟩ := advance_channel params s c
  have hused := hu.bytes.usedBitsAgree
  have hrb := channelStep_rb_of_engines_off params c u (hused.fPcm.trans hpcm)
    (fun e => (hused.fSweepEn e).trans (hsweep e)) (hused.fPhReset.trans hreset)
  refine ⟨_, exec_adv s, fun a ha => ?_, fun e => ?_⟩
  · rw [advanceCommand_rb, hbytes a ha, hrb, hu.bytes a ha]
  · obtain ⟨v, hv, hafter⟩ := advance_engine params c e s
    rw [hafter.timer, sweep_of_disabled c v ((fSweepEn_congr hv.flags1 e).trans (hsweep e)), hv.kept.timer]

/-! ### A volume swept down by 1 at every ADVANCE -/

/-- The volume stands at `v` and its engine, enabled and idle, fires downwards by 1 at every ADVANCE, to 0 at the least
(46_channel.md R384). -/
structure VolumeFalls (c : ChanId) (v : Nat) (s : State) : Prop where
  wf : Memory.wf s.rb = true
  le : v ≤ 127
  vol : chByte s.rb c 0x02 = v
  enabled : fSweepEn s.rb c .vol = true
  speed : fSpeed s.rb c .vol = 1
  amt : fAmt s.rb c .vol = 1
  bound : fBound s.rb c .vol = 0
  idle : sweepTimer .vol (s.chan c) = 0

section VolumeFalls
variable {P : Params} {c : ChanId} {s : State} {v : Nat}

/-- A byte that ADVANCE does not own holds (10_state.md R38). -/
theorem advance_chByte (P : Params) (s : State) {j : Nat} (hj : j < 32) (h : j ∉ advanceOwned) :
    chByte (advanceCommand P s).rb c j = chByte s.rb c j := by
  have hlt : ∀ i ∈ advanceOwned, i < 32 := by decide
  rw [advanceCommand_rb]
  refine congrArg BitVec.toNat ((advance_frame P s).read _ fun d i hi heq => h ?_)
  obtain ⟨-, rfl⟩ := (chByteIndex_inj c d j i hj (hlt i hi)).1 heq
  exact hi

theorem advance_chWord (P : Params) (s : State) {j : Nat} (hj : j < 31) (hlow : j ∉ advanceOwned)
    (hhigh : j + 1 ∉ advanceOwned) : chWord (advanceCommand P s).rb c j = chWord s.rb c j :=
  chWord_congr (advance_chByte P s (by omega) hlow) (advance_chByte P s (by omega) hhigh)

/-- The enable bits hold: ADVANCE writes bit 0 of `FLAGS1` alone. -/
theorem advance_fSweepEn (hwf : Memory.wf s.rb = true) (e : Sweep) :
    fSweepEn (advanceCommand P s).rb c e = fSweepEn s.rb c e := by
  obtain ⟨hflags1, -⟩ := advance_flags P c s hwf
  have hbit : ∀ i, i ≠ 0 → bit (fFlags1 (advanceCommand P s).rb c) i = bit (fFlags1 s.rb c) i := fun i hi => by
    rw [advanceCommand_rb, bit_eq_testBit, bit_eq_testBit]
    exact (hflags1 i hi).symm
  cases e <;> exact hbit _ (by decide)

theorem eq_of_s8_eq {b n : Nat} (hb : b < 256) (h : s8 b = (n : Int)) : b = n := by
  simp only [s8, bit, decide_eq_true_eq] at h
  split at h <;> omega

theorem s8_of_le {v : Nat} (h : v ≤ 127) : s8 v = v := by
  simp only [s8, bit, decide_eq_true_eq]
  split <;> omega

theorem VolumeFalls.fires (h : VolumeFalls c v s) : SweepFires s c .vol :=
  ⟨h.enabled, .inr ⟨h.idle, h.speed.le⟩⟩

/-- The clamped value: 1 less, at least the bound 0. -/
theorem VolumeFalls.swept (h : VolumeFalls c v s) : sweptValue s.rb c .vol = ((v - 1 : Nat) : Int) := by
  have hup : fUp s.rb c .vol = false := by rw [fUp, h.amt]; rfl
  have hmag : fMag s.rb c .vol = 1 := by rw [fMag, h.amt]; rfl
  have hbounce : fBounce s.rb c .vol = false := by rw [fBounce, h.amt]; rfl
  have hwrap : fWrapF s.rb c .vol = false := by rw [fWrapF, h.amt]; rfl
  have hvalue : sweepValue s.rb c .vol = v := (congrArg s8 h.vol).trans (s8_of_le h.le)
  have hbound : sweepBound .vol (fBound s.rb c .vol) = 0 := by rw [h.bound]; rfl
  rw [sweptValue_of_clamp hbounce hwrap, hup, hmag, hvalue, hbound, sweepClamp_eq, sweepTarget, sweepLimit]
  simp only [Bool.false_eq_true, if_false, Int.natCast_nonneg, if_true]
  omega

/-- An ADVANCE takes the volume down by 1 and leaves the engine idle. -/
theorem VolumeFalls.tick (h : VolumeFalls c v s) : VolumeFalls c (v - 1) (advanceCommand P s) := by
  obtain ⟨hvalue, -⟩ := advance_of_fires P h.wf h.fires
  obtain ⟨u, hu, hafter⟩ := advance_engine P c .vol s
  have hbounce : fBounce s.rb c .vol = false := by rw [fBounce, h.amt]; rfl
  exact
    { wf := by rw [advanceCommand_rb]; exact (advance_frame P s).wf h.wf
      le := (Nat.sub_le _ _).trans h.le
      vol := eq_of_s8_eq (rbNat_lt _ _) (hvalue.trans h.swept)
      enabled := (advance_fSweepEn h.wf .vol).trans h.enabled
      speed := (advance_chWord P s (j := 0x14) (by decide) (by decide) (by decide)).trans h.speed
      amt := (advance_amt_of_fires P h.wf h.fires hbounce).trans h.amt
      bound := (advance_chByte P s (by decide) (by decide)).trans h.bound
      idle := by
        rw [hafter.timer, sweep_timer_of_enabled ((fSweepEn_congr hu.flags1 .vol).trans h.enabled), hu.kept.speed,
          hu.kept.timer, h.speed, h.idle]
        rfl }

/-- `n` ADVANCEs take it down by `n`. -/
theorem VolumeFalls.run (n : Nat) (h : VolumeFalls c v s) :
    ∃ t, execAll (List.replicate n .adv) s = .next t ∧ VolumeFalls c (v - n) t := by
  induction n generalizing s v with
  | zero => exact ⟨s, rfl, h⟩
  | succ n ih =>
    obtain ⟨t, hrun, ht⟩ := ih h.tick
    exact ⟨t, (execAll_cons (exec_adv s) _).trans hrun, by rwa [Nat.sub_sub, Nat.add_comm 1 n] at ht⟩

end VolumeFalls

/-- Settles O51, by induction on the ADVANCEs (`VolumeFalls.run`). -/
theorem volumeSweepDownToBound : Obligations.VolumeSweepDownToBound := by
  unfold Obligations.VolumeSweepDownToBound
  intro s c v n hwf hle hvol henabled hspeed hamt hbound hidle
  obtain ⟨t, hrun, ht⟩ := VolumeFalls.run n ⟨hwf, hle, hvol, henabled, hspeed, hamt, hbound, hidle⟩
  exact ⟨t, hrun, ht.vol⟩

end Sys2Proof.Machine

/-! ## Steps 1 to 6 of a channel step through an ADVANCE (46_channel.md R360 to R372) -/

namespace Sys2Proof.Machine

/-! ### What the output stages read -/

/-- The channel register offsets steps 2 to 6 read: `VOL`, `PAN`, `FLAGS0`, `CUTOFF` and `RESON` (10_state.md R34). -/
def outputBytes : List Nat := [0x02, 0x03, flags0Offset, 0x06, 0x07, 0x09]

/-- The states agree on what steps 2 to 6 read besides the channel's transient state (46_channel.md R360). -/
structure OutputInputs (c : ChanId) (s t : State) : Prop where
  byte : ∀ j ∈ outputBytes, chByte t.rb c j = chByte s.rb c j
  mute : t.mute[c] = s.mute[c]
  prevRaw : (t.chan (c + 1)).prevRaw = (s.chan (c + 1)).prevRaw

section OutputInputs
variable {P : Params} {c : ChanId} {r s t u : State}

theorem OutputInputs.trans (h : OutputInputs c r s) (h' : OutputInputs c s t) : OutputInputs c r t :=
  ⟨fun j hj => (h'.byte j hj).trans (h.byte j hj), h'.mute.trans h.mute, h'.prevRaw.trans h.prevRaw⟩

theorem SeenBy.outputInputs (h : SeenBy P c s u) : OutputInputs c s u :=
  ⟨fun _ hj => h.bytes.chByte _ ((by decide : ∀ j ∈ outputBytes, j < 32) _ hj),
    by simp only [h.mute], h.prevRaw _⟩

theorem channelSource_outputInputs (P : Params) (c : ChanId) (s : State) :
    OutputInputs c s (channelSource P c s).1 := by
  have hframe := channelSource_frame P c s
  have hpos : ∀ j ∈ outputBytes, j < 32 ∧ j ≠ 0x0A ∧ j ≠ 0x0B := by decide
  refine ⟨fun j hj => ?_, by simp only [hframe.mute], by rw [hframe.chan _ (nextChannel_ne c)]⟩
  obtain ⟨hlt, hlow, hhigh⟩ := hpos j hj
  exact channelSource_chByte P c s hlt hlow hhigh

theorem OutputInputs.fVol (h : OutputInputs c s t) : fVol t.rb c = fVol s.rb c := congrArg s8 (h.byte _ (by decide))

theorem OutputInputs.fPan (h : OutputInputs c s t) : fPan t.rb c = fPan s.rb c := congrArg s8 (h.byte _ (by decide))

theorem OutputInputs.fReson (h : OutputInputs c s t) : fReson t.rb c = fReson s.rb c := h.byte _ (by decide)

theorem OutputInputs.fCutoff (h : OutputInputs c s t) : fCutoff t.rb c = fCutoff s.rb c :=
  chWord_congr (h.byte 0x06 (by decide)) (h.byte 0x07 (by decide))

theorem OutputInputs.flags0 (h : OutputInputs c s t) (i : Nat) : bit (fFlags0 t.rb c) i = bit (fFlags0 s.rb c) i :=
  congrArg (bit · i) (h.byte _ (by decide))

theorem OutputInputs.fCring (h : OutputInputs c s t) : fCring t.rb c = fCring s.rb c := h.flags0 2
theorem OutputInputs.fFlp (h : OutputInputs c s t) : fFlp t.rb c = fFlp s.rb c := h.flags0 3
theorem OutputInputs.fFhp (h : OutputInputs c s t) : fFhp t.rb c = fFhp s.rb c := h.flags0 4
theorem OutputInputs.fFbp (h : OutputInputs c s t) : fFbp t.rb c = fFbp s.rb c := h.flags0 5

theorem OutputInputs.ring (h : OutputInputs c s t) (raw : Int) : channelRing P c t raw = channelRing P c s raw := by
  simp only [channelRing, h.fCring, h.prevRaw]

theorem OutputInputs.filter (h : OutputInputs c s t) (x : Int) (ch : ChanState) :
    filterStage P t.rb c x ch = filterStage P s.rb c x ch := by
  simp only [filterStage, h.fFlp, h.fFhp, h.fFbp, h.fCutoff, h.fReson]

/-- What steps 2 to 6 make of the channel is a function of those inputs and its transient state. -/
theorem OutputInputs.output (h : OutputInputs c s t) (hc : t.chan c = s.chan c) (raw : Int) :
    (channelOutput P c t raw).1.chan c = (channelOutput P c s raw).1.chan c := by
  simp only [channelOutput, State.setChan_chan_same, h.ring, h.filter, h.fVol, h.fPan, h.mute, hc]

end OutputInputs

/-! ### The step an ADVANCE runs is the one from the state before it -/

section SeenBy
variable {P : Params} {c : ChanId} {s u : State}

/-- The source makes of a channel what it makes of it at the start of the channel steps. -/
theorem SeenBy.source_eq (h : SeenBy P c s u) :
    (Machine.channelSource P c u).1.chan c = (Machine.channelSource P c (s.beforeChannels P)).1.chan c ∧
      (Machine.channelSource P c u).2 = (Machine.channelSource P c (s.beforeChannels P)).2 := by
  have hused := h.bytes.usedBitsAgree
  cases hpcm : fPcm s.rb c with
  | true =>
    have hpcm' := hused.fPcm.trans hpcm
    simp only [Machine.channelSource, State.beforeChannels_rb, hpcm, hpcm', if_true, pcmAdvance, State.setRb_chan,
      State.setChan_chan_same, State.beforeChannels_chan, State.beforeChannels_pcm, h.chan, h.pcm, hused.fFreq,
      hused.fPcmPos, and_self]
  | false =>
    rw [h.channelSource P hpcm, channelSource_of_voice P c (s.beforeChannels P) hpcm, State.setChan_chan_same,
      State.setChan_chan_same]
    exact ⟨rfl, rfl⟩

/-- So do steps 1 to 6. -/
theorem SeenBy.sampled_eq (h : SeenBy P c s u) :
    (sampled P c u).chan c = (channelSample P c s).1.chan c := by
  obtain ⟨hchan, hraw⟩ := h.source_eq
  have hinputs : OutputInputs c (Machine.channelSource P c (s.beforeChannels P)).1 (Machine.channelSource P c u).1 := by
    have hs := channelSource_outputInputs P c (s.beforeChannels P)
    have hu := h.outputInputs.trans (channelSource_outputInputs P c u)
    exact ⟨fun j hj => (hu.byte j hj).trans (hs.byte j hj).symm, hu.mute.trans hs.mute.symm,
      hu.prevRaw.trans hs.prevRaw.symm⟩
  rw [channelSample_fst, sampled, hraw]
  exact hinputs.output hchan _

end SeenBy

/-! ### The phase resets behind them -/

/-- The states agree on what the phase resets read besides the operators and the filter (46_channel.md R381, R382). -/
structure ResetInputs (c : ChanId) (s t : State) : Prop where
  flags1 : fFlags1 t.rb c = fFlags1 s.rb c
  resTimer : fResTimer t.rb c = fResTimer s.rb c
  rstCnt : (t.chan c).rstCnt = (s.chan c).rstCnt

/-- The filter's three accumulators (10_state.md R43). -/
def ChanState.filter (ch : ChanState) : Int × Int × Int := (ch.flow, ch.fband, ch.fhigh)

section ResetInputs
variable {c : ChanId} {s t : State}

theorem ResetInputs.bit_eq (h : ResetInputs c s t) (i : Nat) :
    bit (fFlags1 t.rb c) i = bit (fFlags1 s.rb c) i := congrArg (bit · i) h.flags1

theorem ResetInputs.phReset (h : ResetInputs c s t) : fPhReset t.rb c = fPhReset s.rb c := h.bit_eq 0
theorem ResetInputs.fltReset (h : ResetInputs c s t) : fFltReset t.rb c = fFltReset s.rb c := h.bit_eq 1
theorem ResetInputs.timerSync (h : ResetInputs c s t) : fTimerSync t.rb c = fTimerSync s.rb c :=
  h.bit_eq 3

theorem ResetInputs.next (h : ResetInputs c s t) : nextRstCnt c t = nextRstCnt c s := by
  simp only [nextRstCnt, h.timerSync, h.resTimer, h.rstCnt]

theorem ResetInputs.fires (h : ResetInputs c s t) : resetFires c t = resetFires c s := by
  simp only [resetFires, h.phReset, h.timerSync, h.next]

end ResetInputs

section ResetStages

/-- No stage before the phase resets writes what they read. -/
theorem SeenBy.resetInputs {P : Params} {c : ChanId} {s u : State} (h : SeenBy P c s u) :
    ResetInputs c s (sweeps c (sampled P c u)) where
  flags1 := (sweeps_chByte c _ (by decide) (by decide)).trans
    ((sampled_fFlags1 P c u).trans (h.bytes.chByte _ (by decide)))
  resTimer := by
    have hbyte : ∀ j ∈ [0x1C, 0x1D], chByte (sweeps c (sampled P c u)).rb c j = chByte s.rb c j := fun j hj => by
      have hpos : j < 32 ∧ j ∉ sweepOwned ∧ j ≠ 0x0A ∧ j ≠ 0x0B := by
        revert j
        decide
      obtain ⟨hlt, hsweep, hlow, hhigh⟩ := hpos
      rw [sweeps_chByte c _ hlt hsweep, sampled_rb, channelSource_chByte P c u hlt hlow hhigh, h.bytes.chByte j hlt]
    exact chWord_congr (hbyte 0x1C (by decide)) (hbyte 0x1D (by decide))
  rstCnt := by
    obtain ⟨_, _, _, _, _, _, _, hsampled⟩ := sampled_chan_eq P c u
    rw [sweeps_rstCnt, hsampled, ← h.chan]

variable (P : Params) (c : ChanId) (s : State)

theorem sweeps_filter : ((sweeps c s).chan c).filter = (s.chan c).filter := by
  have hstep : ∀ (s : State) (e : Sweep), ((sweep c s e).chan c).filter = (s.chan c).filter := fun s e => by
    obtain ⟨t, ht⟩ := sweep_chan_eq c s e
    rw [ht]
    cases e <;> rfl
  simp only [sweeps, List.foldl, hstep]

/-- A reset that fires clears the filter where `FLTRESET` is set (46_channel.md R370). -/
theorem phaseResets_filter :
    ((phaseResets P c s).chan c).filter =
      if resetFires c s && fFltReset s.rb c then (0, 0, 0) else (s.chan c).filter := by
  rw [phaseResets_chan]
  cases resetFires c s with
  | false => rfl
  | true => cases hflt : fFltReset s.rb c <;> rfl

theorem phaseResets_op_eq (k : OpId) :
    ((phaseResets P c s).chan c).op k =
      if resetFires c s then reseed P c k { (s.chan c).op k with phase := 0, wrap := false } else (s.chan c).op k := by
  rw [phaseResets_chan]
  cases resetFires c s with
  | false => rfl
  | true =>
    simp only [if_true, phaseResetAction]
    split
    · rw [ChanState.clearFilter_op, ChanState.mapOps_op]
      rfl
    · rw [ChanState.mapOps_op]
      rfl

end ResetStages

theorem channelOutput_pcmFrac (P : Params) (c : ChanId) (s : State) (raw : Int) :
    ((channelOutput P c s raw).1.chan c).pcmFrac = (s.chan c).pcmFrac := by
  obtain ⟨_, _, _, h⟩ := channelOutput_chan_eq P c s raw
  rw [h]

section AdvanceSample
variable (P : Params) (s : State) (c : ChanId)

/-- An operator after an ADVANCE: as steps 1 to 6 leave it, or reset (46_channel.md R383). -/
theorem advance_op_eq (k : OpId) :
    ((advanceCommand P s).chan c).op k =
      if resetFires c s then
        reseed P c k { ((channelSample P c s).1.chan c).op k with phase := 0, wrap := false }
      else ((channelSample P c s).1.chan c).op k := by
  obtain ⟨u, hu, hchan, -⟩ := advance_channel P s c
  have hstep := phaseResets_op_eq P c (sweeps c (sampled P c u)) k
  rw [sweeps_op, hu.resetInputs.fires, hu.sampled_eq] at hstep
  rw [advanceCommand_chan, hchan]
  exact hstep

/-- The filter after an ADVANCE: as steps 1 to 6 leave it, or cleared (46_channel.md R370, R383). -/
theorem advance_filter_eq :
    ((advanceCommand P s).chan c).filter =
      if resetFires c s && fFltReset s.rb c then (0, 0, 0) else ((channelSample P c s).1.chan c).filter := by
  obtain ⟨u, hu, hchan, -⟩ := advance_channel P s c
  have hinputs := hu.resetInputs
  have hstep := phaseResets_filter P c (sweeps c (sampled P c u))
  rw [sweeps_filter, hinputs.fires, hinputs.fltReset, hu.sampled_eq] at hstep
  rw [advanceCommand_chan, hchan]
  exact hstep

theorem advance_rstCnt : ((advanceCommand P s).chan c).rstCnt = nextRstCnt c s := by
  obtain ⟨u, hu, hchan, -⟩ := advance_channel P s c
  obtain ⟨_, _, _, _, hstep⟩ := phaseResets_chan_eq P c (sweeps c (sampled P c u))
  rw [advanceCommand_chan, hchan, channelStep_fst, hstep]
  exact hu.resetInputs.next

theorem advance_prevRaw_eq : ((advanceCommand P s).chan c).prevRaw = (channelSample P c s).2.raw := by
  obtain ⟨u, hu, hchan, -⟩ := advance_channel P s c
  obtain ⟨-, hraw⟩ := hu.source_eq
  rw [advanceCommand_chan, hchan]
  exact hraw

theorem advance_pcmFrac :
    ((advanceCommand P s).chan c).pcmFrac = ((channelSource P c (s.beforeChannels P)).1.chan c).pcmFrac := by
  obtain ⟨u, hu, hchan, -⟩ := advance_channel P s c
  obtain ⟨_, _, _, _, hresets⟩ := phaseResets_chan_eq P c (sweeps c (sampled P c u))
  have hsweep : ∀ (t : State) (e : Sweep), ((sweep c t e).chan c).pcmFrac = (t.chan c).pcmFrac := fun t e => by
    obtain ⟨n, hn⟩ := sweep_chan_eq c t e
    rw [hn, setSweepTimer_pcmFrac]
  have hout : ((channelSample P c s).1.chan c).pcmFrac = _ := channelOutput_pcmFrac P c _ _
  rw [advanceCommand_chan, hchan, channelStep_fst, hresets]
  simp only [sweeps, List.foldl, hsweep, hu.sampled_eq]
  exact hout

theorem advance_history_eq :
    ((advanceCommand P s).chan c).history = ((channelSource P c (s.beforeChannels P)).1.chan c).history := by
  obtain ⟨u, hu, hchan, -⟩ := advance_channel P s c
  obtain ⟨hsource, -⟩ := hu.source_eq
  have hstep := channelStep_history P c u
  rw [hsource] at hstep
  rw [advanceCommand_chan, hchan]
  exact hstep

end AdvanceSample

end Sys2Proof.Machine

/-! ## Phase resets and PCM playback through an ADVANCE (46_channel.md R361 to R363, R381 to R383) -/

namespace Sys2Proof.Machine

/-! ### Where a phase reset fires and where none does -/

section ResetOutcome
variable (P : Params) {s : State} {c : ChanId}

theorem fResTimer_lt (rb : Memory) (c : ChanId) : fResTimer rb c < 65536 := rbNat16_lt rb _

theorem nextRstCnt_of_on (h : fTimerSync s.rb c = true) :
    nextRstCnt c s = countdown (fResTimer s.rb c) (s.chan c).rstCnt := if_pos h

theorem nextRstCnt_of_off (h : fTimerSync s.rb c = false) : nextRstCnt c s = (s.chan c).rstCnt := by
  rw [nextRstCnt, h, if_neg Bool.false_ne_true]

theorem resetFires_iff :
    resetFires c s = true ↔ fPhReset s.rb c = true ∨ (fTimerSync s.rb c = true ∧ nextRstCnt c s = 0) := by
  rw [resetFires, Bool.or_eq_true, Bool.and_eq_true, decide_eq_true_iff]

theorem resetFires_of_quiet (hreq : fPhReset s.rb c = false)
    (hcnt : fTimerSync s.rb c = false ∨ nextRstCnt c s ≠ 0) : resetFires c s = false := by
  refine Bool.eq_false_of_not_eq_true fun h => ?_
  rcases resetFires_iff.1 h with h | ⟨hon, hzero⟩
  · exact Bool.false_ne_true (hreq.symm.trans h)
  · rcases hcnt with hoff | hne
    · exact Bool.false_ne_true (hoff.symm.trans hon)
    · exact hne hzero

theorem NoPhaseReset.resetFires (h : NoPhaseReset s c) : resetFires c s = false := by
  obtain ⟨hreq, hcnt⟩ := h
  cases hsync : fTimerSync s.rb c with
  | false => exact resetFires_of_quiet hreq (.inl hsync)
  | true =>
    refine resetFires_of_quiet hreq (.inr ?_)
    rw [nextRstCnt_of_on hsync, ne_eq, countdown_eq_zero_iff _ (fResTimer_lt s.rb c)]
    exact hcnt.resolve_left (by rw [hsync]; exact Bool.noConfusion)

/-- A reset leaves every operator at phase 0, unwrapped and reseeded, and with `FLTRESET` the filter at 0 (46_channel.md
R370, R383). -/
theorem advance_of_resetFires (h : resetFires c s = true) :
    (∀ k, PhaseZeroed P c k (((advanceCommand P s).chan c).op k)) ∧
      (fFltReset s.rb c = true → ((advanceCommand P s).chan c).filter = (0, 0, 0)) := by
  refine ⟨fun k => ?_, fun hflt => ?_⟩
  · rw [advance_op_eq, if_pos h]
    exact reseed_phaseZeroed P _
  · rw [advance_filter_eq, h, hflt]
    rfl

/-- With no reset operators and filter are what steps 1 to 6 left (46_channel.md R360). -/
theorem advance_of_not_resetFires (h : resetFires c s = false) :
    (∀ k, ((advanceCommand P s).chan c).op k = ((channelSample P c s).1.chan c).op k) ∧
      ((advanceCommand P s).chan c).filter = ((channelSample P c s).1.chan c).filter := by
  refine ⟨fun k => ?_, ?_⟩
  · rw [advance_op_eq, h, if_neg Bool.false_ne_true]
  · rw [advance_filter_eq, h]
    rfl

end ResetOutcome

/-- The three accumulators of equal filters. -/
theorem ChanState.filter_inj {ch : ChanState} {flow fband fhigh : Int} (h : ch.filter = (flow, fband, fhigh)) :
    ch.flow = flow ∧ ch.fband = fband ∧ ch.fhigh = fhigh := by
  obtain ⟨hflow, hrest⟩ := Prod.mk.inj h
  exact ⟨hflow, Prod.mk.inj hrest⟩

theorem ofNat_clearBit_zero (b : Byte) : BitVec.ofNat 8 (clearBit b.toNat 0) = b &&& 0xFE#8 := by
  revert b
  decide

/-- A requested reset is served by clearing its bit (46_channel.md R381). -/
theorem phaseResets_flags1_of_requested {c : ChanId} {s : State} (P : Params) (hwf : Memory.wf s.rb = true)
    (h : fPhReset s.rb c = true) :
    Memory.read (phaseResets P c s).rb (chByteIndex c flags1Offset) =
      Memory.read s.rb (chByteIndex c flags1Offset) &&& 0xFE#8 := by
  simp only [phaseResets, h, if_true, State.setRb_rb]
  rw [Memory.read_write_same _ hwf]
  exact ofNat_clearBit_zero _

/-- Settles O45: the request fires the reset, and no stage before it writes `FLAGS1`. -/
theorem oneShotPhaseReset : Obligations.OneShotPhaseReset := by
  unfold Obligations.OneShotPhaseReset
  intro s c hwf hreq
  obtain ⟨hops, hfilter⟩ := advance_of_resetFires params (resetFires_iff.2 (.inl hreq))
  refine ⟨_, exec_adv s, ?_, fun k => ?_, fun hflt => ChanState.filter_inj (hfilter hflt)⟩
  · obtain ⟨u, hu, -, hbytes⟩ := advance_channel params s c
    have hinputs := hu.resetInputs
    have hlate : Memory.wf (sweeps c (sampled params c u)).rb = true :=
      (sweeps_frame c _).rb.wf ((sampled_frame params c u).rb.wf (hu.wf hwf))
    have hserved := phaseResets_flags1_of_requested params hlate (hinputs.phReset.trans hreq)
    rw [BitVec.eq_of_toNat_eq hinputs.flags1] at hserved
    rw [advanceCommand_rb]
    exact (hbytes _ (by omega)).trans hserved
  · obtain ⟨hphase, hwrap, h32, h6⟩ := hops k
    exact ⟨hphase, hwrap, h32, h6⟩

/-- Settles O46: the countdown behind the ADVANCE is `nextRstCnt`, and it decides with the request whether a reset
fires. -/
theorem periodicPhaseReset : Obligations.PeriodicPhaseReset := by
  unfold Obligations.PeriodicPhaseReset
  intro s c
  have hcnt := advance_rstCnt params s c
  refine ⟨_, exec_adv s, ?_⟩
  intro cnt left
  rw [hcnt]
  refine ⟨nextRstCnt_of_off, fun hon => ⟨?_, fun hzero => ?_⟩, fun hreq hquiet => ?_⟩
  · rw [nextRstCnt_of_on hon]
    exact countdown_toNat (fResTimer_lt s.rb c) _
  · obtain ⟨hops, hfilter⟩ := advance_of_resetFires params (resetFires_iff.2 (.inr ⟨hon, hzero⟩))
    refine ⟨fun k => ?_, fun hflt => ChanState.filter_inj (hfilter hflt)⟩
    obtain ⟨hphase, hwrap, h32, h6⟩ := hops k
    exact ⟨hphase, hwrap, h32, h6⟩
  · obtain ⟨hops, hfilter⟩ := advance_of_not_resetFires params (resetFires_of_quiet hreq hquiet)
    exact ⟨hops, ChanState.filter_inj hfilter⟩

/-! ### PCM playback -/

section Pcm
variable (P : Params) {c : ChanId} {s : State}

theorem channelSource_of_pcm (h : fPcm s.rb c = true) :
    channelSource P c s = (pcmAdvance P c s, shl (pcmSample P s.pcm (fPcmPos s.rb c)) P.pcmShift) := by
  rw [channelSource, if_pos h]

/-- PCM playback moves of a channel's transient state `PCMFRAC` alone (46_channel.md R361, R362). -/
theorem pcmAdvance_chan : (pcmAdvance P c s).chan c =
    { s.chan c with
      pcmFrac := BitVec.ofNat 32 ((fracSum (s.chan c).pcmFrac (fFreq s.rb c)).toNat % P.pcmThresh) } := by
  simp only [pcmAdvance, State.setRb_chan, State.setChan_chan_same]

end Pcm

/-- Settles O23: PCM playback takes the place of the voice. -/
theorem pcmModeHoldsOperators : Obligations.PcmModeHoldsOperators := by
  unfold Obligations.PcmModeHoldsOperators
  intro s c hpcm
  have hsource := channelSource_of_pcm params (s := s.beforeChannels params) hpcm
  have hhistory := advance_history_eq params s c
  rw [hsource, pcmAdvance_chan] at hhistory
  obtain ⟨hfb1, hfb2⟩ := Prod.mk.inj hhistory
  refine ⟨_, exec_adv s, ?_, hfb1, hfb2, fun hquiet k => ?_⟩
  · exact (advance_prevRaw_eq params s c).trans (congrArg Prod.snd hsource)
  · obtain ⟨hops, -⟩ := advance_of_not_resetFires params hquiet.resetFires
    rw [hops, channelSample_fst, sampled, channelOutput_op]
    exact channelSource_op_of_pcm params (s.beforeChannels params) c k hpcm

/-! ### The PCM position -/

/-- One step of the position `p` (46_channel.md R363). -/
def nextPcmPos (bnd rst : Nat) (loop : Bool) (p : Nat) : Nat :=
  if p = bnd then (if loop then rst else p) else (p + 1) % 65536

section PcmPosition
variable (P : Params) {c : ChanId} {rb : Memory}

theorem nextPcmPos_lt {bnd rst p : Nat} (loop : Bool) (hrst : rst < 65536) (hp : p < 65536) :
    nextPcmPos bnd rst loop p < 65536 := by
  rw [nextPcmPos]
  split
  · split <;> assumption
  · exact Nat.mod_lt _ (by decide)

theorem wrapTo_succ (p : Nat) : wrapTo 16 ((p : Int) + 1) = (p + 1) % 65536 := by
  have hcast := wrapTo_cast 16 ((p : Int) + 1)
  omega

theorem pcmStep_eq :
    pcmStep c rb = rbWrite16 rb (chByteIndex c 0x0A)
      (nextPcmPos (fPcmBnd rb c) (fPcmRst rb c) (fPcmLoop rb c) (fPcmPos rb c)) := by
  simp only [pcmStep, nextPcmPos, wrapTo_succ]

theorem fPcmPos_pcmStep (h : Memory.wf rb = true) :
    fPcmPos (pcmStep c rb) c = nextPcmPos (fPcmBnd rb c) (fPcmRst rb c) (fPcmLoop rb c) (fPcmPos rb c) := by
  rw [pcmStep_eq]
  exact rbNat16_rbWrite16 rb h _ _ (nextPcmPos_lt _ (rbNat16_lt rb _) (rbNat16_lt rb _))

/-- A position step leaves `PCMBND`, `PCMRST` and `PCMLOOP`. -/
theorem pcmStep_fields :
    fPcmBnd (pcmStep c rb) c = fPcmBnd rb c ∧ fPcmRst (pcmStep c rb) c = fPcmRst rb c ∧
      fPcmLoop (pcmStep c rb) c = fPcmLoop rb c := by
  have hbyte : ∀ j ∈ [0x05, 0x0C, 0x0D, 0x0E, 0x0F], chByte (pcmStep c rb) c j = chByte rb c j := fun j hj => by
    have hpos : j < 32 ∧ j ≠ 0x0A ∧ j ≠ 0x0B := by
      revert j
      decide
    obtain ⟨hlt, hlow, hhigh⟩ := hpos
    exact congrArg BitVec.toNat (pcmSteps_read_other c 1 rb (chByteIndex_ne c hlt (by decide) hlow)
      (chByteIndex_ne c hlt (by decide) hhigh))
  exact ⟨chWord_congr (hbyte 0x0C (by decide)) (hbyte 0x0D (by decide)),
    chWord_congr (hbyte 0x0E (by decide)) (hbyte 0x0F (by decide)), congrArg (bit · 2) (hbyte 0x05 (by decide))⟩

theorem fPcmPos_pcmSteps (n : Nat) (h : Memory.wf rb = true) :
    fPcmPos (pcmSteps c n rb) c =
      (nextPcmPos (fPcmBnd rb c) (fPcmRst rb c) (fPcmLoop rb c))^[n] (fPcmPos rb c) := by
  induction n generalizing rb with
  | zero => rfl
  | succ n ih =>
    obtain ⟨hbnd, hrst, hloop⟩ := pcmStep_fields (c := c) (rb := rb)
    rw [pcmSteps, ih ((pcmStep_frame c rb).wf h), hbnd, hrst, hloop, fPcmPos_pcmStep h, Function.iterate_succ_apply]

/-- No stage behind the source writes `PCMPOS` (46_channel.md R360). -/
theorem channelStep_fPcmPos (u : State) :
    fPcmPos (channelStep P c u).1.rb c = fPcmPos (channelSource P c u).1.rb c := by
  have hbyte : ∀ j ∈ [0x0A, 0x0B], chByte (channelStep P c u).1.rb c j = chByte (channelSource P c u).1.rb c j :=
    fun j hj => by
      have hpos : j < 32 ∧ j ∉ sweepOwned ∧ j ≠ flags1Offset := by
        revert j
        decide
      obtain ⟨hlt, hsweep, hflags1⟩ := hpos
      rw [channelStep_fst, phaseResets_chByte P c _ hlt hflags1, sweeps_chByte c (sampled P c u) hlt hsweep, sampled_rb]
  exact chWord_congr (hbyte 0x0A (by decide)) (hbyte 0x0B (by decide))

/-- The position after an ADVANCE of a channel in PCM mode. -/
theorem advance_fPcmPos {s : State} (hwf : Memory.wf s.rb = true) (hpcm : fPcm s.rb c = true) :
    fPcmPos (advanceCommand P s).rb c =
      (nextPcmPos (fPcmBnd s.rb c) (fPcmRst s.rb c) (fPcmLoop s.rb c))^[
        min ((fracSum (s.chan c).pcmFrac (fFreq s.rb c)).toNat / P.pcmThresh) P.pcmMaxStep] (fPcmPos s.rb c) := by
  obtain ⟨u, hu, -, hbytes⟩ := advance_channel P s c
  have hused := hu.bytes.usedBitsAgree
  have hpos : fPcmPos (advance P s).1.rb c = _ := hbytes.usedBitsAgree.fPcmPos
  rw [advanceCommand_rb, hpos, channelStep_fPcmPos, channelSource_of_pcm P (hused.fPcm.trans hpcm), ← hu.chan,
    ← hused.fFreq, ← hused.fPcmBnd, ← hused.fPcmRst, ← hused.fPcmLoop, ← hused.fPcmPos,
    ← fPcmPos_pcmSteps _ (hu.wf hwf)]
  rfl

end PcmPosition

/-- Settles O24: `x` is what `PCMFRAC` holds after the addition. -/
theorem pcmPositionAdvances : Obligations.PcmPositionAdvances := by
  unfold Obligations.PcmPositionAdvances
  intro s c hwf hpcm
  have hx := (fracSum (s.chan c).pcmFrac (fFreq s.rb c)).isLt
  refine ⟨_, exec_adv s, _, hx, fracSum_toNat _ _, ?_, advance_fPcmPos params hwf hpcm⟩
  rw [advance_pcmFrac, channelSource_of_pcm params (s := s.beforeChannels params) hpcm, pcmAdvance_chan]
  exact Nat.mod_eq_of_lt ((Nat.mod_le _ _).trans_lt hx)

end Sys2Proof.Machine

/-! ## Ring modulation, volume, filter, mute and pan (46_channel.md R364 to R372) -/

namespace Sys2Proof.Machine

/-! ### The formulas of steps 2 to 6 -/

section OutputFormulas
variable (P : Params) (c : ChanId) (s : State) (rb : Memory)

theorem nextChannel_eq (c : ChanId) : (if c = 8 then 0 else c + 1) = c + 1 := by
  revert c
  decide

theorem channelRing_eq (raw : Int) :
    channelRing P c s raw =
      if fCring s.rb c then raw * (s.chan (if c = 8 then 0 else c + 1)).prevRaw / 2 ^ P.ringShift else raw := by
  rw [nextChannel_eq]
  rfl

theorem applyVolume_invert (x : Int) : applyVolume (-128) x = -x := by
  rw [applyVolume, show x * -128 = -x * 128 by ring, Int.mul_tdiv_cancel _ (by decide)]

theorem applyVolume_silent (x : Int) : applyVolume 0 x = 0 := by
  rw [applyVolume, Int.mul_zero, Int.zero_tdiv]

/-- A factor of magnitude 128 at most, divided by 128 toward zero, raises no magnitude (46_channel.md R366). -/
theorem applyVolume_abs_le {vol : Int} (x : Int) (hlo : -128 ≤ vol) (hhi : vol ≤ 127) : |applyVolume vol x| ≤ |x| := by
  have hvol : vol.natAbs ≤ 128 := by omega
  have hnat : (applyVolume vol x).natAbs ≤ x.natAbs := by
    rw [applyVolume, Int.natAbs_tdiv, Int.natAbs_mul]
    exact Nat.div_le_of_le_mul ((Nat.mul_le_mul_left _ hvol).trans_eq (Nat.mul_comm _ _))
  rw [Int.abs_eq_natAbs, Int.abs_eq_natAbs]
  exact_mod_cast hnat

/-- The channel behind the mute (46_channel.md R372). -/
theorem mutePan_fst (muted : Bool) (pan y : Int) (ch : ChanState) :
    (mutePan P muted pan y ch).1 = if muted then ch.clearFilter else ch := by
  cases muted <;> rfl

/-- Some filter output is selected (46_channel.md R367). -/
abbrev FilterSelected (rb : Memory) (c : ChanId) : Prop :=
  fFlp rb c = true ∨ fFhp rb c = true ∨ fFbp rb c = true

theorem filterStage_of_bypassed (x : Int) (ch : ChanState) (h : ¬ FilterSelected rb c) :
    filterStage P rb c x ch = (ch, x) := by
  simp only [FilterSelected, not_or, Bool.not_eq_true] at h
  obtain ⟨hlp, hhp, hbp⟩ := h
  rw [filterStage, hlp, hhp, hbp]
  rfl

theorem filterStage_of_selected (x : Int) (ch : ChanState) (h : FilterSelected rb c) :
    (filterStage P rb c x ch).1 = svfUpdate P (fCutoff rb c) (fReson rb c) x ch ∧
      (filterStage P rb c x ch).2 =
        (if fFlp rb c then (filterStage P rb c x ch).1.flow else 0) +
          (if fFhp rb c then (filterStage P rb c x ch).1.fhigh else 0) +
          (if fFbp rb c then (filterStage P rb c x ch).1.fband else 0) := by
  have hnone : ¬ (!fFlp rb c && !fFhp rb c && !fFbp rb c) = true := by
    rcases h with h | h | h <;> simp [h]
  simp only [filterStage, if_neg hnone, and_self]

theorem fieldsClear_iff_not_selected :
    (fFlp rb c = false ∧ fFhp rb c = false ∧ fFbp rb c = false) ↔ ¬ FilterSelected rb c := by
  simp only [FilterSelected, not_or, Bool.not_eq_true]

theorem channelOutput_of_muted (raw : Int) (h : s.mute[c] = true) :
    (channelOutput P c s raw).2 = { raw := raw, left := 0, right := 0 } := by
  simp only [channelOutput, h, mutePan, if_true]

theorem channelOutput_of_unmuted (raw : Int) (h : s.mute[c] = false) :
    let f := filterStage P s.rb c (applyVolume (fVol s.rb c) (channelRing P c s raw)) (s.chan c)
    (channelOutput P c s raw).1.chan c = f.1 ∧
      (channelOutput P c s raw).2 =
        { raw := raw, left := f.2 * P.panL (fPan s.rb c) / 2 ^ P.panShift,
          right := f.2 * P.panR (fPan s.rb c) / 2 ^ P.panShift } := by
  simp only [channelOutput, State.setChan_chan_same, h, mutePan, Bool.false_eq_true, if_false, asr, and_self]

end OutputFormulas

/-- Settles O55: each part is the formula of its stage. -/
theorem channelOutputFormula : Obligations.ChannelOutputFormula := by
  unfold Obligations.ChannelOutputFormula
  refine ⟨fun s c raw => channelRing_eq params c s raw, fun x => ⟨applyVolume_invert x, applyVolume_silent x⟩,
    fun vol x hlo hhi => applyVolume_abs_le x hlo hhi, fun s c raw hmute => channelOutput_of_muted params c s raw hmute,
    fun s c raw hmute => ?_⟩
  intro after y
  obtain ⟨hchan, hout⟩ := channelOutput_of_unmuted params c s raw hmute
  have hy : y = (filterStage params s.rb c (applyVolume (fVol s.rb c) (channelRing params c s raw)) (s.chan c)).2 := by
    simp only [y, after, fieldsClear_iff_not_selected]
    by_cases hsel : FilterSelected s.rb c
    · obtain ⟨-, hsum⟩ := filterStage_of_selected params c s.rb
        (applyVolume (fVol s.rb c) (channelRing params c s raw)) (s.chan c) hsel
      rw [if_neg (not_not.2 hsel), hsum, hchan]
    · rw [if_pos hsel, filterStage_of_bypassed params c s.rb _ _ hsel]
      rfl
  rw [hout, hy]

/-! ### The filter through an ADVANCE -/

section FilterThroughAdvance
variable (P : Params) (c : ChanId) (s : State)

/-- The input of channel `c`'s filter in the ADVANCE from `s`: the raw sample ring-modulated and scaled (46_channel.md
R364, R366). -/
def filterInput (P : Params) (c : ChanId) (s : State) : Int :=
  applyVolume (fVol s.rb c) (channelRing P c s (channelSample P c s).2.raw)

/-- The channel behind steps 1 to 6: the filter run on the channel as the source leaves it, and cleared where muted. -/
theorem channelSample_chan :
    (channelSample P c s).1.chan c =
      let ch := (filterStage P s.rb c (filterInput P c s) ((channelSource P c (s.beforeChannels P)).1.chan c)).1
      if s.mute[c] then ch.clearFilter else ch := by
  have hs := channelSource_outputInputs P c (s.beforeChannels P)
  have hraw : (channelSource P c (s.beforeChannels P)).2 = (channelSample P c s).2.raw := rfl
  have hring := fun raw => hs.ring (P := P) raw
  rw [channelSample_fst, sampled, channelOutput]
  simp only [State.setChan_chan_same, mutePan_fst, hs.filter, hs.mute, hs.fVol, hring, hraw]
  rfl

/-- The source leaves the filter alone. -/
theorem channelSource_filter (t : State) : ((channelSource P c t).1.chan c).filter = (t.chan c).filter := by
  obtain ⟨_, _, _, _, h⟩ := channelSource_chan_eq P c t
  rw [h]
  rfl

/-- The update of the filter state: of it, only the filter state counts (46_channel.md R368). -/
theorem svfUpdate_filter (cutoff reson : Nat) (x : Int) (ch : ChanState) :
    let low := P.svfClip (ch.flow + P.svfF cutoff * ch.fband / 65536)
    let high := x * P.svfPregain reson / 256 - low - P.svfQ reson * ch.fband / 256
    (svfUpdate P cutoff reson x ch).filter = (low, P.svfClip (ch.fband + P.svfF cutoff * high / 65536), high) := rfl

theorem svfUpdate_filter_congr (cutoff reson : Nat) (x : Int) {ch ch' : ChanState} (h : ch'.filter = ch.filter) :
    (svfUpdate P cutoff reson x ch').filter = (svfUpdate P cutoff reson x ch).filter := by
  obtain ⟨hflow, hband, -⟩ := ChanState.filter_inj h
  simp only [svfUpdate_filter, hflow, hband]

theorem channelSample_filter_of_bypassed (hmute : s.mute[c] = false) (h : ¬ FilterSelected s.rb c) :
    ((channelSample P c s).1.chan c).filter = (s.chan c).filter := by
  rw [channelSample_chan, filterStage_of_bypassed P c s.rb _ _ h, hmute]
  exact channelSource_filter P c (s.beforeChannels P)

theorem channelSample_filter_of_selected (hmute : s.mute[c] = false) (h : FilterSelected s.rb c) :
    ((channelSample P c s).1.chan c).filter =
      (svfUpdate P (fCutoff s.rb c) (fReson s.rb c) (filterInput P c s) (s.chan c)).filter := by
  obtain ⟨hupdate, -⟩ := filterStage_of_selected P c s.rb (filterInput P c s)
    ((channelSource P c (s.beforeChannels P)).1.chan c) h
  rw [channelSample_chan, hupdate, hmute]
  exact svfUpdate_filter_congr P _ _ _ (channelSource_filter P c (s.beforeChannels P))

/-- A muted channel's filter is cleared (46_channel.md R372). -/
theorem channelSample_filter_of_muted (hmute : s.mute[c] = true) :
    ((channelSample P c s).1.chan c).filter = (0, 0, 0) := by
  rw [channelSample_chan, hmute]
  rfl

theorem advance_filter_of_muted (hmute : s.mute[c] = true) : ((advanceCommand P s).chan c).filter = (0, 0, 0) := by
  rw [advance_filter_eq, channelSample_filter_of_muted P c s hmute, ite_self]

/-- A filter that no reset clears is what steps 1 to 6 left. -/
theorem advance_filter_of_uncleared (h : NoPhaseReset s c ∨ fFltReset s.rb c = false) :
    ((advanceCommand P s).chan c).filter = ((channelSample P c s).1.chan c).filter := by
  have hclear : (resetFires c s && fFltReset s.rb c) = false := by
    rcases h with h | h
    · rw [h.resetFires, Bool.false_and]
    · rw [h, Bool.and_false]
  rw [advance_filter_eq, hclear, if_neg Bool.false_ne_true]

/-- A running filter's low and band accumulators are 0 or values of `SVF_CLIP` (46_channel.md R368, R369). -/
theorem advance_filter_bounded {b : Int} (hb : ∀ v, -b ≤ P.svfClip v ∧ P.svfClip v ≤ b) (h : FilterSelected s.rb c) :
    |((advanceCommand P s).chan c).flow| ≤ b ∧ |((advanceCommand P s).chan c).fband| ≤ b := by
  have hclip : ∀ v, |P.svfClip v| ≤ b := fun v => abs_le.2 (hb v)
  have hzero : |(0 : Int)| ≤ b := abs_zero.trans_le ((abs_nonneg _).trans (hclip 0))
  have hcleared : ∀ ch : ChanState, ch.filter = (0, 0, 0) → |ch.flow| ≤ b ∧ |ch.fband| ≤ b := fun ch hch => by
    obtain ⟨hflow, hband, -⟩ := ChanState.filter_inj hch
    rw [hflow, hband]
    exact ⟨hzero, hzero⟩
  cases hmute : s.mute[c] with
  | true => exact hcleared _ (advance_filter_of_muted P c s hmute)
  | false =>
    have hafter := advance_filter_eq P s c
    split at hafter
    · exact hcleared _ hafter
    · rw [channelSample_filter_of_selected P c s hmute h, svfUpdate_filter] at hafter
      obtain ⟨hflow, hband, -⟩ := ChanState.filter_inj hafter
      rw [hflow, hband]
      exact ⟨hclip _, hclip _⟩

end FilterThroughAdvance

/-- Settles O53: the filter holds or takes its update in step 4, whose order is R368's own; the bound is that of
`SVF_CLIP`. -/
theorem filterBypassHoldsAndClipBounds : Obligations.FilterBypassHoldsAndClipBounds := by
  unfold Obligations.FilterBypassHoldsAndClipBounds
  obtain ⟨b, hb⟩ := params.svfClip_bounded
  refine ⟨b, fun s c => ⟨_, exec_adv s, ?_⟩⟩
  intro selected ch raw ringed x f low high
  refine ⟨fun hmute hquiet => ?_, advance_filter_bounded params c s hb⟩
  have hkept := advance_filter_of_uncleared params c s hquiet
  have hx : filterInput params c s = x := by
    simp only [x, ringed, raw, filterInput, advance_prevRaw_eq, ← channelRing_eq]
    rfl
  refine ⟨fun hsel => ?_, fun hsel => ?_⟩
  · rw [channelSample_filter_of_bypassed params c s hmute hsel] at hkept
    exact ChanState.filter_inj hkept
  · rw [channelSample_filter_of_selected params c s hmute hsel, hx, svfUpdate_filter] at hkept
    obtain ⟨hflow, hband, hhigh⟩ := ChanState.filter_inj hkept
    exact ⟨hflow, hhigh, hband⟩

end Sys2Proof.Machine

/-! ## What the mute flags decide (46_channel.md R372) -/

namespace Sys2Proof.Machine

/-! ### One channel step under two mute flags -/

/-- Channel `c` in two runs that differ in mute flags: the same register bank, a channel that differs in the filter at
most, and the same channel where `same` holds. -/
structure FilterTwins (c : ChanId) (same : Prop) (s s' : State) : Prop where
  rb : s'.rb = s.rb
  filterless : (s'.chan c).clearFilter = (s.chan c).clearFilter
  chan : same → s'.chan c = s.chan c

section FilterTwins
variable {P : Params} {c : ChanId} {same : Prop} {s s' : State}

/-- The source reads no mute flag. -/
theorem channelSource_congr (hrb : s'.rb = s.rb) (hpcm : s'.pcm = s.pcm) (hglob : s'.glob = s.glob)
    (hc : s'.chan c = s.chan c) :
    (channelSource P c s').1.rb = (channelSource P c s).1.rb ∧
      (channelSource P c s').1.chan c = (channelSource P c s).1.chan c ∧
      (channelSource P c s').2 = (channelSource P c s).2 := by
  cases hmode : fPcm s.rb c with
  | true =>
    simp only [channelSource, hrb, hmode, if_true, pcmAdvance, State.setRb_rb, State.setRb_chan,
      State.setChan_chan_same, hpcm, hc, and_self]
  | false =>
    simp only [channelSource, hrb, hmode, Bool.false_eq_true, if_false, State.setChan_rb, State.setChan_chan_same, hpcm,
      hglob, hc, and_self]

/-- The output stages put the mute flag into the filter alone. -/
theorem channelOutput_twins (hrb : s'.rb = s.rb) (hc : s'.chan c = s.chan c)
    (hprev : (s'.chan (c + 1)).prevRaw = (s.chan (c + 1)).prevRaw) (raw : Int) :
    FilterTwins c (s'.mute[c] = s.mute[c]) (channelOutput P c s raw).1 (channelOutput P c s' raw).1 := by
  have hring : channelRing P c s' raw = channelRing P c s raw := by simp only [channelRing, hrb, hprev]
  refine ⟨hrb, ?_, fun hmute => ?_⟩
  · have hidem : ∀ ch : ChanState, ch.clearFilter.clearFilter = ch.clearFilter := fun _ => rfl
    simp only [channelOutput, State.setChan_chan_same, mutePan_fst, hring, hrb, hc, apply_ite ChanState.clearFilter,
      hidem, ite_self]
  · simp only [channelOutput, State.setChan_chan_same, mutePan_fst, hring, hrb, hc, hmute]

theorem FilterTwins.timer (h : FilterTwins c same s s') (e : Sweep) :
    sweepTimer e (s'.chan c) = sweepTimer e (s.chan c) := by
  have hclear : ∀ ch : ChanState, sweepTimer e ch.clearFilter = sweepTimer e ch := fun ch => by cases e <;> rfl
  rw [← hclear, h.filterless, hclear]

/-- A sweep engine reads the bank and its timer, and neither the filter nor the mute flag. -/
theorem FilterTwins.sweep (h : FilterTwins c same s s') (e : Sweep) :
    FilterTwins c same (sweep c s e) (sweep c s' e) := by
  have hset : ∀ (n : BitVec 16) (ch : ChanState),
      (setSweepTimer e n ch).clearFilter = setSweepTimer e n ch.clearFilter := fun n ch => by cases e <;> rfl
  refine ⟨?_, ?_, fun hsame => ?_⟩
  · simp only [Machine.sweep, h.rb, h.timer]
    split
    · split
      · rfl
      · exact h.rb
    · exact h.rb
  · simp only [sweep_chan, h.rb, h.timer, apply_ite ChanState.clearFilter, hset, h.filterless]
  · simp only [sweep_chan, h.rb, h.chan hsame]

/-- Beside the filter the phase resets leave what they make of the channel with its filter cleared. -/
theorem phaseResets_clearFilter (P : Params) (c : ChanId) (s : State) :
    ((phaseResets P c s).chan c).clearFilter =
      if resetFires c s then phaseResetAction P c false { (s.chan c).clearFilter with rstCnt := nextRstCnt c s }
      else { (s.chan c).clearFilter with rstCnt := nextRstCnt c s } := by
  rw [phaseResets_chan]
  cases resetFires c s with
  | false => rfl
  | true => cases fFltReset s.rb c <;> rfl

/-- The phase resets read the filter and the mute flag as little. -/
theorem FilterTwins.phaseResets (h : FilterTwins c same s s') :
    FilterTwins c same (phaseResets P c s) (phaseResets P c s') := by
  have hcnt : (s'.chan c).rstCnt = (s.chan c).rstCnt := by
    rw [← ChanState.clearFilter_rstCnt, h.filterless, ChanState.clearFilter_rstCnt]
  have hnext : nextRstCnt c s' = nextRstCnt c s := by simp only [nextRstCnt, h.rb, hcnt]
  have hfires : resetFires c s' = resetFires c s := by simp only [resetFires, h.rb, hnext]
  refine ⟨?_, ?_, fun hsame => ?_⟩
  · simp only [Machine.phaseResets, State.setRb_rb, h.rb]
  · rw [phaseResets_clearFilter, phaseResets_clearFilter, hfires, hnext, h.filterless]
  · rw [phaseResets_chan, phaseResets_chan, hfires, hnext, h.rb, h.chan hsame]

end FilterTwins

/-! ### All channel steps -/

/-- Two runs that differ in mute flags, the channels of `cs` not stepped yet: they differ in the filters of the channels
stepped under different flags alone. -/
structure MuteTwins (cs : List ChanId) (s s' : State) : Prop where
  rb : s'.rb = s.rb
  pcm : s'.pcm = s.pcm
  glob : s'.glob = s.glob
  filterless : ∀ c, (s'.chan c).clearFilter = (s.chan c).clearFilter
  chan : ∀ c : ChanId, c ∈ cs ∨ s'.mute[c] = s.mute[c] → s'.chan c = s.chan c

section MuteTwins
variable (P : Params) {s s' : State}

/-- A channel's step on a channel not stepped before. -/
theorem MuteTwins.step {c : ChanId} {cs : List ChanId} (hnew : c ∉ cs) (h : MuteTwins (c :: cs) s s') :
    MuteTwins cs (channelStep P c s).1 (channelStep P c s').1 := by
  have hf := channelStep_frame P c s
  have hf' := channelStep_frame P c s'
  have hc := h.chan c (.inl List.mem_cons_self)
  have hprev : (s'.chan (c + 1)).prevRaw = (s.chan (c + 1)).prevRaw := by
    rw [← ChanState.clearFilter_prevRaw, h.filterless, ChanState.clearFilter_prevRaw]
  obtain ⟨hrb, hchan, hraw⟩ := channelSource_congr (P := P) h.rb h.pcm h.glob hc
  have hsource := channelSource_frame P c s
  have hsource' := channelSource_frame P c s'
  have hout := channelOutput_twins (P := P) hrb hchan
    (by rw [hsource'.chan _ (nextChannel_ne c), hsource.chan _ (nextChannel_ne c), hprev]) (channelSource P c s).2
  simp only [hsource.mute, hsource'.mute] at hout
  have hown : FilterTwins c (s'.mute[c] = s.mute[c]) (channelStep P c s).1 (channelStep P c s').1 := by
    rw [channelStep_fst, channelStep_fst, sampled, sampled, hraw]
    exact (((hout.sweep .freq).sweep .vol).sweep .cut).phaseResets
  refine ⟨hown.rb, by rw [hf'.pcm, hf.pcm, h.pcm], by rw [hf'.glob, hf.glob, h.glob], fun d => ?_, fun d hd => ?_⟩
  · by_cases hdc : d = c
    · exact hdc ▸ hown.filterless
    · rw [hf'.chan d hdc, hf.chan d hdc, h.filterless]
  · simp only [hf'.mute, hf.mute] at hd
    by_cases hdc : d = c
    · subst hdc
      exact hown.chan (hd.resolve_left hnew)
    · rw [hf'.chan d hdc, hf.chan d hdc]
      exact h.chan d (hd.imp_left (List.mem_cons_of_mem c))

theorem MuteTwins.run {cs : List ChanId} (hn : cs.Nodup) (h : MuteTwins cs s s') :
    MuteTwins [] (runChannels P cs s).1 (runChannels P cs s').1 := by
  induction cs generalizing s s' with
  | nil => exact h
  | cons c cs ih =>
    obtain ⟨hnew, hn⟩ := List.nodup_cons.1 hn
    exact ih hn (h.step P hnew)

end MuteTwins

/-! ### The whole ADVANCE -/

section MuteAdvance
variable (P : Params) (s : State) (c : ChanId) (v : Vector Bool 9)

/-- A channel after an ADVANCE: as the channel steps leave it, its raw sample committed. -/
theorem advance_chan_of_run :
    (advanceCommand P s).chan c =
      { (runChannels P channels (s.beforeChannels P)).1.chan c with prevRaw := (channelSample P c s).2.raw } := by
  have hprev := advance_prevRaw_eq P s c
  obtain ⟨raw, hraw⟩ := commitRaws_chan (runChannels P channels (s.beforeChannels P)).2
    (runChannels P channels (s.beforeChannels P)).1 c
  have hchan : (advanceCommand P s).chan c = _ := (advanceCommand_chan P s c).trans ((advance_chan P s c).trans hraw)
  rw [hchan] at hprev ⊢
  rw [← hprev]

/-- The state with other mute flags. -/
def State.withMute (s : State) (v : Vector Bool 9) : State := { s with mute := v }

theorem muteTwins_run :
    MuteTwins [] (runChannels P channels (s.beforeChannels P)).1
      (runChannels P channels ((s.withMute v).beforeChannels P)).1 :=
  MuteTwins.run P (by decide) ⟨rfl, rfl, rfl, fun _ => rfl, fun _ _ => rfl⟩

theorem channelSample_raw_withMute : (channelSample P c (s.withMute v)).2.raw = (channelSample P c s).2.raw := by
  obtain ⟨-, -, hraw⟩ := channelSource_congr (P := P) (c := c) (s := s.beforeChannels P)
    (s' := (s.withMute v).beforeChannels P) rfl rfl rfl rfl
  exact hraw

/-- A channel whose flag is the same comes out the same. -/
theorem advance_chan_withMute (h : v[c] = s.mute[c]) :
    (advanceCommand P (s.withMute v)).chan c = (advanceCommand P s).chan c := by
  have hmute : (runChannels P channels ((s.withMute v).beforeChannels P)).1.mute[c] =
      (runChannels P channels (s.beforeChannels P)).1.mute[c] := by
    simp only [(runChannels_frame P channels _).mute]
    exact h
  rw [advance_chan_of_run, advance_chan_of_run, channelSample_raw_withMute, (muteTwins_run P s v).chan c (.inr hmute)]

/-- Every channel comes out the same but for the filter. -/
theorem advance_filterless_withMute :
    ((advanceCommand P (s.withMute v)).chan c).clearFilter = ((advanceCommand P s).chan c).clearFilter := by
  rw [advance_chan_of_run, advance_chan_of_run, channelSample_raw_withMute]
  exact congrArg (fun ch : ChanState => { ch with prevRaw := (channelSample P c s).2.raw })
    ((muteTwins_run P s v).filterless c)

end MuteAdvance

/-- Settles O52, by `MuteTwins`: a mute flag enters its channel's filter alone, and the filter nothing else. -/
theorem muteTouchesFilterOnly : Obligations.MuteTouchesFilterOnly := by
  unfold Obligations.MuteTouchesFilterOnly
  intro s v
  obtain ⟨-, -, hamVal, hpmVal, henvCnt⟩ := advance_glob params s
  obtain ⟨-, -, hamVal', hpmVal', henvCnt'⟩ := advance_glob params (s.withMute v)
  refine ⟨_, _, exec_adv s, exec_adv (s.withMute v), ?_, ?_,
    fun c => advance_filterless_withMute params s c v, ?_, ?_, ?_, fun c hmuted => ?_, fun c hsame => advance_chan_withMute params s c v hsame⟩
  · rw [advanceCommand_rb, advanceCommand_rb, advance_rb, advance_rb]
    exact (muteTwins_run params s v).rb
  · rw [advanceCommand_pcm, advanceCommand_pcm]
    rfl
  · rw [advanceCommand_glob, advanceCommand_glob, hamVal, hamVal']
    rfl
  · rw [advanceCommand_glob, advanceCommand_glob, hpmVal, hpmVal']
    rfl
  · rw [advanceCommand_glob, advanceCommand_glob, henvCnt, henvCnt']
    rfl
  · exact ChanState.filter_inj (advance_filter_of_muted params c (s.withMute v) hmuted)

end Sys2Proof.Machine

/-! ## A channel depends on its own inputs (46_channel.md R360, R364) -/

namespace Sys2Proof.Machine

section Isolation
variable {P : Params} {c : ChanId} {s s' u u' : State}

theorem advanceGlobals_congr {g g' : Globals} (ham : g'.amCnt = g.amCnt) (hpm : g'.pmCnt = g.pmCnt)
    (henv : g'.envCnt = g.envCnt) : CountersAgree (advanceGlobals P g) (advanceGlobals P g') where
  amVal := by rw [advanceGlobals_amVal, advanceGlobals_amVal, advanceGlobals_amCnt, advanceGlobals_amCnt, ham]
  pmVal := by rw [advanceGlobals_pmVal, advanceGlobals_pmVal, advanceGlobals_pmCnt, advanceGlobals_pmCnt, hpm]
  envCnt := by rw [advanceGlobals_envCnt, advanceGlobals_envCnt, henv]

/-- What the channel's steps see of states that agree on the channel's inputs. -/
theorem ChannelAgrees.stepAgrees (h : ChannelAgrees c s s') (hwf : Memory.wf s.rb = true)
    (hwf' : Memory.wf s'.rb = true) (hu : SeenBy P c s u) (hu' : SeenBy P c s' u') : StepAgrees c u u' where
  banks :=
    { wf := hu.wf hwf
      wf' := hu'.wf hwf'
      used := ChanBytes.usedBitsAgree fun a ha => by rw [hu'.bytes a ha, h.bytes a ha, hu.bytes a ha] }
  chan := by rw [hu'.chan, h.chan, hu.chan]
  prevRaw := by rw [hu'.prevRaw, h.prevRaw, hu.prevRaw]
  pcm := by rw [hu'.pcm, h.pcm, hu.pcm]
  mute := by simp only [hu'.mute, h.mute, hu.mute]
  counters := by
    rw [hu.glob, hu'.glob]
    exact advanceGlobals_congr h.amCnt h.pmCnt h.envCnt

/-- Banks that agree on a channel's bytes before an ADVANCE and on their used bits after it agree on the bytes after it:
an ADVANCE writes no unused bit (30_encoding.md R132). -/
theorem chanBytes_of_usedBits (hwf : Memory.wf s.rb = true) (hwf' : Memory.wf s'.rb = true)
    (hbefore : ChanBytes c s.rb s'.rb) (hafter : UsedBitsAgree c (advance P s).1.rb (advance P s').1.rb) :
    ChanBytes c (advance P s).1.rb (advance P s').1.rb := by
  intro a ha
  by_cases hflags1 : a = chByteIndex c flags1Offset
  · obtain ⟨hkept, -⟩ := advance_flags P c s hwf
    obtain ⟨hkept', -⟩ := advance_flags P c s' hwf'
    subst hflags1
    refine BitVec.eq_of_getLsbD_eq fun i _ => ?_
    by_cases hi : i = 0
    · subst hi
      have hbit := hafter.flags1_bit 0 (by decide)
      rwa [bit_eq_testBit, bit_eq_testBit] at hbit
    · rw [← hkept' i hi, ← hkept i hi, hbefore _ ha]
  · by_cases howned : ∃ j ∈ advanceOwned, a = chByteIndex c j
    · obtain ⟨j, hj, rfl⟩ := howned
      have hused : ∀ j ∈ advanceOwned, j ≠ flags1Offset → j < 32 ∧ usedMask (32 + j) = 0xFF#8 := by decide
      obtain ⟨hlt, hmask⟩ := hused j hj fun h => hflags1 (by rw [h])
      exact hafter.read_eq ha ((usedMask_chByteIndex c j hlt).trans hmask)
    · have hfree : ∀ d : ChanId, ∀ j ∈ advanceOwned, a ≠ chByteIndex d j := fun d j hj heq => by
        have hlt : j < 32 := (by decide : ∀ j ∈ advanceOwned, j < 32) j hj
        have hdc : d = c := Fin.ext (by simp only [chByteIndex] at heq; omega)
        exact howned ⟨j, hj, hdc ▸ heq⟩
      rw [(advance_frame P s').read a hfree, (advance_frame P s).read a hfree, hbefore a ha]

end Isolation

/-- Settles O59: the channel's steps agree on what they see, so on what they make of the channel. -/
theorem channelsAreIsolated : Obligations.ChannelsAreIsolated := by
  unfold Obligations.ChannelsAreIsolated
  intro s s' c hwf hwf' h
  obtain ⟨u, hu, hchan, hbytes⟩ := advance_channel params s c
  obtain ⟨u', hu', hchan', hbytes'⟩ := advance_channel params s' c
  obtain ⟨hstep, hout⟩ := (h.stepAgrees hwf hwf' hu hu').channelStep params
  refine ⟨_, _, exec_adv s, exec_adv s', ?_, ?_⟩
  · rw [advanceCommand_chan, advanceCommand_chan, hchan, hchan', hstep.chan, hout]
  · rw [advanceCommand_rb, advanceCommand_rb]
    refine chanBytes_of_usedBits hwf hwf' h.bytes fun a ha => ?_
    rw [hbytes a ha, hbytes' a ha]
    exact hstep.banks.used a ha

end Sys2Proof.Machine

/-! ## The output mixer (47_mixer.md R420 to R422) -/

namespace Sys2Proof.Machine

/-! ### What the nine channel steps hand the mixer -/

section Contributions
variable {P : Params} {c : ChanId} {s t u : State}

/-- What steps 2 to 6 return is a function of their inputs and the channel's transient state. -/
theorem OutputInputs.output_snd (h : OutputInputs c s t) (hc : t.chan c = s.chan c) (raw : Int) :
    (channelOutput P c t raw).2 = (channelOutput P c s raw).2 := by
  simp only [channelOutput, h.ring, h.filter, h.fVol, h.fPan, h.mute, hc]

/-- The source leaves a channel that sees what stood before the ADVANCE the same inputs for steps 2 to 6. -/
theorem SeenBy.source_outputInputs (h : SeenBy P c s u) :
    OutputInputs c (Machine.channelSource P c (s.beforeChannels P)).1 (Machine.channelSource P c u).1 := by
  have hs := channelSource_outputInputs P c (s.beforeChannels P)
  have hu := h.outputInputs.trans (channelSource_outputInputs P c u)
  exact ⟨fun j hj => (hu.byte j hj).trans (hs.byte j hj).symm, hu.mute.trans hs.mute.symm,
    hu.prevRaw.trans hs.prevRaw.symm⟩

/-- A channel's step returns what `channelSample` says. -/
theorem SeenBy.channelStep_snd (h : SeenBy P c s u) : (Machine.channelStep P c u).2 = (channelSample P c s).2 := by
  obtain ⟨hchan, hraw⟩ := h.source_eq
  simp only [Machine.channelStep, channelSample, hraw]
  exact h.source_outputInputs.output_snd hchan _

/-- Another channel's step keeps what channel `c` sees. -/
theorem SeenBy.channelStep_ne {d : ChanId} (h : SeenBy P c s u) (hcd : c ≠ d) :
    SeenBy P c s (Machine.channelStep P d u).1 := by
  have hf := channelStep_frame P d u
  exact
    { bytes := fun a ha => (hf.rb.chanBytes hcd a ha).trans (h.bytes a ha)
      wf := fun hwf => hf.rb.wf (h.wf hwf)
      chan := (hf.chan c hcd).trans h.chan
      pcm := hf.pcm.trans h.pcm
      mute := hf.mute.trans h.mute
      glob := hf.glob.trans h.glob
      prevRaw := fun e => (channelStep_prevRaw P d e u).trans (h.prevRaw e) }

theorem SeenBy.beforeChannels (P : Params) (c : ChanId) (s : State) : SeenBy P c s (s.beforeChannels P) :=
  ⟨fun _ _ => rfl, id, rfl, rfl, rfl, rfl, fun _ => rfl⟩

/-- Distinct channels that each see what stood before the ADVANCE return their samples, in order. -/
theorem runChannels_snd {cs : List ChanId} (hn : cs.Nodup) (h : ∀ c ∈ cs, SeenBy P c s u) :
    (runChannels P cs u).2 = cs.map fun c => (c, (channelSample P c s).2) := by
  induction cs generalizing u with
  | nil => rfl
  | cons d cs ih =>
    obtain ⟨hnew, hn⟩ := List.nodup_cons.1 hn
    have hrest := ih hn fun c hc =>
      (h c (List.mem_cons_of_mem d hc)).channelStep_ne (ne_of_mem_of_not_mem hc hnew)
    rw [runChannels, List.map_cons, hrest, (h d List.mem_cons_self).channelStep_snd]

/-- The mixer of an ADVANCE runs on the nine channels' contributions. -/
theorem advance_mix_samples (P : Params) (s : State) :
    ((advance P s).1.glob, (advance P s).2) =
      mix P (channels.map fun c => (channelSample P c s).2.left) (channels.map fun c => (channelSample P c s).2.right)
        (advanceGlobals P s.glob) := by
  have houts := runChannels_snd (by decide : channels.Nodup) fun c _ => SeenBy.beforeChannels P c s
  rw [advance_mix, houts, List.map_map, List.map_map]
  rfl

end Contributions

/-! ### The mixer's arithmetic -/

theorem fits64_iff (v : Int) : fits64 v = true ↔ -2 ^ 63 ≤ v ∧ v < 2 ^ 63 := by
  simp only [fits64, Bool.and_eq_true, decide_eq_true_eq]

/-- The accumulator holds the sum where every partial sum fits (47_mixer.md R420). -/
theorem accumulate64_of_fits (acc : Int) (xs : List Int) (h : ∀ n, fits64 (acc + (xs.take n).sum) = true) :
    accumulate64 acc xs = some (acc + xs.sum) := by
  induction xs generalizing acc with
  | nil => rw [accumulate64, List.sum_nil, Int.add_zero]
  | cons x xs ih =>
    have hfirst : fits64 (acc + x) = true := by simpa using h 1
    have hrest : ∀ n, fits64 (acc + x + (xs.take n).sum) = true := fun n => by
      simpa [Int.add_assoc] using h (n + 1)
    rw [accumulate64, if_pos hfirst, ih _ hrest, List.sum_cons, Int.add_assoc]

theorem mixSum_toInt {xs : List Int} (h : ∀ n, -2 ^ 63 ≤ (xs.take n).sum ∧ (xs.take n).sum < 2 ^ 63) :
    (mixSum xs).toInt = xs.sum := by
  have hacc := accumulate64_of_fits 0 xs fun n => by rw [Int.zero_add, fits64_iff]; exact h n
  obtain ⟨hlow, hhigh⟩ := h xs.length
  rw [List.take_length] at hlow hhigh
  rw [mixSum, hacc, Int.zero_add]
  exact BitVec.toInt_ofInt_eq_self (by decide) hlow hhigh

/-- The DC blocker with its arithmetic shift written as the division (47_mixer.md R421). -/
theorem dcOutput_eq (P : Params) (x x1 y1 : BitVec 64) :
    dcOutput P x x1 y1 = x.toInt - x1.toInt + P.hpfR * y1.toInt / 65536 := rfl

/-- `Y1` holds the unsaturated output where it fits (47_mixer.md R421). -/
theorem dcStored_toInt (P : Params) (x x1 y1 : BitVec 64) (hlow : -2 ^ 63 ≤ dcOutput P x x1 y1)
    (hhigh : dcOutput P x x1 y1 < 2 ^ 63) : (dcStored P x x1 y1).toInt = dcOutput P x x1 y1 := by
  rw [dcStored, if_pos ((fits64_iff _).2 ⟨hlow, hhigh⟩)]
  exact BitVec.toInt_ofInt_eq_self (by decide) hlow hhigh

/-- The 32-bit response carries the saturated value whole (30_encoding.md R136, 47_mixer.md R422). -/
theorem sat32_toInt (y : Int) : (BitVec.ofInt 32 (sat32 y)).toInt = min (2 ^ 31 - 1) (max (-2 ^ 31) y) :=
  BitVec.toInt_ofInt_eq_self (by decide) (by simp only [sat32, clamp]; omega) (by simp only [sat32, clamp]; omega)

/-- Settles O54: the mixer runs on the nine contributions (`advance_mix_samples`), and each of its stages is exact where
its result fits. -/
theorem outputIsBlockedAndSaturated : Obligations.OutputIsBlockedAndSaturated := by
  unfold Obligations.OutputIsBlockedAndSaturated
  intro s
  obtain ⟨hglob, hpair⟩ := Prod.mk.inj (advance_mix_samples params s)
  refine ⟨_, _, _, exec_adv s, by rw [advanceCommand_eq, State.complete_response], ?_⟩
  rw [advanceCommand_glob, hglob, hpair]
  simp only [← dcOutput_eq]
  exact ⟨mixSum_toInt, mixSum_toInt, sat32_toInt _, sat32_toInt _, dcStored_toInt _ _ _ _, dcStored_toInt _ _ _ _⟩

end Sys2Proof.Machine

/-! ## RESET and the reset state (70_reset_and_hazards.md R470 to R475) -/

namespace Sys2Proof.Machine

section Reset
variable (P : Params) (s : State)

/-! ### The transient state RESET leaves -/

/-- A channel of the reset block is the channel after RESET, whatever it was. -/
theorem State.resetBlock_chan (c : ChanId) : (s.resetBlock P).chan c = .afterReset P c := by
  rw [State.chan, State.resetBlock_chans]
  fin_cases c <;> rfl

theorem State.resetBlock_op (c : ChanId) (k : OpId) :
    ((s.resetBlock P).chan c).op k = OpState.afterReset P c k := by
  rw [State.chan, State.resetBlock_chans, chansAfterReset_op]

/-! ### The memories RESET clears or keeps (P41, P42) -/

theorem noMute_get (c : ChanId) : noMute[c] = false := by
  fin_cases c <;> rfl

theorem State.resetBlock_mute_get (c : ChanId) :
    (s.resetBlock P).mute[c] = if P.resetClearsMute then false else s.mute[c] := by
  rw [State.resetBlock_mute]
  split
  · exact noMute_get c
  · rfl

theorem State.resetBlock_mute_of_clears (h : P.resetClearsMute = true) : (s.resetBlock P).mute = noMute := by
  rw [State.resetBlock_mute, if_pos h]

theorem State.resetBlock_pcm_of_clears (h : P.resetClearsPcm = true) : (s.resetBlock P).pcm = [] := by
  rw [State.resetBlock_pcm, if_pos h]

theorem State.resetBlock_pcm_of_keeps (h : P.resetClearsPcm = false) : (s.resetBlock P).pcm = s.pcm := by
  rw [State.resetBlock_pcm, h, if_neg Bool.false_ne_true]

/-! ### RESET twice, and RESET around the command port -/

/-- What P41 and P42 keep, a second RESET keeps too; the rest is at its reset value already. -/
theorem State.resetBlock_resetBlock : (s.resetBlock P).resetBlock P = s.resetBlock P := by
  simp only [State.resetBlock]
  split <;> split <;> rfl

/-- The block's RESET does not see the command port (log entry 12). -/
theorem State.resetBlock_complete (r : Response) : (s.complete r).resetBlock P = (s.resetBlock P).complete r := rfl

/-! ### The power-on state -/

/-- Power-on has both memories clear, so that RESET gives the reset state whatever P41 and P42 say. -/
theorem State.resetBlock_powerOn : State.powerOn.resetBlock P = State.resetWith P := by
  simp only [State.resetBlock, State.powerOn, ite_self, State.resetWith]

theorem State.powerOn_chan (c : ChanId) : State.powerOn.chan c = .atPowerOn := by
  fin_cases c <;> rfl

theorem ChanState.atPowerOn_op (k : OpId) : ChanState.atPowerOn.op k = .atPowerOn := by
  fin_cases k <;> rfl

theorem OpState.atPowerOn_inv : OpState.atPowerOn.Inv P := ⟨Nat.zero_le _, Nat.zero_le _⟩

/-- The ranges hold from power-on, where every value is 0. -/
theorem State.powerOn_inv : State.Inv P State.powerOn where
  rb_wf := rfl
  rb_below := rfl
  pcm_wf := rfl
  pcm_below := rfl
  ops := fun c k => by
    rw [State.powerOn_chan, ChanState.atPowerOn_op]
    exact OpState.atPowerOn_inv P
  frac := fun c => by
    rw [State.powerOn_chan]
    exact P.pcmThresh_pos
  amCnt := by decide
  pmCnt := by decide
  pmVal := by decide

theorem State.resetWith_inv : State.Inv P (State.resetWith P) :=
  State.resetBlock_powerOn P ▸ resetBlock_inv (State.powerOn_inv P)

/-- Every operator starts on its seeds, which are not 0 (43_waveform.md R279). -/
theorem State.resetWith_noiseAlive : (State.resetWith P).NoiseAlive := by
  intro c k
  rw [State.resetWith_op]
  exact ⟨P.seed32_ne c k, P.seed6_ne c k⟩

end Reset

/-! ### The obligations -/

/-- Settles O58: power-on has the ranges and RESET keeps them, and the seeds are live. -/
theorem resetStateMeetsInvariants : Obligations.ResetStateMeetsInvariants := by
  unfold Obligations.ResetStateMeetsInvariants
  refine ⟨State.resetWith_inv params, State.resetWith_noiseAlive params, _, exec_rst State.powerOn, ?_⟩
  rw [State.resetBlock_powerOn]
  exact State.complete_sameBlock State.reset .nothing

/-- Settles O16: completing the command changes the port alone, and the block is `resetBlock`, whose parts are read off
one by one. -/
theorem resetRestoresResetValues : Obligations.ResetRestoresResetValues := by
  unfold Obligations.ResetRestoresResetValues
  intro s
  have hport : PortAfter s ((s.resetBlock params).complete .nothing) .nothing :=
    State.complete_port (State.resetBlock_stream params s) (State.resetBlock_refusalMark params s) .nothing
  refine ⟨_, exec_rst s, hport, Memory.read_nil, State.resetBlock_op params s, fun c => ?_, rfl,
    State.resetBlock_mute_get params s, fun hclears a => ?_, State.resetBlock_pcm_of_keeps params s⟩
  · rw [State.complete_chan, State.resetBlock_chan]
    exact ⟨rfl, rfl, rfl, rfl, rfl, rfl, rfl, rfl, rfl, rfl, rfl⟩
  · rw [State.complete_pcm, State.resetBlock_pcm_of_clears params s hclears]
    exact Memory.read_nil a

/-- Settles O17: `resetBlock` is idempotent and blind to the port between the two commands, and where P41 and P42 clear
both memories no part of it looks at the state before. -/
theorem resetTwiceIsResetOnce : Obligations.ResetTwiceIsResetOnce := by
  unfold Obligations.ResetTwiceIsResetOnce
  refine ⟨fun s => ⟨_, _, exec_rst s, exec_rst _, ?_⟩,
    fun s s' => ⟨_, _, exec_rst s, exec_rst s', rfl, rfl, rfl, ?_, ?_⟩⟩
  · rw [State.resetBlock_complete, State.resetBlock_resetBlock]
    exact State.complete_sameBlock _ _
  · intro hclears
    rw [State.complete_pcm, State.complete_pcm, State.resetBlock_pcm_of_clears params s hclears,
      State.resetBlock_pcm_of_clears params s' hclears]
  · intro hclears
    rw [State.complete_mute, State.complete_mute, State.resetBlock_mute_of_clears params s hclears,
      State.resetBlock_mute_of_clears params s' hclears]

end Sys2Proof.Machine
